-- ==== Sys2Proof/Word.lean ====
section
/-! DEFINITION. The word types of PTTY-FBSEQ and the one length test the decoder and the well-formedness check share. -/

namespace Sys2Proof

/-- One byte: of the framebuffer, of a payload, of a frame (00_scope.md R12). -/
abbrev Byte := BitVec 8

/-- The level of one pin, 0 or 1 (00_scope.md R14). -/
abbrev Level := BitVec 1

/-- One 12-bit geometry field of a request word (30_encoding.md R91, R93). -/
abbrev Coord := BitVec 12

/-- A request word (30_encoding.md R90, R91). -/
abbrev ReqWord := BitVec 64

/-- Whether a list has exactly `n` elements; walks the list once, so that the kernel can evaluate it on long lists. -/
def hasLength {α : Type} : List α → Nat → Bool
  | [], 0 => true
  | [], _ + 1 => false
  | _ :: _, 0 => false
  | _ :: as, n + 1 => hasLength as n

end Sys2Proof
end

