-- ==== Sys2Proof/Config.lean ====
section
/-! DEFINITION. What is fixed for the block: the parameters of 00_scope.md R10 that the source gives or the spec decides, the
OPEN parameters as a record a state carries, and the free values (opaque constants with no body). -/

namespace Sys2Proof

/-- The OPEN parameters of 00_scope.md R10, "fixed when the block is built or configured" (70_reset_and_hazards.md R324).
No instruction writes them. DESIGN CHOICE (log entry 1): a state carries them, so that a claim over every state is a claim
over every value of them. -/
structure Params where
  /-- `UPD1_INIT`, the two data bytes of 0x21 in `INIT` and `INIT_FAST`. -/
  upd1Init : Byte × Byte
  /-- `BORDER_INIT`, the data byte of 0x3C in `INIT` and `INIT_FAST`. -/
  borderInit : Byte
  /-- `UPD1_PARTIAL`, the two data bytes of 0x21 in `DISPLAY_PARTIAL`. -/
  upd1Partial : Byte × Byte
  /-- `BORDER_PARTIAL`, the data byte of 0x3C in `DISPLAY_PARTIAL`. -/
  borderPartial : Byte
  /-- `TEMP_FAST`, the data byte of 0x1A. -/
  tempFast : Byte
  /-- `CTRL2_FASTLOAD`, the data byte of 0x22 in the fast-load cycle. -/
  ctrl2FastLoad : Byte
  /-- `SLEEP_DATA`, the data byte of 0x10. -/
  sleepData : Byte
  /-- `BUSY_LEVEL`, the level of the BUSY pin that means busy. -/
  busyLevel : Level
deriving DecidableEq, Repr, Inhabited

namespace Config

/-- `WIDTH` (00_scope.md R10). -/
def width : Nat := 400

/-- `HEIGHT` (00_scope.md R10). -/
def height : Nat := 300

/-- `BPR`, bytes per row (00_scope.md R10). -/
def bpr : Nat := (width + 7) / 8

/-- `FB_BYTES` (00_scope.md R10). -/
def fbBytes : Nat := height * bpr

/-- `POLL_MS` (00_scope.md R10). -/
def pollMs : Nat := 20

/-- `RST_T1_MS` (00_scope.md R10). -/
def rstT1Ms : Nat := 100

/-- `RST_T2_MS` (00_scope.md R10). -/
def rstT2Ms : Nat := 2

/-- `RST_T3_MS` (00_scope.md R10). -/
def rstT3Ms : Nat := 100

/-- `DATA_ENTRY` (00_scope.md R10). -/
def dataEntry : Byte := 0x03#8

/-- `ACT_FULL` (00_scope.md R10). -/
def actFull : Byte := 0xF7#8

/-- `ACT_FAST` (00_scope.md R10). -/
def actFast : Byte := 0xC7#8

/-- `ACT_PARTIAL` (00_scope.md R10). -/
def actPartial : Byte := 0xFF#8

/-- `ACT_GRAY` (00_scope.md R10). -/
def actGray : Byte := 0xCF#8

/-- `DC_CMD` (00_scope.md R10). -/
def dcCmd : Level := 0#1

/-- `DC_DATA` (00_scope.md R10). -/
def dcData : Level := 1#1

/-- `CS_ASSERT` (00_scope.md R10). -/
def csAssert : Level := 0#1

/-- `CS_DEASSERT` (00_scope.md R10). -/
def csDeassert : Level := 1#1

/-- The OPEN parameters of the block that comes out of reset: no value is known (log entry 1). -/
opaque params : Params

/-- FREE VALUE: byte `k` of `FB` as the `n`-th block reset left it (10_state.md R45, "a draw at reset"; log entry 2). -/
opaque fbDraw (n k : Nat) : Byte

/-- FREE VALUE: the level the `n`-th unscripted `BusyRead()` returns (00_scope.md R14; log entry 3). -/
opaque busyDraw (n : Nat) : Level

/-- FREE VALUE: the status the `n`-th unscripted `TransportInit()` returns (00_scope.md R14; log entries 3 and 11). -/
opaque transportDraw (n : Nat) : Int

end Config

end Sys2Proof
end

