-- ==== Sys2Proof/Syntax.lean ====
section
/-! DEFINITION. The instructions: one constructor for each row of spec/opcode_table.json, the eleven host requests
(30_encoding.md R92) and the fourteen controller commands (30_encoding.md R102); and the encoded forms of both. -/

namespace Sys2Proof

/-- One row of spec/opcode_table.json each, with the operands its encoding carries. -/
inductive Instr where
  /-- `INIT`: `F0` = partial, `F1` = gray (43_refresh_sequencer.md R230). -/
  | init (part gray : Bool)
  /-- `INIT_FAST`: `F0` = partial, `F1` = gray (R231). -/
  | initFast (part gray : Bool)
  /-- `CLEAR` (R225). -/
  | clear
  /-- `DISPLAY_FULL` (R226). -/
  | displayFull
  /-- `DISPLAY_PARTIAL` (R227). -/
  | displayPartial
  /-- `DRAW x, y, w, h` with the payload of the bitmap (R240). -/
  | draw (x y w h : Coord) (payload : List Byte)
  /-- `FILL`: `F0` = colour (true is white), `H` = tileHeight (R245). -/
  | fill (color : Bool) (tileHeight : Coord)
  /-- `SLEEP` (R250). -/
  | sleep
  /-- `MERGE x, y, w, h` with the payload of the bitmap (40_framebuffer.md R133). -/
  | merge (x y w h : Coord) (payload : List Byte)
  /-- `TO_BITMAP` (R140). -/
  | toBitmap
  /-- `FB_FILL`: `F0` = colour (R145). -/
  | fbFill (color : Bool)
  /-- `CTRL_SWRESET`, opcode 0x12 (41_command_encoder.md R170). -/
  | ctrlSwReset
  /-- `CTRL_UPDATE_CTRL1`, opcode 0x21, two data bytes (R171). -/
  | ctrlUpdateCtrl1 (d0 d1 : Byte)
  /-- `CTRL_BORDER_WAVEFORM`, opcode 0x3C, one data byte (R172). -/
  | ctrlBorderWaveform (d : Byte)
  /-- `CTRL_DATA_ENTRY`, opcode 0x11, one data byte (R173). -/
  | ctrlDataEntry (d : Byte)
  /-- `CTRL_RAM_X_WINDOW`, opcode 0x44: start and end X address (R174). -/
  | ctrlRamXWindow (xs xe : Byte)
  /-- `CTRL_RAM_Y_WINDOW`, opcode 0x45: start and end row, 16 bits each, low byte first (R175). -/
  | ctrlRamYWindow (ys ye : BitVec 16)
  /-- `CTRL_RAM_X_COUNTER`, opcode 0x4E, one data byte (R176). -/
  | ctrlRamXCounter (x : Byte)
  /-- `CTRL_RAM_Y_COUNTER`, opcode 0x4F: a row, 16 bits, low byte first (R177, R67). -/
  | ctrlRamYCounter (y : BitVec 16)
  /-- `CTRL_WRITE_RAM_PRIMARY`, opcode 0x24, `FB_BYTES` data bytes (R178). -/
  | ctrlWriteRamPrimary (plane : List Byte)
  /-- `CTRL_WRITE_RAM_SECONDARY`, opcode 0x26, `FB_BYTES` data bytes (R179). -/
  | ctrlWriteRamSecondary (plane : List Byte)
  /-- `CTRL_UPDATE_CTRL2`, opcode 0x22, the waveform-select byte (R180). -/
  | ctrlUpdateCtrl2 (a : Byte)
  /-- `CTRL_MASTER_ACTIVATE`, opcode 0x20 (R181). -/
  | ctrlMasterActivate
  /-- `CTRL_LOAD_TEMPERATURE`, opcode 0x1A, one data byte (R182). -/
  | ctrlLoadTemperature (d : Byte)
  /-- `CTRL_DEEP_SLEEP`, opcode 0x10, one data byte (R183). -/
  | ctrlDeepSleep (d : Byte)
deriving DecidableEq, Repr

/-- A request as the host presents it: a word and a payload (30_encoding.md R90). -/
structure Request where
  word : ReqWord
  payload : List Byte
deriving DecidableEq, Repr

/-- The encoded forms of an instruction: "The block has two encodings" (30_encoding.md). -/
inductive Code where
  /-- A host request. -/
  | request (r : Request)
  /-- A controller command frame: its opcode byte and its data bytes (30_encoding.md R101). -/
  | frame (op : Byte) (data : List Byte)
deriving DecidableEq, Repr

end Sys2Proof
end

