-- ==== Sys2Proof/Machine/State.lean ====
section
/-! DEFINITION. The state of PTTY-FBSEQ as plain data: everything 10_state.md R30 gives the block, the OPEN parameters, and the
model's own fields (the rest of the current event program, the outputs, the inputs). -/

namespace Sys2Proof.Machine

/-- `DEV_STATE` (10_state.md R32; its 2-bit codes are `DevState.code`). -/
inductive DevState where
  | uninit
  | ready
  | sleeping
deriving DecidableEq, Repr

/-- `MODE`, the refresh mode (10_state.md R34; its 2-bit codes are `Mode.code`). -/
inductive Mode where
  | full
  | fast
  | partialMode
  | gray4
deriving DecidableEq, Repr

/-- The output pins (10_state.md R37). -/
inductive Pin where
  | rst
  | dc
  | cs
deriving DecidableEq, Repr

/-- The externally visible events (00_scope.md R14). -/
inductive Event where
  /-- `PinWrite(pin, level)`. -/
  | pinWrite (pin : Pin) (level : Level)
  /-- `Xfer(b)`: one byte over the serial bus. -/
  | xfer (b : Byte)
  /-- `DelayMs(n)`. -/
  | delayMs (n : Nat)
  /-- `BusyRead()`, with the level the environment returned. -/
  | busyRead (level : Level)
  /-- `TransportInit()`, with the status the environment returned. -/
  | transportInit (st : Int)
deriving DecidableEq, Repr

/-- One operation of the event program of a request (the sequences of 42_reset_sequencer.md and 43_refresh_sequencer.md). -/
inductive SeqOp where
  /-- `WriteReg(op, bs)` with data known when the request is accepted (41_command_encoder.md R165). -/
  | frame (op : Byte) (bs : List Byte)
  /-- `WriteReg(op, FB[0 .. FB_BYTES-1])`: the data is `FB` as it is when the frame is sent (R178, R179). -/
  | plane (op : Byte)
  /-- `ResetPulse()` (42_reset_sequencer.md R200). -/
  | resetPulse
  /-- `WaitIdle()` at its first `BusyRead()` (R203). -/
  | poll
  /-- `WaitIdle()` after a busy level was read: the delay and the next `BusyRead()` are still to come (R203). -/
  | repoll
  /-- `FbFill(v)` (40_framebuffer.md R145). -/
  | fbFill (v : Byte)
  /-- `Merge(0, y, WIDTH, h, solid(c))`, one tile of `FILL` (43_refresh_sequencer.md R245). -/
  | mergeSolid (y h : Nat) (c : Bool)
  /-- `MODE <- m` (R232). -/
  | setMode (m : Mode)
  /-- `DEV_STATE <- d` (R232, R250). -/
  | setDevState (d : DevState)
deriving DecidableEq, Repr

/-- A response: the status byte and, for a `TO_BITMAP` that ends with `OK`, its data (30_encoding.md R98). -/
structure Response where
  status : Byte
  data : List Byte
deriving DecidableEq, Repr

/-- The framebuffer's written bytes as (index, byte) pairs in one canonical form (`Memory.wf`): indexes strictly rising.
An unlisted index holds no written value; what such a byte of `FB` reads as is `State.fbRead`'s free value (log entry 2). -/
abbrev Memory := List Host.Cell

structure State where
  /-- `DEV_STATE` (10_state.md R32). -/
  devState : DevState
  /-- `MODE` (R34). -/
  mode : Mode
  /-- The bytes of `FB` written since the last block reset (R36). -/
  fb : Memory
  /-- Model's own: which block reset the unwritten bytes of `FB` come from (log entry 2). -/
  fbEpoch : Nat
  /-- `PIN_RST` (R37). -/
  pinRst : Level
  /-- `PIN_DC` (R37). -/
  pinDc : Level
  /-- `PIN_CS` (R37). -/
  pinCs : Level
  /-- `STATUS` (R38). -/
  status : Byte
  /-- `ACTIVE` (R40). -/
  active : Bool
  /-- `SEQ` (R40; log entry 7). -/
  seq : Nat
  /-- Model's own: the event program of the current request from `SEQ` on (log entry 5). -/
  pending : List SeqOp
  /-- The OPEN parameters (70_reset_and_hazards.md R324); nothing writes them (log entry 1). -/
  params : Params
  /-- Model's own: the requests the host has presented and the block has not yet accepted, oldest first (log entry 4). -/
  requests : List Request
  /-- Model's own: the reset input, `some n` when it is asserted after `n` more units of progress (log entry 6). -/
  resetIn : Option Nat
  /-- Model's own: the levels the next `BusyRead()`s return; after them `Config.busyDraw` (log entry 3). -/
  busyIn : List Level
  /-- Model's own: how many levels were taken from `Config.busyDraw`. -/
  busyDraws : Nat
  /-- Model's own: the statuses the next `TransportInit()`s return; after them `Config.transportDraw` (log entry 3). -/
  transportIn : List Int
  /-- Model's own: how many statuses were taken from `Config.transportDraw`. -/
  transportDraws : Nat
  /-- Model's own: the output trace `T`, oldest event first (00_scope.md R14; log entry 8). -/
  trace : List Event
  /-- Model's own: the responses sent, oldest first (30_encoding.md R98; log entry 8). -/
  responses : List Response
deriving DecidableEq, Repr

/-- The machine's faults. The block has no traps: every failure the spec names is a status and a NEXT state. -/
inductive Fault where
  /-- Raised by fetching a frame from `pending` whose data bytes are not as many as its opcode takes
  (30_encoding.md R102 fixes the lengths). Safe: it stops, and no request puts such a frame there (log entry 9). -/
  | frameLength
deriving DecidableEq, Repr

/-- The machine's refusals. -/
inductive Refusal where
  /-- Raised by `exec` for an instruction that has no meaning yet. Safe: the model says nothing about it. -/
  | notModelled (mnemonic : String)
  /-- Raised by fetching a frame from `pending` whose opcode byte is reserved: "What the controller does with them is outside
  the block" (30_encoding.md R104). Safe: it stops, and no request puts such a frame there (log entry 9). -/
  | reservedOpcode
deriving DecidableEq, Repr

/-- The block right after reset (10_state.md R45). The OPEN parameters are the opaque `Config.params`; the model's own fields
are empty or 0 (log entries 2 to 8). -/
def State.reset : State where
  devState := .uninit
  mode := .full
  fb := []
  fbEpoch := 0
  pinRst := 1#1
  pinDc := 0#1
  pinCs := 1#1
  status := 0#8
  active := false
  seq := 0
  pending := []
  params := Config.params
  requests := []
  resetIn := none
  busyIn := []
  busyDraws := 0
  transportIn := []
  transportDraws := 0
  trace := []
  responses := []

end Sys2Proof.Machine
end

