-- ==== Sys2Proof/Machine/Flags.lean ====
section
/-! DEFINITION. The status codes and the register codes. The block has no flags and no condition codes: `STATUS` is the only
result a request reports besides its events and its data (10_state.md R41). -/

namespace Sys2Proof.Machine

/-- `OK`, 0 (30_encoding.md R100). -/
def Status.ok : Byte := 0x00#8

/-- `E_TRANSPORT`, -1 (R100, 60_exceptions.md R281). -/
def Status.eTransport : Byte := 0xFF#8

/-- `E_ENC`, -2 (R100, R282). -/
def Status.eEnc : Byte := 0xFE#8

/-- `E_STATE`, -3 (R100, R283). -/
def Status.eState : Byte := 0xFD#8

/-- `E_BOUNDS`, -4 (R100, R284). -/
def Status.eBounds : Byte := 0xFC#8

/-- `E_ARG`, -5 (R100, R285). -/
def Status.eArg : Byte := 0xFB#8

/-- The 2-bit code of `DEV_STATE` (10_state.md R32). -/
def DevState.code : DevState → BitVec 2
  | .uninit => 0#2
  | .ready => 1#2
  | .sleeping => 2#2

/-- The 2-bit code of `MODE` (10_state.md R34). -/
def Mode.code : Mode → BitVec 2
  | .full => 0#2
  | .fast => 1#2
  | .partialMode => 2#2
  | .gray4 => 3#2

end Sys2Proof.Machine
end

