-- ==== Sys2Proof/Machine/Operands.lean ====
section
/-! DEFINITION. What the operands of a request stand for: the place of a pixel in `FB`, the bits of a bitmap payload, the
bounds rule, the mode the flags select, the tiles of a `FILL`. -/

namespace Sys2Proof.Machine

/-- The index in `FB` of the byte that holds pixel `(px, py)` (20_memory.md R61, R63). -/
def pixelIndex (px py : Nat) : Nat := py * Config.bpr + px / 8

/-- The mask of pixel column `px` in its byte (R61, R63). -/
def pixelMask (px : Nat) : Byte := 0x80#8 >>> (px % 8)

/-- Bit `7 - (k mod 8)` of payload byte `P[k div 8]` (30_encoding.md R96). -/
def payloadBit (payload : List Byte) (k : Nat) : Bool := (payload.getD (k / 8) 0#8).getLsbD (7 - k % 8)

/-- `SRC(i, j)` of a payload that holds a bitmap of width `w` (30_encoding.md R96). -/
def payloadSrc (payload : List Byte) (w i j : Nat) : Bool := payloadBit payload (j * w + i)

/-- The bounds rule: the rectangle is inside the panel (40_framebuffer.md R131). -/
abbrev insidePanel (x y w h : Nat) : Prop := x + w ≤ Config.width ∧ y + h ≤ Config.height

/-- The byte `FbFill` writes for a colour bit: 1 is white, 0 is black (40_framebuffer.md R145). -/
def fillByte (color : Bool) : Byte := if color then 0xFF#8 else 0x00#8

/-- `ModeOf(fast, partial, gray)` (43_refresh_sequencer.md R221). -/
def modeOf (fast part gray : Bool) : Mode :=
  if part then .partialMode else if gray then .gray4 else if fast then .fast else .full

/-- `ActFull(MODE)`, the activation byte of `DisplayFull()` (43_refresh_sequencer.md R223). -/
def actFullOf : Mode → Byte
  | .full => Config.actFull
  | .fast => Config.actFast
  | .gray4 => Config.actGray
  | .partialMode => Config.actFull

/-- The tiles of `FILL` as (start row, height): `HEIGHT div t` full tiles, then the remainder if there is one
(43_refresh_sequencer.md R245). -/
def tiles (t : Nat) : List (Nat × Nat) :=
  (List.range (Config.height / t)).map (fun k => (k * t, t))
    ++ if Config.height % t = 0 then [] else [(Config.height / t * t, Config.height % t)]

end Sys2Proof.Machine
end

