-- ==== Sys2Proof/Machine/Ops.lean ====
section
/-! DEFINITION. The named operations over the state: events and pin latches, the inputs of the environment, the framebuffer,
and the beginning and the end of a request. Ending a request with a failure status is how this block "takes an exception"
(60_exceptions.md R280); there is no return from one (R289). -/

namespace Sys2Proof.Machine

/-! ### Events and pin latches -/

/-- The level of a pin after one event, from its level before (10_state.md R37). -/
def Event.latch (p : Pin) (l : Level) : Event → Level
  | .pinWrite q v => if q = p then v else l
  | .xfer _ => l
  | .delayMs _ => l
  | .busyRead _ => l
  | .transportInit _ => l

/-- The level of a pin after a list of events: that of its last `PinWrite` (10_state.md R37). -/
def latchAfter (p : Pin) (l : Level) (es : List Event) : Level := es.foldl (Event.latch p) l

/-- Appends events to the trace, in order; each advances `SEQ` by one and sets the latch it writes
(00_scope.md R14, 10_state.md R37, R40). -/
def State.emit (es : List Event) (s : State) : State :=
  { s with
    trace := s.trace ++ es
    seq := s.seq + es.length
    pinRst := latchAfter .rst s.pinRst es
    pinDc := latchAfter .dc s.pinDc es
    pinCs := latchAfter .cs s.pinCs es }

/-! ### The inputs: `BusyRead()` and `TransportInit()` (00_scope.md R14, 10_state.md R39; log entry 3) -/

/-- The level the next `BusyRead()` returns. -/
def State.nextBusy (s : State) : Level :=
  match s.busyIn with
  | [] => Config.busyDraw s.busyDraws
  | l :: _ => l

/-- That level is used up. -/
def State.popBusy (s : State) : State :=
  match s.busyIn with
  | [] => { s with busyDraws := s.busyDraws + 1 }
  | _ :: ls => { s with busyIn := ls }

/-- The next `BusyRead()` returns the busy level (42_reset_sequencer.md R203). -/
def State.busyNext (s : State) : Bool := s.nextBusy == s.params.busyLevel

/-- `BusyRead()`: the event, with the level the environment returns. -/
def State.busyRead (s : State) : State := s.popBusy.emit [.busyRead s.nextBusy]

/-- The status the next `TransportInit()` returns. -/
def State.nextTransport (s : State) : Int :=
  match s.transportIn with
  | [] => Config.transportDraw s.transportDraws
  | st :: _ => st

/-- That status is used up. -/
def State.popTransport (s : State) : State :=
  match s.transportIn with
  | [] => { s with transportDraws := s.transportDraws + 1 }
  | _ :: sts => { s with transportIn := sts }

/-- `TransportInit()`: the event, with the status the environment returns. -/
def State.transportInit (s : State) : State := s.popTransport.emit [.transportInit s.nextTransport]

/-! ### The framebuffer -/

/-- The byte written at an index, `none` where none has been written. -/
def Memory.read : Memory → Nat → Option Byte
  | [], _ => none
  | (a, b) :: m, k => if a = k then some b else Memory.read m k

/-- Writes one byte, keeping the indexes rising. -/
def Memory.write : Memory → Nat → Byte → Memory
  | [], k, v => [(k, v)]
  | (a, b) :: m, k, v =>
    if a < k then (a, b) :: Memory.write m k v else if a = k then (k, v) :: m else (k, v) :: (a, b) :: m

/-- `f k, f (k + 1), ...`, `n` values. -/
def tabulate {α : Type} (f : Nat → α) : Nat → Nat → List α
  | 0, _ => []
  | n + 1, k => f k :: tabulate f n (k + 1)

/-- Every byte of the framebuffer written with one value (40_framebuffer.md R145). -/
def Memory.filled (v : Byte) : Memory := tabulate (fun k => (k, v)) Config.fbBytes 0

/-- The canonical form: indexes strictly rising and inside `FB` (20_memory.md R60). -/
abbrev Memory.wf (m : Memory) : Prop :=
  (m.map Prod.fst).Pairwise (· < ·) ∧ ∀ c ∈ m, c.1 < Config.fbBytes

/-- `FB[k]`, `MemRead(k, 1)` (00_scope.md R13). A byte not written since the block reset reads as the draw that reset made
(10_state.md R45, 40_framebuffer.md R140; log entry 2). -/
def State.fbRead (s : State) (k : Nat) : Byte := (s.fb.read k).getD (Config.fbDraw s.fbEpoch k)

/-- `FB[k] <- v`, `MemWrite(k, 1, v)` (00_scope.md R13). -/
def State.fbWrite (s : State) (k : Nat) (v : Byte) : State := { s with fb := s.fb.write k v }

/-- `FB[0], ..., FB[FB_BYTES-1]`, lowest index first (20_memory.md R64, R67). -/
def State.fbBytes (s : State) : List Byte := tabulate s.fbRead Config.fbBytes 0

/-- `FbFill(v)` (40_framebuffer.md R145). -/
def State.fbFill (v : Byte) (s : State) : State := { s with fb := Memory.filled v }

/-- The value of pixel `(px, py)` (20_memory.md R61). -/
def State.pixel (s : State) (px py : Nat) : Bool := (s.fbRead (pixelIndex px py)).getLsbD (7 - px % 8)

/-- One step of `Merge`: sets or clears the bit of panel pixel `(px, py)` (40_framebuffer.md R132). -/
def State.putPixel (s : State) (px py : Nat) (c : Bool) : State :=
  if c then s.fbWrite (pixelIndex px py) (s.fbRead (pixelIndex px py) ||| pixelMask px)
  else s.fbWrite (pixelIndex px py) (s.fbRead (pixelIndex px py) &&& ~~~pixelMask px)

/-- The inner loop of `Merge`: row `j` of the source. -/
def State.mergeRow (x y w : Nat) (src : Nat → Nat → Bool) (s : State) (j : Nat) : State :=
  (List.range w).foldl (fun s i => s.putPixel (x + i) (y + j) (src i j)) s

/-- `Merge(x, y, w, h, SRC)` (40_framebuffer.md R132). -/
def State.mergeRect (x y w h : Nat) (src : Nat → Nat → Bool) (s : State) : State :=
  (List.range h).foldl (State.mergeRow x y w src) s

/-! ### The beginning and the end of a request -/

/-- The acceptance of a request: `ACTIVE <- 1`, `SEQ` at the first event (30_encoding.md R90, 10_state.md R40). -/
def State.accept (s : State) : State := { s with active := true, seq := 0 }

/-- The end of a request: `STATUS` is written, the response is sent, `ACTIVE <- 0` (30_encoding.md R90, R98). -/
def State.respond (st : Byte) (data : List Byte) (s : State) : State :=
  { s with status := st, responses := s.responses ++ [⟨st, data⟩], active := false, seq := 0, pending := [] }

/-- `raise E_X`: the request ends at once with that status (00_scope.md R15, 60_exceptions.md R280, R288). -/
def State.raise (st : Byte) (s : State) : State := s.respond st []

/-- The state rule of the bus requests other than `INIT` and `INIT_FAST`: served in `READY`, `E_STATE` otherwise
(43_refresh_sequencer.md R220). -/
def State.whenReady (serve : State → State) (s : State) : State :=
  if s.devState = .ready then serve s else s.raise Status.eState

end Sys2Proof.Machine
end

