-- ==== Sys2Proof/Machine/BlockReset.lean ====
section
/-! DEFINITION. The block reset (70_reset_and_hazards.md R320) and the reset input, which can be asserted "at any time, including
during a request". -/

namespace Sys2Proof.Machine

/-- The block reset: every piece of the spec's state takes its value of 10_state.md R45, the request in progress is abandoned
without a response, no event is appended (70_reset_and_hazards.md R320). `FB` is drawn anew. The OPEN parameters, the host's
waiting requests, the environment's inputs and the outputs so far stay (log entries 1, 6, 8). -/
def State.blockReset (s : State) : State :=
  { s with
    devState := .uninit
    mode := .full
    fb := []
    fbEpoch := s.fbEpoch + 1
    pinRst := 1#1
    pinDc := 0#1
    pinCs := 1#1
    status := 0#8
    active := false
    seq := 0
    pending := []
    resetIn := none }

/-- Whether an event is a `BusyRead`. -/
def Event.isBusyRead : Event → Bool
  | .busyRead _ => true
  | .pinWrite _ _ => false
  | .xfer _ => false
  | .delayMs _ => false
  | .transportInit _ => false

/-- Whether an event is a `TransportInit`. -/
def Event.isTransportInit : Event → Bool
  | .transportInit _ => true
  | .pinWrite _ _ => false
  | .xfer _ => false
  | .delayMs _ => false
  | .busyRead _ => false

/-- `n` levels of `BUSY` are used up. -/
def State.popBusyN : Nat → State → State
  | 0, s => s
  | n + 1, s => State.popBusyN n s.popBusy

/-- `n` transport statuses are used up. -/
def State.popTransportN : Nat → State → State
  | 0, s => s
  | n + 1, s => State.popTransportN n s.popTransport

/-- How many requests were accepted between two states. -/
def acceptedBetween (s t : State) : Nat := s.requests.length - t.requests.length

/-- The events appended between two states. -/
def eventsBetween (s t : State) : List Event := t.trace.drop s.trace.length

/-- The progress between two states, in the units the reset input counts: accepted requests, events, responses (log entry 6). -/
def progressBetween (s t : State) : Nat :=
  acceptedBetween s t + (eventsBetween s t).length + (t.responses.length - s.responses.length)

/-- The block reset after the first `n` units of the progress from `s` to `t`: the events up to there are in the trace, their
inputs are used up, and the request is abandoned. -/
def State.cutByReset (s t : State) (n : Nat) : State :=
  let kept := (eventsBetween s t).take (n - acceptedBetween s t)
  let u := State.popTransportN (kept.countP Event.isTransportInit) (State.popBusyN (kept.countP Event.isBusyRead) s)
  { u with requests := t.requests, trace := s.trace ++ kept }.blockReset

/-- What the reset input makes of the progress from `s` to `t`: nothing while it is not asserted; a block reset inside that
progress, or after it (then it stays to come). -/
def State.withResetInput (s t : State) : State :=
  match s.resetIn with
  | none => t
  | some n =>
    if n < progressBetween s t then s.cutByReset t n else { t with resetIn := some (n - progressBetween s t) }

end Sys2Proof.Machine
end

