-- ==== Sys2Proof/WellFormed.lean ====
section
/-! DEFINITION. When an instruction is one the encodings can carry: the length of a bitmap payload (30_encoding.md R95, R96)
and of a RAM-plane frame (R102). Every other operand fits its field by its type. -/

namespace Sys2Proof

/-- The payload length of a `w` by `h` bitmap, `ceil(w*h/8)` (30_encoding.md R96). -/
def bitmapBytes (w h : Coord) : Nat := (w.toNat * h.toNat + 7) / 8

/-- The checks on an instruction's operands. -/
def Instr.wellFormed : Instr → Bool
  | .init _ _ => true
  | .initFast _ _ => true
  | .clear => true
  | .displayFull => true
  | .displayPartial => true
  | .draw _ _ w h payload => hasLength payload (bitmapBytes w h)
  | .fill _ _ => true
  | .sleep => true
  | .merge _ _ w h payload => hasLength payload (bitmapBytes w h)
  | .toBitmap => true
  | .fbFill _ => true
  | .ctrlSwReset => true
  | .ctrlUpdateCtrl1 _ _ => true
  | .ctrlBorderWaveform _ => true
  | .ctrlDataEntry _ => true
  | .ctrlRamXWindow _ _ => true
  | .ctrlRamYWindow _ _ => true
  | .ctrlRamXCounter _ => true
  | .ctrlRamYCounter _ => true
  | .ctrlWriteRamPrimary plane => hasLength plane Config.fbBytes
  | .ctrlWriteRamSecondary plane => hasLength plane Config.fbBytes
  | .ctrlUpdateCtrl2 _ => true
  | .ctrlMasterActivate => true
  | .ctrlLoadTemperature _ => true
  | .ctrlDeepSleep _ => true

end Sys2Proof
end

