-- ==== Sys2Proof/Decode.lean ====
section
/-! DEFINITION. The decoder of both encodings, total on every word and byte list and rejecting by name, and after it the
encoder, written from the same tables (30_encoding.md R91 to R96, R101, R102). -/

namespace Sys2Proof

/-- Why no instruction is encoded. The first four end a request with `E_ENC` (30_encoding.md R95); the last two are about
controller frames (R102, R104), which no host presents. -/
inductive DecodeError where
  /-- `OP` is 0x0 or 0xC to 0xF (R92, R95). -/
  | reservedOp
  /-- `RSV0` or `RSV1` is not zero (R94, R95). -/
  | reservedBits
  /-- A field the `OP` does not use is not zero (R94, R95). -/
  | unusedField
  /-- The payload has not the length the word requires (R95, R99). -/
  | payloadLength
  /-- An opcode byte outside the fourteen of R102 (R104). -/
  | reservedOpcode
  /-- The data bytes of a frame are not as many as its opcode takes (R102). -/
  | dataLength
deriving DecidableEq, Repr

/-! ### The request word (30_encoding.md R91) -/

/-- `OP`, bits 3 to 0. -/
def ReqWord.op (w : ReqWord) : BitVec 4 := w.extractLsb' 0 4

/-- `F0`, bit 4. -/
def ReqWord.f0 (w : ReqWord) : Bool := w.getLsbD 4

/-- `F1`, bit 5. -/
def ReqWord.f1 (w : ReqWord) : Bool := w.getLsbD 5

/-- `RSV0`, bits 7 and 6. -/
def ReqWord.rsv0 (w : ReqWord) : BitVec 2 := w.extractLsb' 6 2

/-- `X`, bits 19 to 8. -/
def ReqWord.fieldX (w : ReqWord) : Coord := w.extractLsb' 8 12

/-- `Y`, bits 31 to 20. -/
def ReqWord.fieldY (w : ReqWord) : Coord := w.extractLsb' 20 12

/-- `W`, bits 43 to 32. -/
def ReqWord.fieldW (w : ReqWord) : Coord := w.extractLsb' 32 12

/-- `H`, bits 55 to 44. -/
def ReqWord.fieldH (w : ReqWord) : Coord := w.extractLsb' 44 12

/-- `RSV1`, bits 63 to 56. -/
def ReqWord.rsv1 (w : ReqWord) : BitVec 8 := w.extractLsb' 56 8

/-- The instruction an `OP` selects, with its operands taken from the fields and the payload (R92, R93). -/
def operation (w : ReqWord) (payload : List Byte) : Option Instr :=
  match (ReqWord.op w).toNat with
  | 1 => some (.init (ReqWord.f0 w) (ReqWord.f1 w))
  | 2 => some (.initFast (ReqWord.f0 w) (ReqWord.f1 w))
  | 3 => some .clear
  | 4 => some .displayFull
  | 5 => some .displayPartial
  | 6 => some (.draw (ReqWord.fieldX w) (ReqWord.fieldY w) (ReqWord.fieldW w) (ReqWord.fieldH w) payload)
  | 7 => some (.fill (ReqWord.f0 w) (ReqWord.fieldH w))
  | 8 => some .sleep
  | 9 => some (.merge (ReqWord.fieldX w) (ReqWord.fieldY w) (ReqWord.fieldW w) (ReqWord.fieldH w) payload)
  | 10 => some .toBitmap
  | 11 => some (.fbFill (ReqWord.f0 w))
  | _ => none

/-- Which fields an operation uses (the column "fields used" of R92). `X`, `Y` and `W` are used together. -/
structure FieldUse where
  f0 : Bool
  f1 : Bool
  xyw : Bool
  h : Bool
deriving DecidableEq, Repr

/-- The column "fields used" of R92, by `OP`. -/
def fieldsUsed (op : Nat) : FieldUse :=
  match op with
  | 1 => ⟨true, true, false, false⟩
  | 2 => ⟨true, true, false, false⟩
  | 6 => ⟨false, false, true, true⟩
  | 7 => ⟨true, false, false, true⟩
  | 9 => ⟨false, false, true, true⟩
  | 11 => ⟨true, false, false, false⟩
  | _ => ⟨false, false, false, false⟩

/-- Every field the operation does not use is zero (R94). -/
def unusedFieldsZero (w : ReqWord) : Bool :=
  let u := fieldsUsed (ReqWord.op w).toNat
  (u.f0 || !ReqWord.f0 w) && (u.f1 || !ReqWord.f1 w)
    && (u.xyw || (ReqWord.fieldX w == 0 && ReqWord.fieldY w == 0 && ReqWord.fieldW w == 0))
    && (u.h || ReqWord.fieldH w == 0)

/-- The payload length a request word requires (R95, R99): `ceil(W*H/8)` for `DRAW` and `MERGE`, else 0. -/
def payloadLength (w : ReqWord) : Nat :=
  match (ReqWord.op w).toNat with
  | 6 => bitmapBytes (ReqWord.fieldW w) (ReqWord.fieldH w)
  | 9 => bitmapBytes (ReqWord.fieldW w) (ReqWord.fieldH w)
  | _ => 0

/-- The decoder of requests, its checks in the order of R95. -/
def decodeRequest (r : Request) : Except DecodeError Instr :=
  match operation r.word r.payload with
  | none => .error .reservedOp
  | some i =>
    if ReqWord.rsv0 r.word ≠ 0 ∨ ReqWord.rsv1 r.word ≠ 0 then .error .reservedBits
    else if unusedFieldsZero r.word = false then .error .unusedField
    else if hasLength r.payload (payloadLength r.word) = false then .error .payloadLength
    else .ok i

/-! ### The controller frames (30_encoding.md R101, R102) -/

/-- The number of data bytes each opcode takes (the table of R102); `none` for a reserved opcode (R104). -/
def dataLength (op : Byte) : Option Nat :=
  match op.toNat with
  | 0x12 => some 0
  | 0x21 => some 2
  | 0x3C => some 1
  | 0x11 => some 1
  | 0x44 => some 2
  | 0x45 => some 4
  | 0x4E => some 1
  | 0x4F => some 2
  | 0x24 => some Config.fbBytes
  | 0x26 => some Config.fbBytes
  | 0x22 => some 1
  | 0x20 => some 0
  | 0x1A => some 1
  | 0x10 => some 1
  | _ => none

/-- The data byte at place `n` of a frame (its length is checked before). -/
def dataByte (data : List Byte) (n : Nat) : Byte := data.getD n 0

/-- A 16-bit value from its high and its low byte. -/
def wordOf (high low : Byte) : BitVec 16 := high.setWidth 16 <<< 8 ||| low.setWidth 16

/-- The 16-bit value at places `n` and `n + 1` of a frame, low byte first (20_memory.md R67). -/
def dataWord (data : List Byte) (n : Nat) : BitVec 16 := wordOf (dataByte data (n + 1)) (dataByte data n)

/-- The controller command an opcode byte selects (R102), with its operands taken from the data bytes. -/
def command (op : Byte) (data : List Byte) : Option Instr :=
  match op.toNat with
  | 0x12 => some .ctrlSwReset
  | 0x21 => some (.ctrlUpdateCtrl1 (dataByte data 0) (dataByte data 1))
  | 0x3C => some (.ctrlBorderWaveform (dataByte data 0))
  | 0x11 => some (.ctrlDataEntry (dataByte data 0))
  | 0x44 => some (.ctrlRamXWindow (dataByte data 0) (dataByte data 1))
  | 0x45 => some (.ctrlRamYWindow (dataWord data 0) (dataWord data 2))
  | 0x4E => some (.ctrlRamXCounter (dataByte data 0))
  | 0x4F => some (.ctrlRamYCounter (dataWord data 0))
  | 0x24 => some (.ctrlWriteRamPrimary data)
  | 0x26 => some (.ctrlWriteRamSecondary data)
  | 0x22 => some (.ctrlUpdateCtrl2 (dataByte data 0))
  | 0x20 => some .ctrlMasterActivate
  | 0x1A => some (.ctrlLoadTemperature (dataByte data 0))
  | 0x10 => some (.ctrlDeepSleep (dataByte data 0))
  | _ => none

/-- The decoder of controller frames. -/
def decodeFrame (op : Byte) (data : List Byte) : Except DecodeError Instr :=
  match command op data with
  | none => .error .reservedOpcode
  | some i => if hasLength data ((dataLength op).getD 0) = true then .ok i else .error .dataLength

/-- The decoder of both encodings. -/
def decode : Code → Except DecodeError Instr
  | .request r => decodeRequest r
  | .frame op data => decodeFrame op data

/-! ### The encoder -/

/-- A request word from its fields: `OP | F0<<4 | F1<<5 | X<<8 | Y<<20 | W<<32 | H<<44`, reserved bits zero (R91, R94). -/
def requestWord (op : BitVec 4) (f0 f1 : Bool) (x y w h : Coord) : ReqWord :=
  op.setWidth 64 ||| (BitVec.ofBool f0).setWidth 64 <<< 4 ||| (BitVec.ofBool f1).setWidth 64 <<< 5
    ||| x.setWidth 64 <<< 8 ||| y.setWidth 64 <<< 20 ||| w.setWidth 64 <<< 32 ||| h.setWidth 64 <<< 44

/-- The low byte of a 16-bit value. -/
def lowByte (v : BitVec 16) : Byte := v.extractLsb' 0 8

/-- The high byte of a 16-bit value. -/
def highByte (v : BitVec 16) : Byte := v.extractLsb' 8 8

/-- The encoder: the words of an instruction (R92, R102). -/
def encode : Instr → Code
  | .init p g => .request ⟨requestWord 0x1 p g 0 0 0 0, []⟩
  | .initFast p g => .request ⟨requestWord 0x2 p g 0 0 0 0, []⟩
  | .clear => .request ⟨requestWord 0x3 false false 0 0 0 0, []⟩
  | .displayFull => .request ⟨requestWord 0x4 false false 0 0 0 0, []⟩
  | .displayPartial => .request ⟨requestWord 0x5 false false 0 0 0 0, []⟩
  | .draw x y w h payload => .request ⟨requestWord 0x6 false false x y w h, payload⟩
  | .fill c t => .request ⟨requestWord 0x7 c false 0 0 0 t, []⟩
  | .sleep => .request ⟨requestWord 0x8 false false 0 0 0 0, []⟩
  | .merge x y w h payload => .request ⟨requestWord 0x9 false false x y w h, payload⟩
  | .toBitmap => .request ⟨requestWord 0xA false false 0 0 0 0, []⟩
  | .fbFill c => .request ⟨requestWord 0xB c false 0 0 0 0, []⟩
  | .ctrlSwReset => .frame 0x12 []
  | .ctrlUpdateCtrl1 d0 d1 => .frame 0x21 [d0, d1]
  | .ctrlBorderWaveform d => .frame 0x3C [d]
  | .ctrlDataEntry d => .frame 0x11 [d]
  | .ctrlRamXWindow xs xe => .frame 0x44 [xs, xe]
  | .ctrlRamYWindow ys ye => .frame 0x45 [lowByte ys, highByte ys, lowByte ye, highByte ye]
  | .ctrlRamXCounter x => .frame 0x4E [x]
  | .ctrlRamYCounter y => .frame 0x4F [lowByte y, highByte y]
  | .ctrlWriteRamPrimary plane => .frame 0x24 plane
  | .ctrlWriteRamSecondary plane => .frame 0x26 plane
  | .ctrlUpdateCtrl2 a => .frame 0x22 [a]
  | .ctrlMasterActivate => .frame 0x20 []
  | .ctrlLoadTemperature d => .frame 0x1A [d]
  | .ctrlDeepSleep d => .frame 0x10 [d]

/-! ### The words of spec/opcode_table.json -/

/-- The encoded form whose table bits are `w`: an 8-bit row is an opcode byte followed by data bytes of zeros, as many as the
opcode takes; a 64-bit row is a request word followed by a payload of zeros, as long as the word requires. -/
def tableCode (nbits w : Nat) : Code :=
  if nbits ≤ 8 then
    .frame (BitVec.ofNat 8 w) (List.replicate ((dataLength (BitVec.ofNat 8 w)).getD 0) 0#8)
  else
    .request ⟨BitVec.ofNat 64 w, List.replicate (payloadLength (BitVec.ofNat 64 w)) 0#8⟩

/-- The instruction the decoder reads from an instruction whose table bits are `w`. -/
def decodeTableWord (nbits w : Nat) : Option Instr :=
  match decode (tableCode nbits w) with
  | .ok i => some i
  | .error _ => none

end Sys2Proof
end

