-- ==== Sys2Proof/Machine/Encoder.lean ====
section
/-! DEFINITION. The CommandProtocol unit: `SendCommand`, `SendData`, `WriteReg` (41_command_encoder.md R161, R162, R165) and the
meanings of the fourteen controller commands (R170 to R183). -/

namespace Sys2Proof.Machine

/-- `SendCommand(op)` (41_command_encoder.md R161). -/
def sendCommand (op : Byte) : List Event :=
  [.pinWrite .dc Config.dcCmd, .pinWrite .cs Config.csAssert, .xfer op, .pinWrite .cs Config.csDeassert]

/-- `SendData(bs)` (R162). -/
def sendData (bs : List Byte) : List Event :=
  [.pinWrite .dc Config.dcData, .pinWrite .cs Config.csAssert] ++ bs.map .xfer ++ [.pinWrite .cs Config.csDeassert]

/-- The events of `WriteReg(op, bs)` (R165). -/
def writeRegEvents (op : Byte) (bs : List Byte) : List Event :=
  sendCommand op ++ if bs = [] then [] else sendData bs

/-- `WriteReg(op, bs)` (R165). -/
def State.writeReg (op : Byte) (bs : List Byte) (s : State) : State := s.emit (writeRegEvents op bs)

/-- Opcode 0x12, software reset (R170). -/
def execCtrlSwReset (s : State) : Host.Outcome State Fault Refusal := .next (s.writeReg 0x12#8 [])

/-- Opcode 0x21, display update control (R171). -/
def execCtrlUpdateCtrl1 (d0 d1 : Byte) (s : State) : Host.Outcome State Fault Refusal :=
  .next (s.writeReg 0x21#8 [d0, d1])

/-- Opcode 0x3C, border waveform (R172). -/
def execCtrlBorderWaveform (d : Byte) (s : State) : Host.Outcome State Fault Refusal := .next (s.writeReg 0x3C#8 [d])

/-- Opcode 0x11, data entry mode (R173). -/
def execCtrlDataEntry (d : Byte) (s : State) : Host.Outcome State Fault Refusal := .next (s.writeReg 0x11#8 [d])

/-- Opcode 0x44, set RAM X address window (R174). -/
def execCtrlRamXWindow (xs xe : Byte) (s : State) : Host.Outcome State Fault Refusal :=
  .next (s.writeReg 0x44#8 [xs, xe])

/-- Opcode 0x45, set RAM Y address window, each row low byte first (R175). -/
def execCtrlRamYWindow (ys ye : BitVec 16) (s : State) : Host.Outcome State Fault Refusal :=
  .next (s.writeReg 0x45#8 [lowByte ys, highByte ys, lowByte ye, highByte ye])

/-- Opcode 0x4E, set RAM X address counter (R176). -/
def execCtrlRamXCounter (x : Byte) (s : State) : Host.Outcome State Fault Refusal := .next (s.writeReg 0x4E#8 [x])

/-- Opcode 0x4F, set RAM Y address counter, low byte first (R177, 20_memory.md R67). -/
def execCtrlRamYCounter (y : BitVec 16) (s : State) : Host.Outcome State Fault Refusal :=
  .next (s.writeReg 0x4F#8 [lowByte y, highByte y])

/-- Opcode 0x24, write primary RAM plane (R178). -/
def execCtrlWriteRamPrimary (plane : List Byte) (s : State) : Host.Outcome State Fault Refusal :=
  .next (s.writeReg 0x24#8 plane)

/-- Opcode 0x26, write secondary RAM plane (R179). -/
def execCtrlWriteRamSecondary (plane : List Byte) (s : State) : Host.Outcome State Fault Refusal :=
  .next (s.writeReg 0x26#8 plane)

/-- Opcode 0x22, display update control 2 (R180). -/
def execCtrlUpdateCtrl2 (a : Byte) (s : State) : Host.Outcome State Fault Refusal := .next (s.writeReg 0x22#8 [a])

/-- Opcode 0x20, activate display update sequence (R181). -/
def execCtrlMasterActivate (s : State) : Host.Outcome State Fault Refusal := .next (s.writeReg 0x20#8 [])

/-- Opcode 0x1A, load temperature register (R182). -/
def execCtrlLoadTemperature (d : Byte) (s : State) : Host.Outcome State Fault Refusal := .next (s.writeReg 0x1A#8 [d])

/-- Opcode 0x10, deep sleep (R183). -/
def execCtrlDeepSleep (d : Byte) (s : State) : Host.Outcome State Fault Refusal := .next (s.writeReg 0x10#8 [d])

end Sys2Proof.Machine
end

