-- ==== Sys2Proof/Machine/Framebuffer.lean ====
section
/-! DEFINITION. The meanings of the FrameBuffer unit's requests `MERGE`, `TO_BITMAP`, `FB_FILL` (40_framebuffer.md). They are
accepted in every `DEV_STATE` and append no event (R130). -/

namespace Sys2Proof.Machine

/-- `MERGE` (40_framebuffer.md R133). -/
def execMerge (x y w h : Coord) (payload : List Byte) (s : State) : Host.Outcome State Fault Refusal :=
  let a := s.accept
  .next
    (if insidePanel x.toNat y.toNat w.toNat h.toNat then
      (a.mergeRect x.toNat y.toNat w.toNat h.toNat (payloadSrc payload w.toNat)).respond Status.ok []
    else a.raise Status.eBounds)

/-- `TO_BITMAP` (R140). -/
def execToBitmap (s : State) : Host.Outcome State Fault Refusal :=
  let a := s.accept
  .next (a.respond Status.ok a.fbBytes)

/-- `FB_FILL` (R145). -/
def execFbFill (color : Bool) (s : State) : Host.Outcome State Fault Refusal :=
  .next ((s.accept.fbFill (fillByte color)).respond Status.ok [])

end Sys2Proof.Machine
end

