-- ==== Sys2Proof/Machine/ResetSequencer.lean ====
section
/-! DEFINITION. The ResetSequencer unit: the reset pulse and the busy-wait gate (42_reset_sequencer.md). -/

namespace Sys2Proof.Machine

/-- The events of `ResetPulse()` (42_reset_sequencer.md R200). -/
def resetPulseEvents : List Event :=
  [.pinWrite .rst 1#1, .delayMs Config.rstT1Ms, .pinWrite .rst 0#1, .delayMs Config.rstT2Ms,
    .pinWrite .rst 1#1, .delayMs Config.rstT3Ms]

/-- `ResetPulse()` (R200). -/
def State.resetPulse (s : State) : State := s.emit resetPulseEvents

/-- The delay of `WaitIdle()`'s loop after a busy level was read (R203). It is the one backward step of `SEQ`, back to the
`BusyRead()` it repeats (10_state.md R40; log entry 7). -/
def State.waitDelay (s : State) : State := { s.emit [.delayMs Config.pollMs] with seq := s.seq - 1 }

/-- One `BusyRead()` of `WaitIdle()` (R203): on a busy level the loop goes on, with the rest of the program waiting behind it;
on the other level `WaitIdle()` returns. -/
def State.waitStep (rest : List SeqOp) (s : State) : State :=
  if s.busyNext then { s.busyRead with pending := .repoll :: rest } else { s.busyRead with pending := rest }

end Sys2Proof.Machine
end

