-- ==== Sys2Proof/Machine/Sequencer.lean ====
section
/-! DEFINITION. The RefreshController's event programs (43_refresh_sequencer.md R221 to R232, R245, R250) and how the sequencer
runs one. -/

namespace Sys2Proof.Machine

/-! ### The programs -/

/-- `TURN_ON(a)` (43_refresh_sequencer.md R222). -/
def turnOn (a : Byte) : List SeqOp := [.frame 0x22#8 [a], .frame 0x20#8 [], .poll]

/-- `SET_WINDOW_FULL` (R224). -/
def setWindowFull : List SeqOp :=
  [.frame 0x44#8 [0x00#8, BitVec.ofNat 8 (Config.bpr - 1)],
    .frame 0x45#8 [0x00#8, 0x00#8, lowByte (BitVec.ofNat 16 (Config.height - 1)),
      highByte (BitVec.ofNat 16 (Config.height - 1))]]

/-- `SET_CURSOR_ORIGIN` (R224). -/
def setCursorOrigin : List SeqOp := [.frame 0x4E#8 [0x00#8], .frame 0x4F#8 [0x00#8, 0x00#8]]

/-- `Clear()` (R225). -/
def clearProgram : List SeqOp := [.fbFill 0xFF#8, .plane 0x24#8, .plane 0x26#8] ++ turnOn Config.actFull

/-- `DisplayFull()` (R226). -/
def displayFullProgram (m : Mode) : List SeqOp := [.plane 0x24#8, .plane 0x26#8] ++ turnOn (actFullOf m)

/-- `DisplayPartial()` (R227). -/
def displayPartialProgram (p : Params) : List SeqOp :=
  [.frame 0x3C#8 [p.borderPartial], .frame 0x21#8 [p.upd1Partial.1, p.upd1Partial.2]]
    ++ setWindowFull ++ setCursorOrigin ++ [.plane 0x24#8] ++ turnOn Config.actPartial

/-- The refresh of `DRAW` and of a `FILL` tile: `DisplayPartial()` iff `MODE = PARTIAL` (R241). -/
def refreshProgram (m : Mode) (p : Params) : List SeqOp :=
  if m = .partialMode then displayPartialProgram p else displayFullProgram m

/-- `FILL c, t` after its checks (R245). -/
def fillProgram (c : Bool) (t : Nat) (m : Mode) (p : Params) : List SeqOp :=
  (tiles t).flatMap (fun tile => .mergeSolid tile.1 tile.2 c :: refreshProgram m p)

/-- The fast variant's temperature load and update-activate cycle (R231, R232). -/
def fastLoadProgram (p : Params) : List SeqOp := .frame 0x1A#8 [p.tempFast] :: turnOn p.ctrl2FastLoad

/-- `InitSequence(fast, partial, gray)` after a `TransportInit()` that returned 0 (R232). -/
def initProgram (fast part gray : Bool) (p : Params) : List SeqOp :=
  [.resetPulse, .poll, .frame 0x12#8 [], .frame 0x21#8 [p.upd1Init.1, p.upd1Init.2], .frame 0x3C#8 [p.borderInit]]
    ++ (if fast then fastLoadProgram p else [])
    ++ [.frame 0x11#8 [Config.dataEntry]] ++ setWindowFull ++ setCursorOrigin ++ [.poll] ++ clearProgram
    ++ [.setMode (modeOf fast part gray), .setDevState .ready]

/-- `SLEEP` after its check (R250). -/
def sleepProgram (p : Params) : List SeqOp := [.frame 0x10#8 [p.sleepData], .setDevState .sleeping]

/-! ### Running a program -/

/-- The effect of one operation. The two of `WaitIdle()` are `State.waitStep`'s, which decides whether the program goes on;
here they are their events alone. -/
def SeqOp.effect : SeqOp → State → State
  | .frame op bs, s => s.writeReg op bs
  | .plane op, s => s.writeReg op s.fbBytes
  | .resetPulse, s => s.resetPulse
  | .poll, s => s.busyRead
  | .repoll, s => s.waitDelay.busyRead
  | .fbFill v, s => s.fbFill v
  | .mergeSolid y h c, s => s.mergeRect 0 y Config.width h (fun _ _ => c)
  | .setMode m, s => { s with mode := m }
  | .setDevState d, s => { s with devState := d }

/-- Runs a program to its end, `respond(OK)`, or to the first busy level a `WaitIdle()` reads: "there is no suspension point
other than the explicit timed polls in `waitIdle` and the fixed delays in `reset`" (42_reset_sequencer.md R206; log entry 5).
At such a level the rest of the program stays in `pending`, and `ACTIVE` stays 1. -/
def drain : List SeqOp → State → State
  | [], s => s.respond Status.ok []
  | .poll :: rest, s => if s.busyNext then s.waitStep rest else drain rest s.busyRead
  | .repoll :: rest, s =>
    if s.waitDelay.busyNext then s.waitDelay.waitStep rest else drain rest s.waitDelay.busyRead
  | op :: rest, s => drain rest (op.effect s)

end Sys2Proof.Machine
end

