-- ==== Sys2Proof/Machine/Refresh.lean ====
section
/-! DEFINITION. The meanings of the RefreshController's requests (43_refresh_sequencer.md). Each makes its checks in the order of
60_exceptions.md R287, then runs its event program. -/

namespace Sys2Proof.Machine

/-- `InitSequence(fast, partial, gray)` (43_refresh_sequencer.md R232): a transport status other than 0 leaves `UNINIT` and
ends the request with `E_TRANSPORT` (R233). -/
def initSequence (fast part gray : Bool) (s : State) : State :=
  if s.nextTransport = 0 then drain (initProgram fast part gray s.params) s.transportInit
  else { s.transportInit with devState := .uninit }.raise Status.eTransport

/-- `INIT` and `INIT_FAST`: refused in `SLEEPING` (R230, R231). -/
def initRequest (fast part gray : Bool) (s : State) : State :=
  if s.devState = .sleeping then s.raise Status.eState else initSequence fast part gray s

/-- `INIT` (R230). -/
def execInit (part gray : Bool) (s : State) : Host.Outcome State Fault Refusal :=
  .next (initRequest false part gray s.accept)

/-- `INIT_FAST` (R231). -/
def execInitFast (part gray : Bool) (s : State) : Host.Outcome State Fault Refusal :=
  .next (initRequest true part gray s.accept)

/-- `CLEAR` (R225). -/
def execClear (s : State) : Host.Outcome State Fault Refusal := .next (s.accept.whenReady (drain clearProgram))

/-- `DISPLAY_FULL` (R226). -/
def execDisplayFull (s : State) : Host.Outcome State Fault Refusal :=
  .next (s.accept.whenReady (drain (displayFullProgram s.mode)))

/-- `DISPLAY_PARTIAL` (R227). -/
def execDisplayPartial (s : State) : Host.Outcome State Fault Refusal :=
  .next (s.accept.whenReady (drain (displayPartialProgram s.params)))

/-- `DRAW` (R240). -/
def execDraw (x y w h : Coord) (payload : List Byte) (s : State) : Host.Outcome State Fault Refusal :=
  .next (s.accept.whenReady fun a =>
    if insidePanel x.toNat y.toNat w.toNat h.toNat then
      drain (refreshProgram a.mode a.params)
        (a.mergeRect x.toNat y.toNat w.toNat h.toNat (payloadSrc payload w.toNat))
    else a.raise Status.eBounds)

/-- `FILL` (R245). -/
def execFill (color : Bool) (tileHeight : Coord) (s : State) : Host.Outcome State Fault Refusal :=
  .next (s.accept.whenReady fun a =>
    if tileHeight.toNat = 0 then a.raise Status.eArg
    else drain (fillProgram color tileHeight.toNat a.mode a.params) a)

/-- `SLEEP` (R250). -/
def execSleep (s : State) : Host.Outcome State Fault Refusal :=
  .next (s.accept.whenReady (drain (sleepProgram s.params)))

end Sys2Proof.Machine
end

