-- ==== Sys2Proof/Machine/Dispatch.lean ====
section
/-! DEFINITION. One arm per constructor of `Instr`, each one call of that instruction's meaning. -/

namespace Sys2Proof.Machine

def exec (i : Instr) (s : State) : Host.Outcome State Fault Refusal :=
  match i with
  -- the RefreshController's requests (43_refresh_sequencer.md)
  | .init part gray => Sys2Proof.Machine.execInit part gray s
  | .initFast part gray => Sys2Proof.Machine.execInitFast part gray s
  | .clear => Sys2Proof.Machine.execClear s
  | .displayFull => Sys2Proof.Machine.execDisplayFull s
  | .displayPartial => Sys2Proof.Machine.execDisplayPartial s
  | .draw x y w h payload => Sys2Proof.Machine.execDraw x y w h payload s
  | .fill color tileHeight => Sys2Proof.Machine.execFill color tileHeight s
  | .sleep => Sys2Proof.Machine.execSleep s
  -- the FrameBuffer's requests (40_framebuffer.md)
  | .merge x y w h payload => Sys2Proof.Machine.execMerge x y w h payload s
  | .toBitmap => Sys2Proof.Machine.execToBitmap s
  | .fbFill color => Sys2Proof.Machine.execFbFill color s
  -- the controller commands (41_command_encoder.md)
  | .ctrlSwReset => Sys2Proof.Machine.execCtrlSwReset s
  | .ctrlUpdateCtrl1 d0 d1 => Sys2Proof.Machine.execCtrlUpdateCtrl1 d0 d1 s
  | .ctrlBorderWaveform d => Sys2Proof.Machine.execCtrlBorderWaveform d s
  | .ctrlDataEntry d => Sys2Proof.Machine.execCtrlDataEntry d s
  | .ctrlRamXWindow xs xe => Sys2Proof.Machine.execCtrlRamXWindow xs xe s
  | .ctrlRamYWindow ys ye => Sys2Proof.Machine.execCtrlRamYWindow ys ye s
  | .ctrlRamXCounter x => Sys2Proof.Machine.execCtrlRamXCounter x s
  | .ctrlRamYCounter y => Sys2Proof.Machine.execCtrlRamYCounter y s
  | .ctrlWriteRamPrimary plane => Sys2Proof.Machine.execCtrlWriteRamPrimary plane s
  | .ctrlWriteRamSecondary plane => Sys2Proof.Machine.execCtrlWriteRamSecondary plane s
  | .ctrlUpdateCtrl2 a => Sys2Proof.Machine.execCtrlUpdateCtrl2 a s
  | .ctrlMasterActivate => Sys2Proof.Machine.execCtrlMasterActivate s
  | .ctrlLoadTemperature d => Sys2Proof.Machine.execCtrlLoadTemperature d s
  | .ctrlDeepSleep d => Sys2Proof.Machine.execCtrlDeepSleep d s

end Sys2Proof.Machine
end

