-- ==== Sys2Proof/Machine/Fetch.lean ====
section
/-! DEFINITION. What the block does next: an idle block accepts the oldest presented request (30_encoding.md R90); an active one
goes on with the event program of the current request (10_state.md R40). -/

namespace Sys2Proof.Machine

/-- The command encoder takes one frame: it is decoded and executed (30_encoding.md R101, R102). -/
def State.runFrame (op : Byte) (data : List Byte) (s : State) : Host.Outcome State Fault Refusal :=
  match decode (.frame op data) with
  | .ok i => exec i s
  | .error .reservedOpcode => .refused .reservedOpcode
  | .error _ => .fault .frameLength

/-- An active block runs the next operation of the current request's program; at its end, `respond(OK)` (log entry 5). -/
def State.runPending (s : State) : Host.Outcome State Fault Refusal :=
  match s.pending with
  | [] => .next (s.respond Status.ok [])
  | .frame op bs :: rest => { s with pending := rest }.runFrame op bs
  | .plane op :: rest => { s with pending := rest }.runFrame op s.fbBytes
  | .poll :: rest => .next (s.waitStep rest)
  | .repoll :: rest => .next (s.waitDelay.waitStep rest)
  | op :: rest => .next (op.effect { s with pending := rest })

/-- An idle block takes a presented request: the word and payload are decoded; an illegal one ends with `E_ENC` before any
other check, state change or event (30_encoding.md R95, 60_exceptions.md R282). -/
def State.serve (r : Request) (s : State) : Host.Outcome State Fault Refusal :=
  match decode (.request r) with
  | .ok i => exec i s
  | .error _ => .next (s.accept.raise Status.eEnc)

/-- What the block does next when the reset input is not asserted. With no request presented an idle block waits
(70_reset_and_hazards.md R322). -/
def State.proceed (s : State) : Host.Outcome State Fault Refusal :=
  if s.active then s.runPending
  else
    match s.requests with
    | [] => .next s
    | r :: rest => { s with requests := rest }.serve r

end Sys2Proof.Machine
end

