-- ==== Sys2Proof/Machine/Step.lean ====
section
/-! DEFINITION. One step of the machine, and how a table word is placed where the next step runs it. -/

namespace Sys2Proof.Machine

/-- One step: a reset input asserted now resets the block (70_reset_and_hazards.md R320); otherwise the block proceeds, as far
as a reset input asserted on the way lets it. -/
def step (s : State) : Host.Outcome State Fault Refusal :=
  if s.resetIn = some 0 then .next s.blockReset
  else
    match s.proceed with
    | .next t => .next (s.withResetInput t)
    | .fault r => .fault r
    | .refused r => .refused r

/-- `s` with the instruction whose table bits are `w` where the next step takes it: a request as the oldest one presented to an
idle block; a controller frame as the whole rest of the current request's program of an active block, since the host has no
raw command path (30_encoding.md R104; log entries 4 and 9). The reset input is not asserted. -/
def State.withFetchWord (s : State) (nbits w : Nat) : State :=
  match tableCode nbits w with
  | .request r => { s with active := false, requests := r :: s.requests, resetIn := none }
  | .frame op data => { s with active := true, pending := [.frame op data], resetIn := none }

end Sys2Proof.Machine
end

