-- ==== Sys2Proof/Safety.lean ====
section
/-! DEFINITION. What counts as a safe state and a safe run, and the words the claims are written in: the invariant, the levels the
environment will return, the event lists of the refreshes, the bytes of a trace sent as opcodes. -/

namespace Sys2Proof.Machine

/-- An operation a suspended event program is made of: a frame of one of the fourteen opcodes with its number of data bytes
(30_encoding.md R102), a RAM-plane frame, a fill with one of the two bytes, a tile inside the panel. `DEV_STATE <- SLEEPING`
never waits behind a `WaitIdle()` (43_refresh_sequencer.md R250). -/
def SeqOp.wf : SeqOp → Bool
  | .frame op bs => (dataLength op).any (hasLength bs)
  | .plane op => op == 0x24#8 || op == 0x26#8
  | .resetPulse => true
  | .poll => true
  | .repoll => true
  | .fbFill v => v == 0xFF#8 || v == 0x00#8
  | .mergeSolid y h _ => decide (y + h ≤ Config.height)
  | .setMode _ => true
  | .setDevState d => d != .sleeping

/-- Whether an operation is `MODE <- m` or `DEV_STATE <- d`. -/
def SeqOp.writesState : SeqOp → Bool
  | .frame _ _ => false
  | .plane _ => false
  | .resetPulse => false
  | .poll => false
  | .repoll => false
  | .fbFill _ => false
  | .mergeSolid _ _ _ => false
  | .setMode _ => true
  | .setDevState _ => true

/-- `MODE` and `DEV_STATE` are written by a program only as its last two operations, the end of `InitSequence`
(43_refresh_sequencer.md R232), or what is left of them. -/
def StateWritesLast (prog : List SeqOp) : Prop :=
  ∃ pre tail, prog = pre ++ tail ∧ (∀ op ∈ pre, op.writesState = false) ∧
    (tail = [] ∨ tail = [.setDevState .ready] ∨ ∃ m, tail = [.setMode m, .setDevState .ready])

/-- The invariant of the block between two steps. -/
structure State.Inv (s : State) : Prop where
  /-- The framebuffer's written bytes are in canonical form, inside `FB` (20_memory.md R60). -/
  fbWf : s.fb.wf
  /-- Every operation still to run is one the sequencer knows. -/
  pendingWf : ∀ op ∈ s.pending, op.wf = true
  /-- A program still to run writes `MODE` and `DEV_STATE` only at its end (43_refresh_sequencer.md R232). -/
  stateWritesLast : StateWritesLast s.pending
  /-- An idle block has no program and its `SEQ` is 0 (10_state.md R40; log entry 7). -/
  idle : s.active = false → s.pending = [] ∧ s.seq = 0
  /-- A sleeping block is idle: no request runs in `SLEEPING` past its checks (43_refresh_sequencer.md R251). -/
  sleepingIdle : s.devState = .sleeping → s.active = false
  /-- No chip-select window is open between two operations (41_command_encoder.md R161, R162). -/
  csHigh : s.pinCs = Config.csDeassert
  /-- The panel reset line is high between two operations (42_reset_sequencer.md R200). -/
  rstHigh : s.pinRst = 1#1

/-- The reset input is asserted at the beginning of the next step or inside it (70_reset_and_hazards.md R320; its place is
counted as log entry 6 says). -/
def State.ResetStrikes (s : State) : Prop :=
  s.resetIn = some 0 ∨ ∃ n u, s.resetIn = some n ∧ s.proceed = .next u ∧ n < progressBetween s u

/-- `n` steps, as far as they answer next states. -/
def run : Nat → State → Host.Outcome State Fault Refusal
  | 0, s => .next s
  | n + 1, s =>
    match step s with
    | .next t => run n t
    | .fault r => .fault r
    | .refused r => .refused r

/-- The level the `k`-th `BusyRead()` from now returns (the first is `k = 0`). -/
def State.busyAt (s : State) (k : Nat) : Level :=
  match s.busyIn[k]? with
  | some l => l
  | none => Config.busyDraw (s.busyDraws + (k - s.busyIn.length))

/-- The next `n` `BusyRead()`s return the not-busy level. -/
def State.IdleFor (s : State) (n : Nat) : Prop := ∀ k < n, s.busyAt k ≠ s.params.busyLevel

/-- The next `n` `BusyRead()`s return the busy level. -/
def State.BusyFor (s : State) (n : Nat) : Prop := ∀ k < n, s.busyAt k = s.params.busyLevel

/-- From the `off`-th `BusyRead()` on the controller lets each of some `WaitIdle()`s wait: for each number `k` of the list `k`
reads return the busy level and the next one the other (42_reset_sequencer.md R203). -/
def State.WaitsFor (s : State) : Nat → List Nat → Prop
  | _, [] => True
  | off, k :: ks =>
    (∀ j < k, s.busyAt (off + j) = s.params.busyLevel) ∧ s.busyAt (off + k) ≠ s.params.busyLevel ∧
      s.WaitsFor (off + k + 1) ks

/-- How many `BusyRead()`s such waits make. -/
def readsOf (ks : List Nat) : Nat := (ks.map (· + 1)).sum

/-- `s` with an environment that returns the idle level at the next `n` `BusyRead()`s. -/
def State.withIdleReads (s : State) (n : Nat) : State := { s with busyIn := List.replicate n (~~~s.params.busyLevel) }

/-- The events of a run at an idle controller with its waits lengthened: before the `j`-th `BusyRead` stand as many pairs of a
busy read and a 20 ms delay as the list says (42_reset_sequencer.md R203). -/
def lengthened (busy : Level) : List Nat → List Event → List Event
  | _, [] => []
  | [], e :: es => e :: lengthened busy [] es
  | k :: ks, .busyRead l :: es =>
    (List.replicate k [Event.busyRead busy, .delayMs 20]).flatten ++ .busyRead l :: lengthened busy ks es
  | k :: ks, .pinWrite p l :: es => .pinWrite p l :: lengthened busy (k :: ks) es
  | k :: ks, .xfer b :: es => .xfer b :: lengthened busy (k :: ks) es
  | k :: ks, .delayMs n :: es => .delayMs n :: lengthened busy (k :: ks) es
  | k :: ks, .transportInit st :: es => .transportInit st :: lengthened busy (k :: ks) es

/-- The event program of a request that has passed its checks, as 43_refresh_sequencer.md gives it for its flags, `MODE` and the
OPEN parameters (R225 to R227, R232, R240, R245, R250); for `INIT` and `INIT_FAST` from the reset pulse on, for `DRAW` from its
refresh on. The requests of the FrameBuffer unit and the controller commands have none. -/
def programOf : Instr → State → List SeqOp
  | .init part gray, s => initProgram false part gray s.params
  | .initFast part gray, s => initProgram true part gray s.params
  | .clear, _ => clearProgram
  | .displayFull, s => displayFullProgram s.mode
  | .displayPartial, s => displayPartialProgram s.params
  | .draw _ _ _ _ _, s => refreshProgram s.mode s.params
  | .fill c t, s => fillProgram c t.toNat s.mode s.params
  | .sleep, s => sleepProgram s.params
  | .merge _ _ _ _ _, _ => []
  | .toBitmap, _ => []
  | .fbFill _, _ => []
  | .ctrlSwReset, _ => []
  | .ctrlUpdateCtrl1 _ _, _ => []
  | .ctrlBorderWaveform _, _ => []
  | .ctrlDataEntry _, _ => []
  | .ctrlRamXWindow _ _, _ => []
  | .ctrlRamYWindow _ _, _ => []
  | .ctrlRamXCounter _, _ => []
  | .ctrlRamYCounter _, _ => []
  | .ctrlWriteRamPrimary _, _ => []
  | .ctrlWriteRamSecondary _, _ => []
  | .ctrlUpdateCtrl2 _, _ => []
  | .ctrlMasterActivate, _ => []
  | .ctrlLoadTemperature _, _ => []
  | .ctrlDeepSleep _, _ => []

/-- The events of `TURN_ON(a)` with a `WaitIdle()` that reads `l` and returns (43_refresh_sequencer.md R222). -/
def turnOnEvents (a : Byte) (l : Level) : List Event :=
  writeRegEvents 0x22#8 [a] ++ writeRegEvents 0x20#8 [] ++ [.busyRead l]

/-- The events of a full refresh that sends `plane` to both planes (43_refresh_sequencer.md R225, R226). -/
def fullRefreshEvents (plane : List Byte) (a : Byte) (l : Level) : List Event :=
  writeRegEvents 0x24#8 plane ++ writeRegEvents 0x26#8 plane ++ turnOnEvents a l

/-- The bytes of an all-white framebuffer (40_framebuffer.md R145). -/
def whitePlane : List Byte := List.replicate 15000 0xFF#8

/-- The events of the full-panel window and the origin counters on the 400 by 300 panel (43_refresh_sequencer.md R224). -/
def windowEvents : List Event :=
  writeRegEvents 0x44#8 [0x00#8, 0x31#8] ++ writeRegEvents 0x45#8 [0x00#8, 0x00#8, 0x2B#8, 0x01#8]
    ++ writeRegEvents 0x4E#8 [0x00#8] ++ writeRegEvents 0x4F#8 [0x00#8, 0x00#8]

/-- The events of a partial refresh that sends `plane` to the primary plane (43_refresh_sequencer.md R227). -/
def partialRefreshEvents (p : Params) (plane : List Byte) (l : Level) : List Event :=
  writeRegEvents 0x3C#8 [p.borderPartial] ++ writeRegEvents 0x21#8 [p.upd1Partial.1, p.upd1Partial.2] ++ windowEvents
    ++ writeRegEvents 0x24#8 plane ++ turnOnEvents 0xFF#8 l

/-- The events of the refresh a `DRAW` or a `FILL` tile makes in mode `m` (43_refresh_sequencer.md R241, R223). -/
def refreshEvents (m : Mode) (p : Params) (plane : List Byte) (l : Level) : List Event :=
  match m with
  | .full => fullRefreshEvents plane 0xF7#8 l
  | .fast => fullRefreshEvents plane 0xC7#8 l
  | .gray4 => fullRefreshEvents plane 0xCF#8 l
  | .partialMode => partialRefreshEvents p plane l

/-- The levels of `n` `BusyRead()`s are used up: what the environment's inputs are after them. -/
def State.afterBusyReads (s : State) (n : Nat) : State :=
  { s with busyIn := s.busyIn.drop n, busyDraws := s.busyDraws + (n - s.busyIn.length) }

/-- What every request that ends with `OK` and no data leaves: its events after those before, `STATUS` 0, one response, an idle
block, `reads` busy levels used up; the parameters, the waiting requests, the reset input and the draw of `FB` untouched. -/
structure State.EndedOk (s t : State) (reads : Nat) (events : List Event) : Prop where
  trace : t.trace = s.trace ++ events
  status : t.status = 0x00#8
  responses : t.responses = s.responses ++ [⟨0x00#8, []⟩]
  active : t.active = false
  pending : t.pending = []
  params : t.params = s.params
  requests : t.requests = s.requests
  resetIn : t.resetIn = s.resetIn
  fbEpoch : t.fbEpoch = s.fbEpoch
  busyIn : t.busyIn = s.busyIn.drop reads
  busyDraws : t.busyDraws = s.busyDraws + (reads - s.busyIn.length)

/-- After the last frame of a request: DC at `dc`, CS high, RST and the statuses `TransportInit()` will return as before. -/
def State.PinsAfterFrames (s t : State) (dc : Level) : Prop :=
  t.pinRst = s.pinRst ∧ t.pinDc = dc ∧ t.pinCs = 1#1 ∧ t.transportIn = s.transportIn ∧ t.transportDraws = s.transportDraws

/-- The bytes of a list of events that are transferred while DC is at the command level, `dc` being its level before them. -/
def commandBytes (dc : Level) : List Event → List Byte
  | [] => []
  | .pinWrite .dc l :: es => commandBytes l es
  | .xfer b :: es => if dc = Config.dcCmd then b :: commandBytes dc es else commandBytes dc es
  | _ :: es => commandBytes dc es

/-- Whether an instruction is a controller command, which the sequencer runs and no host presents (30_encoding.md R104). -/
def isCommand (i : Instr) : Bool :=
  match encode i with
  | .request _ => false
  | .frame _ _ => true

/-- Whether a request is served in a device state (the table of 43_refresh_sequencer.md R220). -/
def servedIn : Instr → DevState → Bool
  | .init _ _, d => d != .sleeping
  | .initFast _ _, d => d != .sleeping
  | .clear, d => d == .ready
  | .displayFull, d => d == .ready
  | .displayPartial, d => d == .ready
  | .draw _ _ _ _ _, d => d == .ready
  | .fill _ _, d => d == .ready
  | .sleep, d => d == .ready
  | .merge _ _ _ _ _, _ => true
  | .toBitmap, _ => true
  | .fbFill _, _ => true
  | .ctrlSwReset, _ => true
  | .ctrlUpdateCtrl1 _ _, _ => true
  | .ctrlBorderWaveform _, _ => true
  | .ctrlDataEntry _, _ => true
  | .ctrlRamXWindow _ _, _ => true
  | .ctrlRamYWindow _ _, _ => true
  | .ctrlRamXCounter _, _ => true
  | .ctrlRamYCounter _, _ => true
  | .ctrlWriteRamPrimary _, _ => true
  | .ctrlWriteRamSecondary _, _ => true
  | .ctrlUpdateCtrl2 _, _ => true
  | .ctrlMasterActivate, _ => true
  | .ctrlLoadTemperature _, _ => true
  | .ctrlDeepSleep _, _ => true

/-- `t` is `s` after a request that ended with a status and did nothing else (60_exceptions.md R288): `STATUS` and one response,
an idle block. `SEQ` means nothing in an idle block (10_state.md R40), so its value is left open. -/
def State.EndedWith (s t : State) (st : Byte) (data : List Byte) : Prop :=
  t = { s with
    status := st
    responses := s.responses ++ [⟨st, data⟩]
    active := false
    seq := t.seq
    pending := [] }

/-- The illegal request encodings (30_encoding.md R94, R95): a reserved `OP`; a set bit of `RSV0` or `RSV1`; a field that is not
zero and that the `OP` does not use; a payload of the wrong length. -/
def IllegalRequest (r : Request) : Prop :=
  r.word.extractLsb' 0 4 ∈ [0x0#4, 0xC#4, 0xD#4, 0xE#4, 0xF#4]
    ∨ r.word.extractLsb' 6 2 ≠ 0
    ∨ r.word.extractLsb' 56 8 ≠ 0
    ∨ (r.word.getLsbD 4 = true ∧ r.word.extractLsb' 0 4 ∉ [0x1#4, 0x2#4, 0x7#4, 0xB#4])
    ∨ (r.word.getLsbD 5 = true ∧ r.word.extractLsb' 0 4 ∉ [0x1#4, 0x2#4])
    ∨ (r.word.extractLsb' 8 12 ≠ 0 ∧ r.word.extractLsb' 0 4 ∉ [0x6#4, 0x9#4])
    ∨ (r.word.extractLsb' 20 12 ≠ 0 ∧ r.word.extractLsb' 0 4 ∉ [0x6#4, 0x9#4])
    ∨ (r.word.extractLsb' 32 12 ≠ 0 ∧ r.word.extractLsb' 0 4 ∉ [0x6#4, 0x9#4])
    ∨ (r.word.extractLsb' 44 12 ≠ 0 ∧ r.word.extractLsb' 0 4 ∉ [0x6#4, 0x7#4, 0x9#4])
    ∨ r.payload.length ≠
        (if r.word.extractLsb' 0 4 ∈ [0x6#4, 0x9#4] then
          ((r.word.extractLsb' 32 12).toNat * (r.word.extractLsb' 44 12).toNat + 7) / 8
        else 0)

end Sys2Proof.Machine
end

