-- ==== Sys2Proof/Certificates/Slice0/Obligations.lean ====
section
/-! DEFINITION. The statements for the provers. Each says which rule of spec/ it formalises. -/

open Sys2Proof Sys2Proof.Machine

/-! ### Encodings -/

/-- The worked encodings of 30_encoding.md R108, all thirteen. -/
def Obligations.WorkedEncodings : Prop :=
  encode (.init false false) = .request ⟨0x0000000000000001#64, []⟩ ∧
  encode (.init true false) = .request ⟨0x0000000000000011#64, []⟩ ∧
  encode (.initFast false false) = .request ⟨0x0000000000000002#64, []⟩ ∧
  encode .clear = .request ⟨0x0000000000000003#64, []⟩ ∧
  encode .displayFull = .request ⟨0x0000000000000004#64, []⟩ ∧
  encode .displayPartial = .request ⟨0x0000000000000005#64, []⟩ ∧
  (∀ p, encode (.draw 0 0 200 100 p) = .request ⟨0x000640C800000006#64, p⟩) ∧
  (∀ p, encode (.draw 3 1 10 1 p) = .request ⟨0x0000100A00100306#64, p⟩) ∧
  encode (.fill false 128) = .request ⟨0x0008000000000007#64, []⟩ ∧
  encode .sleep = .request ⟨0x0000000000000008#64, []⟩ ∧
  (∀ p, encode (.merge 395 0 8 1 p) = .request ⟨0x0000100800018B09#64, p⟩) ∧
  encode .toBitmap = .request ⟨0x000000000000000A#64, []⟩ ∧
  encode (.fbFill true) = .request ⟨0x000000000000001B#64, []⟩

/-- Words written out from the spec's encodings decode to the instructions they stand for: requests of 95_test_vectors.md L2-B
and frames of L2-C. -/
def Obligations.WordsDecode : Prop :=
  decode (.request ⟨0x0000000000000031#64, []⟩) = .ok (.init true true) ∧
  decode (.request ⟨0x0000000000000022#64, []⟩) = .ok (.initFast false true) ∧
  decode (.request ⟨0x0000100112B18F06#64, [0x80#8]⟩) = .ok (.draw 399 299 1 1 [0x80#8]) ∧
  decode (.request ⟨0x0000700000000017#64, []⟩) = .ok (.fill true 7) ∧
  decode (.request ⟨0x0000200800200409#64, [0x0F#8, 0xF0#8]⟩) = .ok (.merge 4 2 8 2 [0x0F#8, 0xF0#8]) ∧
  decode (.frame 0x45#8 [0x00#8, 0x00#8, 0x2B#8, 0x01#8]) = .ok (.ctrlRamYWindow 0 299) ∧
  decode (.frame 0x44#8 [0x00#8, 0x31#8]) = .ok (.ctrlRamXWindow 0 49) ∧
  decode (.frame 0x11#8 [0x03#8]) = .ok (.ctrlDataEntry 3) ∧
  decode (.frame 0x20#8 []) = .ok .ctrlMasterActivate

/-- The decoder refuses exactly the illegal encodings of 30_encoding.md R95, every check of them, and accepts everything else. -/
def Obligations.RequestIsIllegalExactlyWhen : Prop :=
  ∀ r : Request, (∃ e, decode (.request r) = .error e) ↔ IllegalRequest r

/-- 30_encoding.md R102: a frame is a controller command exactly when its opcode is one of the fourteen and it has that opcode's
number of data bytes. -/
def Obligations.FrameIsACommandExactlyWhen : Prop :=
  ∀ (op : Byte) (data : List Byte),
    (∃ i, decode (.frame op data) = .ok i) ↔
      (op, data.length) ∈ [(0x12#8, 0), (0x21#8, 2), (0x3C#8, 1), (0x11#8, 1), (0x44#8, 2), (0x45#8, 4), (0x4E#8, 1),
        (0x4F#8, 2), (0x24#8, 15000), (0x26#8, 15000), (0x22#8, 1), (0x20#8, 0), (0x1A#8, 1), (0x10#8, 1)]

/-- Decode and encode agree: the decoder reads every well-formed instruction back from its encoding. -/
def Obligations.DecodeOfEncode : Prop :=
  ∀ i : Instr, i.wellFormed = true → decode (encode i) = .ok i

/-- Encode and decode agree: what the decoder accepts is well-formed and encodes back to the same words. -/
def Obligations.EncodeOfDecode : Prop :=
  ∀ (c : Code) (i : Instr), decode c = .ok i → i.wellFormed = true ∧ encode i = c

/-! ### Steps -/

/-- A step runs the decoded instruction: an idle block the oldest request presented, an active block the next frame of its
program (with the framebuffer's bytes as data for a RAM-plane frame); with nothing presented an idle block waits. That the oldest
request is the one taken is log entry 4, that a step of an active block is one frame of its program is log entry 5, and that a
frame runs as an instruction is log entry 9: the model's choices, not the spec's words. -/
def Obligations.StepRunsTheDecodedInstruction : Prop :=
  ∀ s : State, s.resetIn = none →
    (∀ r rest i, s.active = false → s.requests = r :: rest → decode (.request r) = .ok i →
      step s = exec i { s with requests := rest }) ∧
    (∀ op bs rest i, s.active = true → s.pending = .frame op bs :: rest → decode (.frame op bs) = .ok i →
      step s = exec i { s with pending := rest }) ∧
    (∀ op rest i, s.active = true → s.pending = .plane op :: rest → decode (.frame op s.fbBytes) = .ok i →
      step s = exec i { s with pending := rest }) ∧
    (s.active = false → s.requests = [] → step s = .next s)

/-- 60_exceptions.md R282, 30_encoding.md R95: an illegal request ends with `E_ENC` in every `DEV_STATE`; nothing else of the
block changes. And `E_ENC` is the decoder's: no other request ends with it (one left waiting ends with `OK`:
`FailureStatusesArePrecise`). -/
def Obligations.IllegalRequestEndsWithEEnc : Prop :=
  ∀ (s : State) (r : Request) (rest : List Request),
    s.resetIn = none → s.active = false → s.requests = r :: rest →
      (IllegalRequest r → ∃ t, step s = .next t ∧ State.EndedWith { s with requests := rest } t 0xFE#8 []) ∧
      (¬ IllegalRequest r → ∀ t, step s = .next t → t.active = false → t.status ≠ 0xFE#8)

/-- 60_exceptions.md R283, 43_refresh_sequencer.md R220: a request that its device state does not serve ends with `E_STATE`;
nothing else changes. No other request ends with `E_STATE` (one left waiting ends with `OK`: `FailureStatusesArePrecise`). -/
def Obligations.UnservedRequestEndsWithEState : Prop :=
  ∀ (i : Instr) (s : State), isCommand i = false → s.active = false →
    (servedIn i s.devState = false → ∃ t, exec i s = .next t ∧ s.EndedWith t 0xFD#8 []) ∧
    (servedIn i s.devState = true → ∀ t, exec i s = .next t → t.active = false → t.status ≠ 0xFD#8)

/-- 60_exceptions.md R284, 40_framebuffer.md R131: a rectangle outside the panel ends `MERGE`, and in `READY` also `DRAW`, with
`E_BOUNDS`; nothing else changes. No other request ends with `E_BOUNDS` (one left waiting ends with `OK`:
`FailureStatusesArePrecise`). -/
def Obligations.OutsideRectangleEndsWithEBounds : Prop :=
  (∀ (x y w h : Coord) (p : List Byte) (s : State), s.active = false →
    400 < x.toNat + w.toNat ∨ 300 < y.toNat + h.toNat →
      (∃ t, exec (.merge x y w h p) s = .next t ∧ s.EndedWith t 0xFC#8 []) ∧
      (s.devState = .ready → ∃ t, exec (.draw x y w h p) s = .next t ∧ s.EndedWith t 0xFC#8 [])) ∧
  (∀ (i : Instr) (s t : State), isCommand i = false → s.active = false → exec i s = .next t → t.active = false →
    t.status = 0xFC#8 →
      ∃ x y w h p, (i = .merge x y w h p ∨ i = .draw x y w h p ∧ s.devState = .ready) ∧
        (400 < x.toNat + w.toNat ∨ 300 < y.toNat + h.toNat))

/-- 60_exceptions.md R285: `FILL` with `tileHeight = 0`, in `READY`, ends with `E_ARG`; nothing else changes. No other request
ends with `E_ARG` (one left waiting ends with `OK`: `FailureStatusesArePrecise`). -/
def Obligations.ZeroTileHeightEndsWithEArg : Prop :=
  (∀ (c : Bool) (s : State), s.active = false → s.devState = .ready →
    ∃ t, exec (.fill c 0) s = .next t ∧ s.EndedWith t 0xFB#8 []) ∧
  (∀ (i : Instr) (s t : State), isCommand i = false → s.active = false → exec i s = .next t → t.active = false →
    t.status = 0xFB#8 → ∃ c, i = .fill c 0 ∧ s.devState = .ready)

/-- 60_exceptions.md R281, 43_refresh_sequencer.md R233: a transport status other than 0 ends `INIT` and `INIT_FAST` with
`E_TRANSPORT`, with one event and `UNINIT`; the status is used up and nothing else changes. No other request ends with
`E_TRANSPORT` (one left waiting ends with `OK`: `FailureStatusesArePrecise`). -/
def Obligations.TransportFailureEndsWithETransport : Prop :=
  (∀ (part gray : Bool) (s : State), s.active = false → s.devState ≠ .sleeping → s.nextTransport ≠ 0 →
    ∀ i ∈ [Instr.init part gray, Instr.initFast part gray],
      ∃ t, exec i s = .next t ∧
        State.EndedWith
          (State.popTransport { s with devState := .uninit, trace := s.trace ++ [.transportInit s.nextTransport] })
          t 0xFF#8 []) ∧
  (∀ (i : Instr) (s t : State), isCommand i = false → s.active = false → exec i s = .next t → t.active = false →
    t.status = 0xFF#8 →
      (∃ part gray, i = .init part gray ∨ i = .initFast part gray) ∧ s.devState ≠ .sleeping ∧ s.nextTransport ≠ 0)

/-- 60_exceptions.md R287: the first check that fails, in the order `E_ENC`, `E_STATE`, `E_BOUNDS` or `E_ARG`, `E_TRANSPORT`,
decides the status, and a request reports at most one. -/
def Obligations.PriorityOfTheChecks : Prop :=
  ∀ (s : State) (r : Request) (rest : List Request), s.resetIn = none → s.active = false → s.requests = r :: rest →
    ∃ t, step s = .next t ∧ (∃ l, t.responses = s.responses ++ l ∧ l.length ≤ 1) ∧
      (IllegalRequest r → t.status = 0xFE#8) ∧
      (∀ i, decode (.request r) = .ok i →
        (servedIn i s.devState = false → t.status = 0xFD#8) ∧
        (servedIn i s.devState = true →
          (∀ x y w h p, i = .draw x y w h p ∨ i = .merge x y w h p →
            400 < x.toNat + w.toNat ∨ 300 < y.toNat + h.toNat → t.status = 0xFC#8) ∧
          (∀ c, i = .fill c 0 → t.status = 0xFB#8) ∧
          (∀ part gray, i = .init part gray ∨ i = .initFast part gray → s.nextTransport ≠ 0 → t.status = 0xFF#8)))

/-- 60_exceptions.md R280: a request ends with one status, written to `STATUS` and returned in one response (with data only for
`TO_BITMAP`), or it is still waiting for the controller and has not responded. -/
def Obligations.RequestEndsWithOneResponse : Prop :=
  ∀ (i : Instr) (s t : State), isCommand i = false → s.active = false → exec i s = .next t →
    (t.active = false ∧ t.status ∈ [0x00#8, 0xFF#8, 0xFD#8, 0xFC#8, 0xFB#8] ∧
      ∃ data, t.responses = s.responses ++ [⟨t.status, data⟩] ∧ (i ≠ .toBitmap → data = [])) ∨
    (t.active = true ∧ t.responses = s.responses ∧ t.status = s.status ∧ ∃ rest, t.pending = .repoll :: rest)

/-- 60_exceptions.md R288: after `E_ENC`, `E_STATE`, `E_BOUNDS`, `E_ARG` the state is the state before the request plus the new
`STATUS` (and its response); after `E_TRANSPORT` there is exactly one event and one state change, `UNINIT`. A request that goes
on past its checks ends with no status but `OK`: none is raised after a command frame. -/
def Obligations.FailureStatusesArePrecise : Prop :=
  (∀ (s t : State) (r : Request) (rest : List Request), s.resetIn = none → s.active = false → s.requests = r :: rest →
    step s = .next t → t.active = false →
      (t.status ∈ [0xFE#8, 0xFD#8, 0xFC#8, 0xFB#8] → State.EndedWith { s with requests := rest } t t.status []) ∧
      (t.status = 0xFF#8 →
        State.EndedWith
          (State.popTransport { s with
            requests := rest, devState := .uninit, trace := s.trace ++ [.transportInit s.nextTransport] })
          t 0xFF#8 [])) ∧
  (∀ s t : State, s.Inv → s.resetIn = none → s.active = true → step s = .next t → t.active = false →
    t.status = 0x00#8 ∧ t.responses = s.responses ++ [⟨0x00#8, []⟩])

/-! ### The controller commands -/

/-- 41_command_encoder.md R161, R165: a command without data is its opcode byte in one chip-select window under DC = 0. Nothing
but the trace, `SEQ` and the pin latches changes. -/
def Obligations.CommandsWithoutData : Prop :=
  ∀ (s : State),
    ∀ c ∈ [(Instr.ctrlSwReset, 0x12#8), (Instr.ctrlMasterActivate, 0x20#8)],
      exec c.1 s = .next { s with
        trace := s.trace ++ [.pinWrite .dc 0#1, .pinWrite .cs 0#1, .xfer c.2, .pinWrite .cs 1#1]
        seq := s.seq + 4
        pinDc := 0#1
        pinCs := 1#1 }

/-- 41_command_encoder.md R161, R162, R165: a command with data is its opcode byte in one window under DC = 0, then all its data
bytes in a second window under DC = 1, the two bytes of a 16-bit row low byte first. Nothing but the trace, `SEQ` and the pin
latches changes. -/
def Obligations.CommandsWithData : Prop :=
  ∀ (s : State) (a b : Byte) (y z : BitVec 16),
    ∀ c ∈ [(Instr.ctrlUpdateCtrl1 a b, 0x21#8, [a, b]), (Instr.ctrlBorderWaveform a, 0x3C#8, [a]),
        (Instr.ctrlDataEntry a, 0x11#8, [a]), (Instr.ctrlRamXWindow a b, 0x44#8, [a, b]),
        (Instr.ctrlRamYWindow y z, 0x45#8,
          [y.extractLsb' 0 8, y.extractLsb' 8 8, z.extractLsb' 0 8, z.extractLsb' 8 8]),
        (Instr.ctrlRamXCounter a, 0x4E#8, [a]), (Instr.ctrlRamYCounter y, 0x4F#8, [y.extractLsb' 0 8, y.extractLsb' 8 8]),
        (Instr.ctrlUpdateCtrl2 a, 0x22#8, [a]), (Instr.ctrlLoadTemperature a, 0x1A#8, [a]),
        (Instr.ctrlDeepSleep a, 0x10#8, [a])],
      exec c.1 s = .next { s with
        trace := s.trace ++ ([.pinWrite .dc 0#1, .pinWrite .cs 0#1, .xfer c.2.1, .pinWrite .cs 1#1,
          .pinWrite .dc 1#1, .pinWrite .cs 0#1] ++ c.2.2.map .xfer ++ [.pinWrite .cs 1#1])
        seq := s.seq + (4 + (c.2.2.length + 3))
        pinDc := 1#1
        pinCs := 1#1 }

/-- 41_command_encoder.md R178, R179: a RAM-plane write holds all its `FB_BYTES` data bytes in one chip-select window. Nothing but
the trace, `SEQ` and the pin latches changes. -/
def Obligations.PlaneCommands : Prop :=
  ∀ (s : State) (plane : List Byte), plane.length = 15000 →
    ∀ c ∈ [(Instr.ctrlWriteRamPrimary plane, 0x24#8), (Instr.ctrlWriteRamSecondary plane, 0x26#8)],
      exec c.1 s = .next { s with
        trace := s.trace ++ ([.pinWrite .dc 0#1, .pinWrite .cs 0#1, .xfer c.2, .pinWrite .cs 1#1,
          .pinWrite .dc 1#1, .pinWrite .cs 0#1] ++ plane.map .xfer ++ [.pinWrite .cs 1#1])
        seq := s.seq + 15007
        pinDc := 1#1
        pinCs := 1#1 }

/-! ### The framebuffer requests -/

/-- 40_framebuffer.md R133, R134: `MERGE` of a rectangle inside the panel ends with `OK`; every pixel of the rectangle becomes its
source pixel, every other pixel and every byte without a pixel of the rectangle keeps its value, and nothing but `FB` and the
end of the request changes. -/
def Obligations.MergeCompletes : Prop :=
  ∀ (x y w h : Coord) (p : List Byte) (s : State), s.active = false → (Instr.merge x y w h p).wellFormed = true →
    x.toNat + w.toNat ≤ 400 → y.toNat + h.toNat ≤ 300 →
      ∃ t, exec (.merge x y w h p) s = .next t ∧ State.EndedWith { s with fb := t.fb } t 0x00#8 [] ∧
        (∀ i j, i < w.toNat → j < h.toNat →
          t.pixel (x.toNat + i) (y.toNat + j) =
            (p.getD ((j * w.toNat + i) / 8) 0#8).getLsbD (7 - (j * w.toNat + i) % 8)) ∧
        (∀ px py, px < 400 → py < 300 →
          ¬ (x.toNat ≤ px ∧ px < x.toNat + w.toNat ∧ y.toNat ≤ py ∧ py < y.toNat + h.toNat) →
            t.pixel px py = s.pixel px py) ∧
        (∀ k, (∀ i j, i < w.toNat → j < h.toNat → (y.toNat + j) * 50 + (x.toNat + i) / 8 ≠ k) →
          t.fbRead k = s.fbRead k)

/-- 40_framebuffer.md R133: a merge of the whole panel replaces `FB` with the payload, byte for byte. -/
def Obligations.MergeOfThePanelReplacesFb : Prop :=
  ∀ (p : List Byte) (s : State), s.active = false → p.length = 15000 →
    ∃ t, exec (.merge 0 0 400 300 p) s = .next t ∧ ∀ k < 15000, t.fbRead k = p.getD k 0#8

/-- 40_framebuffer.md R140, 30_encoding.md R97: `TO_BITMAP` responds with the bytes of `FB` in index order and changes nothing
but `STATUS`. -/
def Obligations.ToBitmapCompletes : Prop :=
  ∀ s : State, s.active = false →
    ∃ (t : State) (data : List Byte), exec .toBitmap s = .next t ∧ s.EndedWith t 0x00#8 data ∧ data.length = 15000 ∧
      ∀ n < 15000, data.getD n 0#8 = s.fbRead n

/-- `TO_BITMAP` is the inverse of a whole-panel `MERGE` (40_framebuffer.md R140; 92_eei_decisions.md D8): merging its data back
leaves every byte of `FB` as it was. -/
def Obligations.MergeOfToBitmapIsIdentity : Prop :=
  ∀ (s t : State) (data : List Byte), s.active = false → exec .toBitmap s = .next t →
    t.responses = s.responses ++ [⟨0x00#8, data⟩] →
      ∃ u, exec (.merge 0 0 400 300 data) t = .next u ∧ ∀ k < 15000, u.fbRead k = s.fbRead k

/-- 40_framebuffer.md R145: `FB_FILL c` sets every byte of `FB` to 0xFF (white) or 0x00 (black), ends with `OK`, and changes
nothing else. -/
def Obligations.FbFillCompletes : Prop :=
  ∀ (c : Bool) (s : State), s.active = false →
    ∃ t, exec (.fbFill c) s = .next t ∧ State.EndedWith { s with fb := t.fb } t 0x00#8 [] ∧
      ∀ k < 15000, t.fbRead k = if c then 0xFF#8 else 0x00#8

/-! ### The refresh requests -/

/-- 43_refresh_sequencer.md R225: `CLEAR` in `READY`, with the controller idle at its one `BusyRead`, fills `FB` with 0xFF, sends
it to both planes and activates with 0xF7 whatever `MODE` is. -/
def Obligations.ClearCompletes : Prop :=
  ∀ s : State, s.active = false → s.devState = .ready → s.IdleFor 1 →
    ∃ t, exec .clear s = .next t ∧
      s.EndedOk t 1 (fullRefreshEvents whitePlane 0xF7#8 (s.busyAt 0)) ∧
      s.PinsAfterFrames t 0#1 ∧ t.devState = .ready ∧ t.mode = s.mode ∧ ∀ k < 15000, t.fbRead k = 0xFF#8

/-- 43_refresh_sequencer.md R226, R223: `DISPLAY_FULL` in `READY`, with the controller idle, sends `FB` to both planes and
activates with the byte of `MODE`: 0xF7 in `FULL` and `PARTIAL`, 0xC7 in `FAST`, 0xCF in `GRAY4`. `FB`, `MODE` and `DEV_STATE`
are unchanged. -/
def Obligations.DisplayFullCompletes : Prop :=
  ∀ s : State, s.active = false → s.devState = .ready → s.IdleFor 1 →
    ∃ t, exec .displayFull s = .next t ∧
      s.EndedOk t 1 (fullRefreshEvents s.fbBytes
        (match s.mode with
          | .full => 0xF7#8
          | .fast => 0xC7#8
          | .gray4 => 0xCF#8
          | .partialMode => 0xF7#8) (s.busyAt 0)) ∧
      s.PinsAfterFrames t 0#1 ∧ t.devState = .ready ∧ t.mode = s.mode ∧ t.fb = s.fb

/-- 43_refresh_sequencer.md R227: `DISPLAY_PARTIAL` in `READY`, with the controller idle, reconfigures for partial mode, re-sends
the full-panel window and the origin counters, sends `FB` to the primary plane only and activates with 0xFF, in every `MODE`.
`FB`, `MODE` and `DEV_STATE` are unchanged. -/
def Obligations.DisplayPartialCompletes : Prop :=
  ∀ s : State, s.active = false → s.devState = .ready → s.IdleFor 1 →
    ∃ t, exec .displayPartial s = .next t ∧
      s.EndedOk t 1 (partialRefreshEvents s.params s.fbBytes (s.busyAt 0)) ∧
      s.PinsAfterFrames t 0#1 ∧ t.devState = .ready ∧ t.mode = s.mode ∧ t.fb = s.fb

/-- 43_refresh_sequencer.md R240, R241: `DRAW` of a rectangle inside the panel, in `READY` and with the controller idle, merges
the bitmap into `FB`, then sends the whole of the merged `FB` with the refresh of `MODE`. -/
def Obligations.DrawCompletes : Prop :=
  ∀ (x y w h : Coord) (p : List Byte) (s : State), s.active = false → s.devState = .ready →
    (Instr.draw x y w h p).wellFormed = true → x.toNat + w.toNat ≤ 400 → y.toNat + h.toNat ≤ 300 → s.IdleFor 1 →
      ∃ t, exec (.draw x y w h p) s = .next t ∧
        s.EndedOk t 1 (refreshEvents s.mode s.params t.fbBytes (s.busyAt 0)) ∧
        s.PinsAfterFrames t 0#1 ∧ t.devState = .ready ∧ t.mode = s.mode ∧
        (∀ i j, i < w.toNat → j < h.toNat →
          t.pixel (x.toNat + i) (y.toNat + j) =
            (p.getD ((j * w.toNat + i) / 8) 0#8).getLsbD (7 - (j * w.toNat + i) % 8)) ∧
        (∀ px py, px < 400 → py < 300 →
          ¬ (x.toNat ≤ px ∧ px < x.toNat + w.toNat ∧ y.toNat ≤ py ∧ py < y.toNat + h.toNat) →
            t.pixel px py = s.pixel px py) ∧
        (∀ k, (∀ i j, i < w.toNat → j < h.toNat → (y.toNat + j) * 50 + (x.toNat + i) / 8 ≠ k) →
          t.fbRead k = s.fbRead k)

/-- 43_refresh_sequencer.md R245, R246: `FILL c, t` with `t >= 1`, in `READY` and with the controller idle, makes
`ceil(HEIGHT/t)` refreshes; the `k`-th sends `FB` with rows `0` to `min((k+1)*t, HEIGHT) - 1` in the new colour and the rows
below as they were. At the end every byte of `FB` is 0xFF or 0x00. -/
def Obligations.FillCompletes : Prop :=
  ∀ (c : Bool) (th : Coord) (s : State), s.active = false → s.devState = .ready → th.toNat ≠ 0 →
    s.IdleFor ((300 + th.toNat - 1) / th.toNat) →
      ∃ t, exec (.fill c th) s = .next t ∧
        s.EndedOk t ((300 + th.toNat - 1) / th.toNat)
          ((List.range ((300 + th.toNat - 1) / th.toNat)).flatMap fun k =>
            refreshEvents s.mode s.params
              ((List.range 15000).map fun n =>
                if n / 50 < (k + 1) * th.toNat then (if c then 0xFF#8 else 0x00#8) else s.fbRead n)
              (s.busyAt k)) ∧
        s.PinsAfterFrames t 0#1 ∧ t.devState = .ready ∧ t.mode = s.mode ∧
        ∀ n < 15000, t.fbRead n = if c then 0xFF#8 else 0x00#8

/-- 43_refresh_sequencer.md R246: tile `k` of a `FILL` is the rows from `k*t` to `min((k+1)*t, HEIGHT)`, and there are
`ceil(HEIGHT/t)` of them. -/
def Obligations.TilesCoverThePanel : Prop :=
  ∀ t : Nat, t ≠ 0 →
    tiles t = (List.range ((300 + t - 1) / t)).map fun k => (k * t, min ((k + 1) * t) 300 - k * t)

/-- 43_refresh_sequencer.md R250: `SLEEP` in `READY` sends the deep-sleep frame, waits for nothing, enters `SLEEPING` and ends
with `OK`; nothing else changes. -/
def Obligations.SleepCompletes : Prop :=
  ∀ s : State, s.active = false → s.devState = .ready →
    ∃ t, exec .sleep s = .next t ∧ State.EndedWith { s with
      trace := s.trace ++ [.pinWrite .dc 0#1, .pinWrite .cs 0#1, .xfer 0x10#8, .pinWrite .cs 1#1, .pinWrite .dc 1#1,
        .pinWrite .cs 0#1, .xfer s.params.sleepData, .pinWrite .cs 1#1]
      devState := .sleeping
      pinDc := 1#1
      pinCs := 1#1 } t 0x00#8 []

/-- 43_refresh_sequencer.md R230, R232, R221: `INIT` outside `SLEEPING`, with a transport status of 0 and the controller idle,
makes exactly the events of `InitSequence`, clears `FB` to 0xFF, sets `MODE` from the flags and enters `READY`. -/
def Obligations.InitCompletes : Prop :=
  ∀ (part gray : Bool) (s : State), s.active = false → s.devState ≠ .sleeping → s.nextTransport = 0 → s.IdleFor 3 →
    ∃ t, exec (.init part gray) s = .next t ∧
      s.EndedOk t 3 ([.transportInit 0, .pinWrite .rst 1#1, .delayMs 100, .pinWrite .rst 0#1, .delayMs 2,
          .pinWrite .rst 1#1, .delayMs 100, .busyRead (s.busyAt 0)]
        ++ writeRegEvents 0x12#8 [] ++ writeRegEvents 0x21#8 [s.params.upd1Init.1, s.params.upd1Init.2]
        ++ writeRegEvents 0x3C#8 [s.params.borderInit]
        ++ writeRegEvents 0x11#8 [0x03#8] ++ windowEvents ++ [.busyRead (s.busyAt 1)]
        ++ fullRefreshEvents whitePlane 0xF7#8 (s.busyAt 2)) ∧
      t.devState = .ready ∧
      t.mode = (if part then .partialMode else if gray then .gray4 else .full) ∧
      t.pinRst = 1#1 ∧ t.pinDc = 0#1 ∧ t.pinCs = 1#1 ∧
      t.transportIn = s.popTransport.transportIn ∧ t.transportDraws = s.popTransport.transportDraws ∧
      ∀ k < 15000, t.fbRead k = 0xFF#8

/-- 43_refresh_sequencer.md R231, R232, R221: `INIT_FAST` as `INIT`, with the temperature load and the update-activate cycle after
the border waveform, and `FAST` as the mode when no flag is set. -/
def Obligations.InitFastCompletes : Prop :=
  ∀ (part gray : Bool) (s : State), s.active = false → s.devState ≠ .sleeping → s.nextTransport = 0 → s.IdleFor 4 →
    ∃ t, exec (.initFast part gray) s = .next t ∧
      s.EndedOk t 4 ([.transportInit 0, .pinWrite .rst 1#1, .delayMs 100, .pinWrite .rst 0#1, .delayMs 2,
          .pinWrite .rst 1#1, .delayMs 100, .busyRead (s.busyAt 0)]
        ++ writeRegEvents 0x12#8 [] ++ writeRegEvents 0x21#8 [s.params.upd1Init.1, s.params.upd1Init.2]
        ++ writeRegEvents 0x3C#8 [s.params.borderInit]
        ++ writeRegEvents 0x1A#8 [s.params.tempFast] ++ turnOnEvents s.params.ctrl2FastLoad (s.busyAt 1)
        ++ writeRegEvents 0x11#8 [0x03#8] ++ windowEvents ++ [.busyRead (s.busyAt 2)]
        ++ fullRefreshEvents whitePlane 0xF7#8 (s.busyAt 3)) ∧
      t.devState = .ready ∧
      t.mode = (if part then .partialMode else if gray then .gray4 else .fast) ∧
      t.pinRst = 1#1 ∧ t.pinDc = 0#1 ∧ t.pinCs = 1#1 ∧
      t.transportIn = s.popTransport.transportIn ∧ t.transportDraws = s.popTransport.transportDraws ∧
      ∀ k < 15000, t.fbRead k = 0xFF#8

/-! ### Waiting -/

/-- 42_reset_sequencer.md R203: a `WaitIdle()` whose first `k` reads return `BUSY_LEVEL` and whose next read returns the other
level makes `k` pairs of a busy read and a 20 ms delay, then one read that is not busy, and the program goes on behind it; no
other state of the block changes (`SEQ` follows the events). -/
def Obligations.WaitIdleReadsUntilIdle : Prop :=
  ∀ (k : Nat) (s : State) (rest : List SeqOp), s.resetIn = none → s.active = true → s.pending = .poll :: rest →
    s.BusyFor k → s.busyAt k ≠ s.params.busyLevel →
      ∃ n q, run n s = .next { s.afterBusyReads (k + 1) with
        pending := rest
        seq := q
        trace := s.trace ++ ((List.replicate k [Event.busyRead s.params.busyLevel, .delayMs 20]).flatten
          ++ [.busyRead (s.busyAt k)]) }

/-- 42_reset_sequencer.md R204: while every `BusyRead` returns `BUSY_LEVEL` a `WaitIdle()` never returns: after any number of
steps the request is still active, at the first read of the wait or inside its loop, has made busy reads and delays only, has
sent no response, and no request presented meanwhile is accepted. -/
def Obligations.BusyControllerHangsTheRequest : Prop :=
  ∀ (n : Nat) (s : State) (rest : List SeqOp), s.resetIn = none → s.active = true →
    (s.pending = .poll :: rest → s.BusyFor (n + 1) →
      ∃ q, run (n + 1) s = .next { s.afterBusyReads (n + 1) with
        pending := .repoll :: rest
        seq := q
        trace := s.trace ++ .busyRead s.params.busyLevel ::
          (List.replicate n [Event.delayMs 20, .busyRead s.params.busyLevel]).flatten }) ∧
    (s.pending = .repoll :: rest → s.BusyFor n →
      ∃ q, run n s = .next { s.afterBusyReads n with
        seq := q
        trace := s.trace ++ (List.replicate n [Event.delayMs 20, .busyRead s.params.busyLevel]).flatten })

/-- 60_exceptions.md R286: which requests can hang. From a state that serves them, `INIT`, `INIT_FAST` (with a transport status of
0), `CLEAR`, `DISPLAY_FULL`, `DISPLAY_PARTIAL`, `DRAW` inside the panel and `FILL` with a tile height are left waiting when the
controller reads busy; `SLEEP`, `MERGE`, `TO_BITMAP`, `FB_FILL` always end. -/
def Obligations.RequestsThatCanHang : Prop :=
  ∀ s : State, s.active = false →
    (∀ i t, s.BusyFor 1 → servedIn i s.devState = true → exec i s = .next t →
      ((∃ part gray, s.nextTransport = 0 ∧ (i = .init part gray ∨ i = .initFast part gray))
        ∨ i = .clear ∨ i = .displayFull ∨ i = .displayPartial
        ∨ (∃ x y w h p, i = .draw x y w h p ∧ x.toNat + w.toNat ≤ 400 ∧ y.toNat + h.toNat ≤ 300)
        ∨ (∃ c th, i = .fill c th ∧ th.toNat ≠ 0)) →
      t.active = true ∧ ∃ rest, t.pending = .repoll :: rest) ∧
    (∀ i t, exec i s = .next t →
      (i = .sleep ∨ (∃ x y w h p, i = .merge x y w h p) ∨ i = .toBitmap ∨ ∃ c, i = .fbFill c) → t.active = false)

/-- A request left waiting keeps its own program: where `exec` leaves it active, `pending` is the rest of the program of that very
request behind the `WaitIdle()` that read the busy level, every `WaitIdle()` before it having read the other level
(42_reset_sequencer.md R203, R206, 43_refresh_sequencer.md R225 to R250; that `exec` stops there is log entry 5, the model's
choice). -/
def Obligations.WaitingRequestKeepsItsOwnProgram : Prop :=
  ∀ (i : Instr) (s t : State), isCommand i = false → s.active = false → exec i s = .next t → t.active = true →
    ∃ pre rest, programOf i s = pre ++ .poll :: rest ∧ t.pending = .repoll :: rest ∧
      s.IdleFor (pre.count .poll) ∧ s.busyAt (pre.count .poll) = s.params.busyLevel

/-- 42_reset_sequencer.md R203, 43_refresh_sequencer.md R222: a request whose `WaitIdle()`s meet busy levels and then an idle one,
`ks[j]` busy levels at the `j`-th, ends as it does at a controller idle at every read (`t`; the statements `ClearCompletes` to
`InitFastCompletes` give it), with the same state and the same events but for `ks[j]` pairs of a busy read and a 20 ms delay
before the `j`-th idle read. The steps on the way are log entry 5, the model's choice. -/
def Obligations.BusyReadsOnlyLengthenTheWaits : Prop :=
  ∀ (i : Instr) (s t : State) (ks : List Nat), isCommand i = false → s.active = false → s.resetIn = none →
    s.WaitsFor 0 ks → exec i (s.withIdleReads ks.length) = .next t → t.active = false → t.busyIn = [] →
    t.busyDraws = s.busyDraws →
      ∃ u n q, exec i s = .next u ∧ run n u = .next { t with
        trace := s.trace ++ lengthened s.params.busyLevel ks (t.trace.drop s.trace.length)
        seq := q
        busyIn := s.busyIn.drop (readsOf ks)
        busyDraws := s.busyDraws + (readsOf ks - s.busyIn.length) }

/-- A program run operation by operation comes to the same state as run in one go, to its end or to its next busy level: a request
left waiting goes on as if it had not waited (20_memory.md R72; the split into steps is log entry 5, the model's choice). -/
def Obligations.StepsOfAnActiveBlockReachTheSameState : Prop :=
  ∀ (prog : List SeqOp) (s : State), s.resetIn = none → (∀ op ∈ prog, op.wf = true) →
    s.active = true → s.pending = prog →
      ∃ n, run n s = .next (drain prog s)

/-! ### Reset -/

/-- 10_state.md R45: the values the spec gives after a block reset, at the model's start and after any block reset later. `FB` may
hold any value and `SEQ` means nothing: the statement says nothing of them. -/
def Obligations.ResetValues : Prop :=
  ∀ t : State, (t = State.reset ∨ ∃ s : State, t = s.blockReset) →
    t.devState = .uninit ∧ t.mode = .full ∧ t.pinRst = 1#1 ∧ t.pinDc = 0#1 ∧ t.pinCs = 1#1 ∧ t.status = 0#8 ∧
      t.active = false

/-- 70_reset_and_hazards.md R320: the reset input, asserted at any time, gives every piece of state its reset value, abandons the
request in progress without a response and appends no event. -/
def Obligations.BlockResetAtAnyTime : Prop :=
  ∀ s : State, s.resetIn = some 0 →
    ∃ t, step s = .next t ∧ t.devState = .uninit ∧ t.mode = .full ∧ t.pinRst = 1#1 ∧ t.pinDc = 0#1 ∧ t.pinCs = 1#1 ∧
      t.status = 0#8 ∧ t.active = false ∧ t.pending = [] ∧ t.trace = s.trace ∧ t.responses = s.responses ∧
      t.params = s.params

/-- 70_reset_and_hazards.md R320, R321: a reset in the middle of what a step would have done leaves the events up to it, and only
those, in the trace, sends no further response, and gives every piece of state its reset value. The model's choices, which
neither rule states: the place is counted as log entry 6 says, and the requests still waiting survive the reset
(`t.requests = u.requests`, log entries 4 and 6). -/
def Obligations.BlockResetInsideARequest : Prop :=
  ∀ (s u : State) (n : Nat), s.resetIn = some n → 0 < n → s.proceed = .next u → n < progressBetween s u →
    ∃ t, step s = .next t ∧ t.devState = .uninit ∧ t.mode = .full ∧ t.pinRst = 1#1 ∧ t.pinDc = 0#1 ∧ t.pinCs = 1#1 ∧
      t.status = 0#8 ∧ t.active = false ∧ t.pending = [] ∧ t.responses = s.responses ∧ t.requests = u.requests ∧
      t.trace = s.trace ++ (u.trace.drop s.trace.length).take (n - (s.requests.length - u.requests.length)) ∧
      t.trace <+: u.trace

/-! ### Whole-machine rules -/

/-- The invariant holds right after reset. -/
def Obligations.InvHoldsAtReset : Prop := State.reset.Inv

/-- Every step keeps the invariant: the framebuffer's canonical form, a known program that writes `MODE` and `DEV_STATE` at its
end only, an idle block without one, no request running in `SLEEPING`, chip-select and the panel reset line high between
operations. (`SEQ` 0 in an idle block is log entry 7, the model's choice.) -/
def Obligations.StepKeepsInv : Prop :=
  ∀ s t : State, s.Inv → step s = .next t → t.Inv

/-- From a state with the invariant the machine never stops: every step answers a next state (60_exceptions.md R280: no traps). -/
def Obligations.StepNeverStops : Prop :=
  ∀ s : State, s.Inv → ∃ t, step s = .next t

/-- 10_state.md R37: each pin latch holds the level of the last `PinWrite` to its pin, on every step without a block reset. -/
def Obligations.LatchesHoldTheLastPinWrite : Prop :=
  ∀ s t : State, s.resetIn = none → step s = .next t →
    ∃ es, t.trace = s.trace ++ es ∧
      ∀ p : Pin,
        (match p with | .rst => t.pinRst | .dc => t.pinDc | .cs => t.pinCs) =
          ((es.filterMap fun e => match e with | .pinWrite q l => if q = p then some l else none | _ => none).getLast?).getD
            (match p with | .rst => s.pinRst | .dc => s.pinDc | .cs => s.pinCs)

/-- 30_encoding.md R104: no step ever transfers a reserved byte as an opcode: every byte sent while DC is at the command level is
one of the fourteen opcodes. -/
def Obligations.OnlyTheFourteenOpcodesAreSent : Prop :=
  ∀ s t : State, s.Inv → step s = .next t →
    ∀ b ∈ commandBytes s.pinDc (t.trace.drop s.trace.length),
      b ∈ [0x12#8, 0x21#8, 0x3C#8, 0x11#8, 0x44#8, 0x45#8, 0x4E#8, 0x4F#8, 0x24#8, 0x26#8, 0x22#8, 0x20#8, 0x1A#8, 0x10#8]

/-- 70_reset_and_hazards.md R336, 43_refresh_sequencer.md R251: in `SLEEPING` the block makes no event and only a block reset
that strikes in this step leaves it, whatever the reset input does later; `MODE` is kept (60_exceptions.md R297). -/
def Obligations.SleepingBlockIsQuiet : Prop :=
  ∀ s t : State, s.Inv → s.devState = .sleeping → step s = .next t →
    t.trace = s.trace ∧ (s.ResetStrikes ∨ t.devState = .sleeping ∧ t.mode = s.mode)

/-- 70_reset_and_hazards.md R324: no step changes the OPEN parameters. -/
def Obligations.StepKeepsTheOpenParameters : Prop :=
  ∀ s t : State, step s = .next t → t.params = s.params

/-- 20_memory.md R69, R72: the trace and the responses are only ever added to, through a block reset too (log entry 8,
the model's choice). -/
def Obligations.OutputsOnlyGrow : Prop :=
  ∀ s t : State, step s = .next t → s.trace <+: t.trace ∧ s.responses <+: t.responses

/-- 30_encoding.md R90: a request presented while another is active is neither accepted nor lost; an idle block accepts one request
only. That this one is the oldest presented, `t.requests = s.requests.tail`, is log entry 4, the model's choice: the spec does not
order several waiting requests. -/
def Obligations.RequestsWaitWhileActive : Prop :=
  ∀ s t : State, s.resetIn = none → step s = .next t →
    (s.active = true → t.requests = s.requests) ∧ (s.active = false → t.requests = s.requests.tail)

/-- 10_state.md R33: what changes `DEV_STATE`. As an instruction, only `INIT` and `INIT_FAST`, not from `SLEEPING`, to `READY` or (a
failed transport) to `UNINIT`, and `SLEEP`, from `READY` to `SLEEPING`; no controller command does. As a step: a block reset that
strikes in it, to `UNINIT`; such a request that an idle block accepts; or, of an `INIT` or `INIT_FAST` that waited, the last
operation of its program, to `READY` (log entry 5; whose program it is, `WaitingRequestKeepsItsOwnProgram` says). -/
def Obligations.DeviceStateTransitions : Prop :=
  (∀ (i : Instr) (s t : State), exec i s = .next t → t.devState ≠ s.devState →
    ((∃ part gray, i = .init part gray ∨ i = .initFast part gray) ∧ s.devState ≠ .sleeping ∧
      (t.devState = .ready ∧ s.nextTransport = 0 ∧ t.status = 0x00#8
        ∨ t.devState = .uninit ∧ s.nextTransport ≠ 0 ∧ t.status = 0xFF#8)) ∨
    (i = .sleep ∧ s.devState = .ready ∧ t.devState = .sleeping)) ∧
  (∀ s t : State, s.Inv → step s = .next t → t.devState ≠ s.devState →
    (s.ResetStrikes ∧ t.devState = .uninit) ∨
    (s.active = false ∧ ∃ r rest i, s.requests = r :: rest ∧ decode (.request r) = .ok i ∧
      (((∃ part gray, i = .init part gray ∨ i = .initFast part gray) ∧ s.devState ≠ .sleeping ∧
          (t.devState = .ready ∧ s.nextTransport = 0 ∧ t.status = 0x00#8
            ∨ t.devState = .uninit ∧ s.nextTransport ≠ 0 ∧ t.status = 0xFF#8)) ∨
        (i = .sleep ∧ s.devState = .ready ∧ t.devState = .sleeping))) ∨
    (s.active = true ∧ s.pending = [.setDevState .ready] ∧ s.devState ≠ .sleeping ∧ t.devState = .ready))

/-- 10_state.md R35: what writes `MODE`. As an instruction, only an `INIT` or `INIT_FAST` that completes. As a step: a block reset
that strikes in it, to `FULL` (R45); an `INIT` or `INIT_FAST` that an idle block accepts and that completes; or, of an `INIT` or
`INIT_FAST` that waited, the operation before the last of its program, behind which no wait stands (log entry 5). -/
def Obligations.ModeIsWrittenByInitOnly : Prop :=
  (∀ (i : Instr) (s t : State), exec i s = .next t → t.mode ≠ s.mode →
    ∃ part gray, (i = .init part gray ∨ i = .initFast part gray) ∧ t.devState = .ready ∧ t.status = 0x00#8 ∧
      t.active = false ∧
      t.mode = (if part then .partialMode else if gray then .gray4
        else if i = .initFast part gray then .fast else .full)) ∧
  (∀ s t : State, s.Inv → step s = .next t → t.mode ≠ s.mode →
    (s.ResetStrikes ∧ t.mode = .full) ∨
    (s.active = false ∧ ∃ r rest i part gray, s.requests = r :: rest ∧ decode (.request r) = .ok i ∧
      (i = .init part gray ∨ i = .initFast part gray) ∧ t.devState = .ready ∧ t.status = 0x00#8 ∧ t.active = false ∧
      t.mode = (if part then .partialMode else if gray then .gray4
        else if i = .initFast part gray then .fast else .full)) ∨
    (s.active = true ∧ ∃ m, s.pending = [.setMode m, .setDevState .ready] ∧ t.mode = m ∧
      t.pending = [.setDevState .ready]))
end

