-- ==== Sys2Proof/Laws/Config.lean ====
section
/-! SUPPORT. The panel's numbers as numerals (00_scope.md R10). -/

namespace Sys2Proof.Config

@[simp] theorem width_eq : width = 400 := rfl

@[simp] theorem height_eq : height = 300 := rfl

@[simp] theorem bpr_eq : bpr = 50 := rfl

@[simp] theorem fbBytes_eq : fbBytes = 15000 := rfl

end Sys2Proof.Config

namespace Sys2Proof

/-- The length test says what its name says. -/
theorem hasLength_iff {α : Type} (l : List α) (n : Nat) : hasLength l n = true ↔ l.length = n := by
  induction l generalizing n with
  | nil => cases n <;> simp [hasLength]
  | cons a l ih => cases n <;> simp [hasLength, ih]

theorem hasLength_eq_false_iff {α : Type} (l : List α) (n : Nat) : hasLength l n = false ↔ l.length ≠ n := by
  rw [← Bool.not_eq_true, hasLength_iff]

@[simp] theorem hasLength_length {α : Type} (l : List α) : hasLength l l.length = true := (hasLength_iff l _).2 rfl

end Sys2Proof
end

