-- ==== Sys2Proof/Laws/Decode.lean ====
section
/-! SUPPORT. The fields of a request word: what the encoder puts in, the decoder takes out (30_encoding.md R91). -/

namespace Sys2Proof

section
variable (op : BitVec 4) (f0 f1 : Bool) (x y w h : Coord)

@[simp] theorem op_requestWord : ReqWord.op (requestWord op f0 f1 x y w h) = op := by
  refine BitVec.eq_of_getLsbD_eq fun i hi => ?_
  interval_cases i <;> simp [ReqWord.op, requestWord]

@[simp] theorem f0_requestWord : ReqWord.f0 (requestWord op f0 f1 x y w h) = f0 := by
  simp [ReqWord.f0, requestWord, BitVec.getLsbD_of_ge]

@[simp] theorem f1_requestWord : ReqWord.f1 (requestWord op f0 f1 x y w h) = f1 := by
  simp [ReqWord.f1, requestWord, BitVec.getLsbD_of_ge]

@[simp] theorem rsv0_requestWord : ReqWord.rsv0 (requestWord op f0 f1 x y w h) = 0 := by
  refine BitVec.eq_of_getLsbD_eq fun i hi => ?_
  interval_cases i <;> simp [ReqWord.rsv0, requestWord, BitVec.getLsbD_of_ge]

@[simp] theorem fieldX_requestWord : ReqWord.fieldX (requestWord op f0 f1 x y w h) = x := by
  refine BitVec.eq_of_getLsbD_eq fun i hi => ?_
  interval_cases i <;> simp [ReqWord.fieldX, requestWord, BitVec.getLsbD_of_ge]

@[simp] theorem fieldY_requestWord : ReqWord.fieldY (requestWord op f0 f1 x y w h) = y := by
  refine BitVec.eq_of_getLsbD_eq fun i hi => ?_
  interval_cases i <;> simp [ReqWord.fieldY, requestWord, BitVec.getLsbD_of_ge]

@[simp] theorem fieldW_requestWord : ReqWord.fieldW (requestWord op f0 f1 x y w h) = w := by
  refine BitVec.eq_of_getLsbD_eq fun i hi => ?_
  interval_cases i <;> simp [ReqWord.fieldW, requestWord, BitVec.getLsbD_of_ge]

@[simp] theorem fieldH_requestWord : ReqWord.fieldH (requestWord op f0 f1 x y w h) = h := by
  refine BitVec.eq_of_getLsbD_eq fun i hi => ?_
  interval_cases i <;> simp [ReqWord.fieldH, requestWord, BitVec.getLsbD_of_ge]

@[simp] theorem rsv1_requestWord : ReqWord.rsv1 (requestWord op f0 f1 x y w h) = 0 := by
  refine BitVec.eq_of_getLsbD_eq fun i hi => ?_
  interval_cases i <;> simp [ReqWord.rsv1, requestWord, BitVec.getLsbD_of_ge]

end

/-- A word with zero reserved bits is made of its fields. -/
theorem requestWord_fields (v : ReqWord) (h0 : ReqWord.rsv0 v = 0) (h1 : ReqWord.rsv1 v = 0) :
    requestWord (ReqWord.op v) (ReqWord.f0 v) (ReqWord.f1 v) (ReqWord.fieldX v) (ReqWord.fieldY v) (ReqWord.fieldW v)
      (ReqWord.fieldH v) = v := by
  have b : ∀ i, i < 2 → v.getLsbD (6 + i) = false := fun i hi => by
    have := congrArg (·.getLsbD i) h0
    simpa [ReqWord.rsv0, hi] using this
  have c : ∀ i, i < 8 → v.getLsbD (56 + i) = false := fun i hi => by
    have := congrArg (·.getLsbD i) h1
    simpa [ReqWord.rsv1, hi] using this
  have b0 := b 0; have b1 := b 1
  have c0 := c 0; have c1 := c 1; have c2 := c 2; have c3 := c 3
  have c4 := c 4; have c5 := c 5; have c6 := c 6; have c7 := c 7
  clear b c
  refine BitVec.eq_of_getLsbD_eq fun i hi => ?_
  interval_cases i <;>
    simp_all [ReqWord.op, ReqWord.f0, ReqWord.f1, ReqWord.fieldX, ReqWord.fieldY, ReqWord.fieldW, ReqWord.fieldH,
      requestWord]

@[simp] theorem wordOf_bytes (v : BitVec 16) : wordOf (highByte v) (lowByte v) = v := by
  refine BitVec.eq_of_getLsbD_eq fun i hi => ?_
  interval_cases i <;> simp [wordOf, highByte, lowByte]

@[simp] theorem lowByte_wordOf (a b : Byte) : lowByte (wordOf a b) = b := by
  refine BitVec.eq_of_getLsbD_eq fun i hi => ?_
  interval_cases i <;> simp [wordOf, lowByte]

@[simp] theorem highByte_wordOf (a b : Byte) : highByte (wordOf a b) = a := by
  refine BitVec.eq_of_getLsbD_eq fun i hi => ?_
  interval_cases i <;> simp [wordOf, highByte]

/-! ### Frames -/

/-- The opcodes and the lengths of the table of 30_encoding.md R102. -/
theorem dataLength_eq_some_iff (op : Byte) (n : Nat) :
    dataLength op = some n ↔
      (op, n) ∈ [(0x12#8, 0), (0x21#8, 2), (0x3C#8, 1), (0x11#8, 1), (0x44#8, 2), (0x45#8, 4), (0x4E#8, 1), (0x4F#8, 2),
        (0x24#8, 15000), (0x26#8, 15000), (0x22#8, 1), (0x20#8, 0), (0x1A#8, 1), (0x10#8, 1)] := by
  constructor
  · intro h
    unfold dataLength at h
    split at h <;> (try simp at h) <;> subst h <;> rename_i e <;>
      (rw [show op = BitVec.ofNat 8 op.toNat by simp, e]; simp)
  · have row : ∀ e ∈ [(0x12#8, 0), (0x21#8, 2), (0x3C#8, 1), (0x11#8, 1), (0x44#8, 2), (0x45#8, 4), (0x4E#8, 1), (0x4F#8, 2),
        (0x24#8, 15000), (0x26#8, 15000), (0x22#8, 1), (0x20#8, 0), (0x1A#8, 1), (0x10#8, 1)],
        dataLength e.1 = some e.2 := by decide
    exact row (op, n)

/-- An opcode byte selects a command exactly when it has a number of data bytes. -/
theorem command_isSome (op : Byte) (data : List Byte) : (command op data).isSome = (dataLength op).isSome := by
  unfold command dataLength
  split <;> rfl

/-- A frame with its opcode's number of data bytes is decoded to the command of that opcode. -/
theorem decodeFrame_eq {op : Byte} {data : List Byte} (h : dataLength op = some data.length) :
    ∃ i, command op data = some i ∧ decode (.frame op data) = .ok i := by
  have hs := command_isSome op data
  rw [h, Option.isSome_some, Option.isSome_iff_exists] at hs
  obtain ⟨i, hi⟩ := hs
  exact ⟨i, hi, by simp [decode, decodeFrame, hi, h]⟩

/-- The command of a frame with its opcode's number of data bytes encodes back to the frame. -/
theorem encode_of_command {op : Byte} {data : List Byte} {i : Instr} (hc : command op data = some i)
    (h : dataLength op = some data.length) : encode i = .frame op data := by
  unfold command at hc
  unfold dataLength at h
  split at hc <;> cases hc <;> rename_i e <;> rw [e] at h <;> rw [show op = BitVec.ofNat 8 op.toNat by simp, e]
  all_goals
    first
    | rfl
    | simp only [Option.some.injEq, eq_comm (b := data.length), List.length_eq_succ_iff, List.length_eq_zero_iff] at h
      obtain ⟨_, _, rfl, _, _, rfl, _, _, rfl, _, _, rfl, rfl⟩ := h
      simp [encode, dataWord, dataByte]

/-- A frame that is decoded has its opcode's number of data bytes. -/
theorem dataLength_of_decode {op : Byte} {data : List Byte} {i : Instr} (h : decode (.frame op data) = .ok i) :
    dataLength op = some data.length := by
  have hs := command_isSome op data
  simp only [decode, decodeFrame] at h
  cases hc : command op data with
  | none => simp [hc] at h
  | some j =>
    rw [hc, Option.isSome_some] at hs
    obtain ⟨n, hn⟩ := Option.isSome_iff_exists.1 hs.symm
    simp only [hc, hn, Option.getD_some, hasLength_iff] at h
    split at h
    · rename_i hl
      rw [hn, hl]
    · cases h

end Sys2Proof
end

