-- ==== Sys2Proof/Laws/State.lean ====
section
/-! SUPPORT. For each update of the state one lemma per field, true by unfolding, so that no proof unfolds an update again. -/

namespace Sys2Proof.Machine

variable (s : State)

/-! ### `emit` -/

@[simp] theorem State.emit_devState (es : List Event) : (s.emit es).devState = s.devState := rfl
@[simp] theorem State.emit_mode (es : List Event) : (s.emit es).mode = s.mode := rfl
@[simp] theorem State.emit_fb (es : List Event) : (s.emit es).fb = s.fb := rfl
@[simp] theorem State.emit_fbEpoch (es : List Event) : (s.emit es).fbEpoch = s.fbEpoch := rfl
@[simp] theorem State.emit_pinRst (es : List Event) : (s.emit es).pinRst = latchAfter .rst s.pinRst es := rfl
@[simp] theorem State.emit_pinDc (es : List Event) : (s.emit es).pinDc = latchAfter .dc s.pinDc es := rfl
@[simp] theorem State.emit_pinCs (es : List Event) : (s.emit es).pinCs = latchAfter .cs s.pinCs es := rfl
@[simp] theorem State.emit_status (es : List Event) : (s.emit es).status = s.status := rfl
@[simp] theorem State.emit_active (es : List Event) : (s.emit es).active = s.active := rfl
@[simp] theorem State.emit_seq (es : List Event) : (s.emit es).seq = s.seq + es.length := rfl
@[simp] theorem State.emit_pending (es : List Event) : (s.emit es).pending = s.pending := rfl
@[simp] theorem State.emit_params (es : List Event) : (s.emit es).params = s.params := rfl
@[simp] theorem State.emit_requests (es : List Event) : (s.emit es).requests = s.requests := rfl
@[simp] theorem State.emit_resetIn (es : List Event) : (s.emit es).resetIn = s.resetIn := rfl
@[simp] theorem State.emit_busyIn (es : List Event) : (s.emit es).busyIn = s.busyIn := rfl
@[simp] theorem State.emit_busyDraws (es : List Event) : (s.emit es).busyDraws = s.busyDraws := rfl
@[simp] theorem State.emit_transportIn (es : List Event) : (s.emit es).transportIn = s.transportIn := rfl
@[simp] theorem State.emit_transportDraws (es : List Event) : (s.emit es).transportDraws = s.transportDraws := rfl
@[simp] theorem State.emit_trace (es : List Event) : (s.emit es).trace = s.trace ++ es := rfl
@[simp] theorem State.emit_responses (es : List Event) : (s.emit es).responses = s.responses := rfl

/-! ### `accept` -/

@[simp] theorem State.accept_devState : (s.accept).devState = s.devState := rfl
@[simp] theorem State.accept_mode : (s.accept).mode = s.mode := rfl
@[simp] theorem State.accept_fb : (s.accept).fb = s.fb := rfl
@[simp] theorem State.accept_fbEpoch : (s.accept).fbEpoch = s.fbEpoch := rfl
@[simp] theorem State.accept_pinRst : (s.accept).pinRst = s.pinRst := rfl
@[simp] theorem State.accept_pinDc : (s.accept).pinDc = s.pinDc := rfl
@[simp] theorem State.accept_pinCs : (s.accept).pinCs = s.pinCs := rfl
@[simp] theorem State.accept_status : (s.accept).status = s.status := rfl
@[simp] theorem State.accept_active : (s.accept).active = true := rfl
@[simp] theorem State.accept_seq : (s.accept).seq = 0 := rfl
@[simp] theorem State.accept_pending : (s.accept).pending = s.pending := rfl
@[simp] theorem State.accept_params : (s.accept).params = s.params := rfl
@[simp] theorem State.accept_requests : (s.accept).requests = s.requests := rfl
@[simp] theorem State.accept_resetIn : (s.accept).resetIn = s.resetIn := rfl
@[simp] theorem State.accept_busyIn : (s.accept).busyIn = s.busyIn := rfl
@[simp] theorem State.accept_busyDraws : (s.accept).busyDraws = s.busyDraws := rfl
@[simp] theorem State.accept_transportIn : (s.accept).transportIn = s.transportIn := rfl
@[simp] theorem State.accept_transportDraws : (s.accept).transportDraws = s.transportDraws := rfl
@[simp] theorem State.accept_trace : (s.accept).trace = s.trace := rfl
@[simp] theorem State.accept_responses : (s.accept).responses = s.responses := rfl

/-! ### `respond` -/

@[simp] theorem State.respond_devState (st : Byte) (data : List Byte) : (s.respond st data).devState = s.devState := rfl
@[simp] theorem State.respond_mode (st : Byte) (data : List Byte) : (s.respond st data).mode = s.mode := rfl
@[simp] theorem State.respond_fb (st : Byte) (data : List Byte) : (s.respond st data).fb = s.fb := rfl
@[simp] theorem State.respond_fbEpoch (st : Byte) (data : List Byte) : (s.respond st data).fbEpoch = s.fbEpoch := rfl
@[simp] theorem State.respond_pinRst (st : Byte) (data : List Byte) : (s.respond st data).pinRst = s.pinRst := rfl
@[simp] theorem State.respond_pinDc (st : Byte) (data : List Byte) : (s.respond st data).pinDc = s.pinDc := rfl
@[simp] theorem State.respond_pinCs (st : Byte) (data : List Byte) : (s.respond st data).pinCs = s.pinCs := rfl
@[simp] theorem State.respond_status (st : Byte) (data : List Byte) : (s.respond st data).status = st := rfl
@[simp] theorem State.respond_active (st : Byte) (data : List Byte) : (s.respond st data).active = false := rfl
@[simp] theorem State.respond_seq (st : Byte) (data : List Byte) : (s.respond st data).seq = 0 := rfl
@[simp] theorem State.respond_pending (st : Byte) (data : List Byte) : (s.respond st data).pending = [] := rfl
@[simp] theorem State.respond_params (st : Byte) (data : List Byte) : (s.respond st data).params = s.params := rfl
@[simp] theorem State.respond_requests (st : Byte) (data : List Byte) : (s.respond st data).requests = s.requests := rfl
@[simp] theorem State.respond_resetIn (st : Byte) (data : List Byte) : (s.respond st data).resetIn = s.resetIn := rfl
@[simp] theorem State.respond_busyIn (st : Byte) (data : List Byte) : (s.respond st data).busyIn = s.busyIn := rfl
@[simp] theorem State.respond_busyDraws (st : Byte) (data : List Byte) : (s.respond st data).busyDraws = s.busyDraws := rfl
@[simp] theorem State.respond_transportIn (st : Byte) (data : List Byte) : (s.respond st data).transportIn = s.transportIn := rfl
@[simp] theorem State.respond_transportDraws (st : Byte) (data : List Byte) : (s.respond st data).transportDraws = s.transportDraws := rfl
@[simp] theorem State.respond_trace (st : Byte) (data : List Byte) : (s.respond st data).trace = s.trace := rfl
@[simp] theorem State.respond_responses (st : Byte) (data : List Byte) : (s.respond st data).responses = s.responses ++ [⟨st, data⟩] := rfl

/-! ### `EndedWith` -/

/-- A request that does nothing but end. -/
theorem State.endedWith_respond (st : Byte) (data : List Byte) : s.EndedWith (s.accept.respond st data) st data := rfl

/-- `STATUS` after such a request. -/
theorem State.EndedWith.status_eq {s t : State} {st : Byte} {data : List Byte} (h : s.EndedWith t st data) : t.status = st := by
  rw [State.EndedWith] at h
  rw [h]

/-- Its response. -/
theorem State.EndedWith.responses_eq {s t : State} {st : Byte} {data : List Byte} (h : s.EndedWith t st data) :
    t.responses = s.responses ++ [⟨st, data⟩] := by
  rw [State.EndedWith] at h
  rw [h]

/-- The block is idle after it. -/
theorem State.EndedWith.active_eq {s t : State} {st : Byte} {data : List Byte} (h : s.EndedWith t st data) :
    t.active = false := by
  rw [State.EndedWith] at h
  rw [h]

/-! ### `fbWrite` -/

@[simp] theorem State.fbWrite_devState (k : Nat) (v : Byte) : (s.fbWrite k v).devState = s.devState := rfl
@[simp] theorem State.fbWrite_mode (k : Nat) (v : Byte) : (s.fbWrite k v).mode = s.mode := rfl
@[simp] theorem State.fbWrite_fb (k : Nat) (v : Byte) : (s.fbWrite k v).fb = s.fb.write k v := rfl
@[simp] theorem State.fbWrite_fbEpoch (k : Nat) (v : Byte) : (s.fbWrite k v).fbEpoch = s.fbEpoch := rfl
@[simp] theorem State.fbWrite_pinRst (k : Nat) (v : Byte) : (s.fbWrite k v).pinRst = s.pinRst := rfl
@[simp] theorem State.fbWrite_pinDc (k : Nat) (v : Byte) : (s.fbWrite k v).pinDc = s.pinDc := rfl
@[simp] theorem State.fbWrite_pinCs (k : Nat) (v : Byte) : (s.fbWrite k v).pinCs = s.pinCs := rfl
@[simp] theorem State.fbWrite_status (k : Nat) (v : Byte) : (s.fbWrite k v).status = s.status := rfl
@[simp] theorem State.fbWrite_active (k : Nat) (v : Byte) : (s.fbWrite k v).active = s.active := rfl
@[simp] theorem State.fbWrite_seq (k : Nat) (v : Byte) : (s.fbWrite k v).seq = s.seq := rfl
@[simp] theorem State.fbWrite_pending (k : Nat) (v : Byte) : (s.fbWrite k v).pending = s.pending := rfl
@[simp] theorem State.fbWrite_params (k : Nat) (v : Byte) : (s.fbWrite k v).params = s.params := rfl
@[simp] theorem State.fbWrite_requests (k : Nat) (v : Byte) : (s.fbWrite k v).requests = s.requests := rfl
@[simp] theorem State.fbWrite_resetIn (k : Nat) (v : Byte) : (s.fbWrite k v).resetIn = s.resetIn := rfl
@[simp] theorem State.fbWrite_busyIn (k : Nat) (v : Byte) : (s.fbWrite k v).busyIn = s.busyIn := rfl
@[simp] theorem State.fbWrite_busyDraws (k : Nat) (v : Byte) : (s.fbWrite k v).busyDraws = s.busyDraws := rfl
@[simp] theorem State.fbWrite_transportIn (k : Nat) (v : Byte) : (s.fbWrite k v).transportIn = s.transportIn := rfl
@[simp] theorem State.fbWrite_transportDraws (k : Nat) (v : Byte) : (s.fbWrite k v).transportDraws = s.transportDraws := rfl
@[simp] theorem State.fbWrite_trace (k : Nat) (v : Byte) : (s.fbWrite k v).trace = s.trace := rfl
@[simp] theorem State.fbWrite_responses (k : Nat) (v : Byte) : (s.fbWrite k v).responses = s.responses := rfl

/-! ### `fbFill` -/

@[simp] theorem State.fbFill_devState (v : Byte) : (s.fbFill v).devState = s.devState := by simp only [State.fbFill]
@[simp] theorem State.fbFill_mode (v : Byte) : (s.fbFill v).mode = s.mode := by simp only [State.fbFill]
@[simp] theorem State.fbFill_fb (v : Byte) : (s.fbFill v).fb = Memory.filled v := by simp only [State.fbFill]
@[simp] theorem State.fbFill_fbEpoch (v : Byte) : (s.fbFill v).fbEpoch = s.fbEpoch := by simp only [State.fbFill]
@[simp] theorem State.fbFill_pinRst (v : Byte) : (s.fbFill v).pinRst = s.pinRst := by simp only [State.fbFill]
@[simp] theorem State.fbFill_pinDc (v : Byte) : (s.fbFill v).pinDc = s.pinDc := by simp only [State.fbFill]
@[simp] theorem State.fbFill_pinCs (v : Byte) : (s.fbFill v).pinCs = s.pinCs := by simp only [State.fbFill]
@[simp] theorem State.fbFill_status (v : Byte) : (s.fbFill v).status = s.status := by simp only [State.fbFill]
@[simp] theorem State.fbFill_active (v : Byte) : (s.fbFill v).active = s.active := by simp only [State.fbFill]
@[simp] theorem State.fbFill_seq (v : Byte) : (s.fbFill v).seq = s.seq := by simp only [State.fbFill]
@[simp] theorem State.fbFill_pending (v : Byte) : (s.fbFill v).pending = s.pending := by simp only [State.fbFill]
@[simp] theorem State.fbFill_params (v : Byte) : (s.fbFill v).params = s.params := by simp only [State.fbFill]
@[simp] theorem State.fbFill_requests (v : Byte) : (s.fbFill v).requests = s.requests := by simp only [State.fbFill]
@[simp] theorem State.fbFill_resetIn (v : Byte) : (s.fbFill v).resetIn = s.resetIn := by simp only [State.fbFill]
@[simp] theorem State.fbFill_busyIn (v : Byte) : (s.fbFill v).busyIn = s.busyIn := by simp only [State.fbFill]
@[simp] theorem State.fbFill_busyDraws (v : Byte) : (s.fbFill v).busyDraws = s.busyDraws := by simp only [State.fbFill]
@[simp] theorem State.fbFill_transportIn (v : Byte) : (s.fbFill v).transportIn = s.transportIn := by simp only [State.fbFill]
@[simp] theorem State.fbFill_transportDraws (v : Byte) : (s.fbFill v).transportDraws = s.transportDraws := by simp only [State.fbFill]
@[simp] theorem State.fbFill_trace (v : Byte) : (s.fbFill v).trace = s.trace := by simp only [State.fbFill]
@[simp] theorem State.fbFill_responses (v : Byte) : (s.fbFill v).responses = s.responses := by simp only [State.fbFill]

/-! ### `waitDelay` -/

@[simp] theorem State.waitDelay_devState : (s.waitDelay).devState = s.devState := rfl
@[simp] theorem State.waitDelay_mode : (s.waitDelay).mode = s.mode := rfl
@[simp] theorem State.waitDelay_fb : (s.waitDelay).fb = s.fb := rfl
@[simp] theorem State.waitDelay_fbEpoch : (s.waitDelay).fbEpoch = s.fbEpoch := rfl
@[simp] theorem State.waitDelay_pinRst : (s.waitDelay).pinRst = s.pinRst := rfl
@[simp] theorem State.waitDelay_pinDc : (s.waitDelay).pinDc = s.pinDc := rfl
@[simp] theorem State.waitDelay_pinCs : (s.waitDelay).pinCs = s.pinCs := rfl
@[simp] theorem State.waitDelay_status : (s.waitDelay).status = s.status := rfl
@[simp] theorem State.waitDelay_active : (s.waitDelay).active = s.active := rfl
@[simp] theorem State.waitDelay_seq : (s.waitDelay).seq = s.seq - 1 := rfl
@[simp] theorem State.waitDelay_pending : (s.waitDelay).pending = s.pending := rfl
@[simp] theorem State.waitDelay_params : (s.waitDelay).params = s.params := rfl
@[simp] theorem State.waitDelay_requests : (s.waitDelay).requests = s.requests := rfl
@[simp] theorem State.waitDelay_resetIn : (s.waitDelay).resetIn = s.resetIn := rfl
@[simp] theorem State.waitDelay_busyIn : (s.waitDelay).busyIn = s.busyIn := rfl
@[simp] theorem State.waitDelay_busyDraws : (s.waitDelay).busyDraws = s.busyDraws := rfl
@[simp] theorem State.waitDelay_transportIn : (s.waitDelay).transportIn = s.transportIn := rfl
@[simp] theorem State.waitDelay_transportDraws : (s.waitDelay).transportDraws = s.transportDraws := rfl
@[simp] theorem State.waitDelay_trace : (s.waitDelay).trace = s.trace ++ [.delayMs Config.pollMs] := rfl
@[simp] theorem State.waitDelay_responses : (s.waitDelay).responses = s.responses := rfl

/-! ### `afterBusyReads` -/

@[simp] theorem State.afterBusyReads_devState (n : Nat) : (s.afterBusyReads n).devState = s.devState := rfl
@[simp] theorem State.afterBusyReads_mode (n : Nat) : (s.afterBusyReads n).mode = s.mode := rfl
@[simp] theorem State.afterBusyReads_fb (n : Nat) : (s.afterBusyReads n).fb = s.fb := rfl
@[simp] theorem State.afterBusyReads_fbEpoch (n : Nat) : (s.afterBusyReads n).fbEpoch = s.fbEpoch := rfl
@[simp] theorem State.afterBusyReads_pinRst (n : Nat) : (s.afterBusyReads n).pinRst = s.pinRst := rfl
@[simp] theorem State.afterBusyReads_pinDc (n : Nat) : (s.afterBusyReads n).pinDc = s.pinDc := rfl
@[simp] theorem State.afterBusyReads_pinCs (n : Nat) : (s.afterBusyReads n).pinCs = s.pinCs := rfl
@[simp] theorem State.afterBusyReads_status (n : Nat) : (s.afterBusyReads n).status = s.status := rfl
@[simp] theorem State.afterBusyReads_active (n : Nat) : (s.afterBusyReads n).active = s.active := rfl
@[simp] theorem State.afterBusyReads_seq (n : Nat) : (s.afterBusyReads n).seq = s.seq := rfl
@[simp] theorem State.afterBusyReads_pending (n : Nat) : (s.afterBusyReads n).pending = s.pending := rfl
@[simp] theorem State.afterBusyReads_params (n : Nat) : (s.afterBusyReads n).params = s.params := rfl
@[simp] theorem State.afterBusyReads_requests (n : Nat) : (s.afterBusyReads n).requests = s.requests := rfl
@[simp] theorem State.afterBusyReads_resetIn (n : Nat) : (s.afterBusyReads n).resetIn = s.resetIn := rfl
@[simp] theorem State.afterBusyReads_busyIn (n : Nat) : (s.afterBusyReads n).busyIn = s.busyIn.drop n := rfl
@[simp] theorem State.afterBusyReads_busyDraws (n : Nat) : (s.afterBusyReads n).busyDraws = s.busyDraws + (n - s.busyIn.length) := rfl
@[simp] theorem State.afterBusyReads_transportIn (n : Nat) : (s.afterBusyReads n).transportIn = s.transportIn := rfl
@[simp] theorem State.afterBusyReads_transportDraws (n : Nat) : (s.afterBusyReads n).transportDraws = s.transportDraws := rfl
@[simp] theorem State.afterBusyReads_trace (n : Nat) : (s.afterBusyReads n).trace = s.trace := rfl
@[simp] theorem State.afterBusyReads_responses (n : Nat) : (s.afterBusyReads n).responses = s.responses := rfl

/-! ### `blockReset` -/

@[simp] theorem State.blockReset_devState : (s.blockReset).devState = .uninit := rfl
@[simp] theorem State.blockReset_mode : (s.blockReset).mode = .full := rfl
@[simp] theorem State.blockReset_fb : (s.blockReset).fb = [] := rfl
@[simp] theorem State.blockReset_fbEpoch : (s.blockReset).fbEpoch = s.fbEpoch + 1 := rfl
@[simp] theorem State.blockReset_pinRst : (s.blockReset).pinRst = 1#1 := rfl
@[simp] theorem State.blockReset_pinDc : (s.blockReset).pinDc = 0#1 := rfl
@[simp] theorem State.blockReset_pinCs : (s.blockReset).pinCs = 1#1 := rfl
@[simp] theorem State.blockReset_status : (s.blockReset).status = 0#8 := rfl
@[simp] theorem State.blockReset_active : (s.blockReset).active = false := rfl
@[simp] theorem State.blockReset_seq : (s.blockReset).seq = 0 := rfl
@[simp] theorem State.blockReset_pending : (s.blockReset).pending = [] := rfl
@[simp] theorem State.blockReset_params : (s.blockReset).params = s.params := rfl
@[simp] theorem State.blockReset_requests : (s.blockReset).requests = s.requests := rfl
@[simp] theorem State.blockReset_resetIn : (s.blockReset).resetIn = none := rfl
@[simp] theorem State.blockReset_busyIn : (s.blockReset).busyIn = s.busyIn := rfl
@[simp] theorem State.blockReset_busyDraws : (s.blockReset).busyDraws = s.busyDraws := rfl
@[simp] theorem State.blockReset_transportIn : (s.blockReset).transportIn = s.transportIn := rfl
@[simp] theorem State.blockReset_transportDraws : (s.blockReset).transportDraws = s.transportDraws := rfl
@[simp] theorem State.blockReset_trace : (s.blockReset).trace = s.trace := rfl
@[simp] theorem State.blockReset_responses : (s.blockReset).responses = s.responses := rfl

/-! ### `popBusy` -/

@[simp] theorem State.popBusy_devState : (s.popBusy).devState = s.devState := by unfold State.popBusy; split <;> rfl
@[simp] theorem State.popBusy_mode : (s.popBusy).mode = s.mode := by unfold State.popBusy; split <;> rfl
@[simp] theorem State.popBusy_fb : (s.popBusy).fb = s.fb := by unfold State.popBusy; split <;> rfl
@[simp] theorem State.popBusy_fbEpoch : (s.popBusy).fbEpoch = s.fbEpoch := by unfold State.popBusy; split <;> rfl
@[simp] theorem State.popBusy_pinRst : (s.popBusy).pinRst = s.pinRst := by unfold State.popBusy; split <;> rfl
@[simp] theorem State.popBusy_pinDc : (s.popBusy).pinDc = s.pinDc := by unfold State.popBusy; split <;> rfl
@[simp] theorem State.popBusy_pinCs : (s.popBusy).pinCs = s.pinCs := by unfold State.popBusy; split <;> rfl
@[simp] theorem State.popBusy_status : (s.popBusy).status = s.status := by unfold State.popBusy; split <;> rfl
@[simp] theorem State.popBusy_active : (s.popBusy).active = s.active := by unfold State.popBusy; split <;> rfl
@[simp] theorem State.popBusy_seq : (s.popBusy).seq = s.seq := by unfold State.popBusy; split <;> rfl
@[simp] theorem State.popBusy_pending : (s.popBusy).pending = s.pending := by unfold State.popBusy; split <;> rfl
@[simp] theorem State.popBusy_params : (s.popBusy).params = s.params := by unfold State.popBusy; split <;> rfl
@[simp] theorem State.popBusy_requests : (s.popBusy).requests = s.requests := by unfold State.popBusy; split <;> rfl
@[simp] theorem State.popBusy_resetIn : (s.popBusy).resetIn = s.resetIn := by unfold State.popBusy; split <;> rfl
@[simp] theorem State.popBusy_transportIn : (s.popBusy).transportIn = s.transportIn := by unfold State.popBusy; split <;> rfl
@[simp] theorem State.popBusy_transportDraws : (s.popBusy).transportDraws = s.transportDraws := by unfold State.popBusy; split <;> rfl
@[simp] theorem State.popBusy_trace : (s.popBusy).trace = s.trace := by unfold State.popBusy; split <;> rfl
@[simp] theorem State.popBusy_responses : (s.popBusy).responses = s.responses := by unfold State.popBusy; split <;> rfl

/-! ### `popTransport` -/

@[simp] theorem State.popTransport_devState : (s.popTransport).devState = s.devState := by unfold State.popTransport; split <;> rfl
@[simp] theorem State.popTransport_mode : (s.popTransport).mode = s.mode := by unfold State.popTransport; split <;> rfl
@[simp] theorem State.popTransport_fb : (s.popTransport).fb = s.fb := by unfold State.popTransport; split <;> rfl
@[simp] theorem State.popTransport_fbEpoch : (s.popTransport).fbEpoch = s.fbEpoch := by unfold State.popTransport; split <;> rfl
@[simp] theorem State.popTransport_pinRst : (s.popTransport).pinRst = s.pinRst := by unfold State.popTransport; split <;> rfl
@[simp] theorem State.popTransport_pinDc : (s.popTransport).pinDc = s.pinDc := by unfold State.popTransport; split <;> rfl
@[simp] theorem State.popTransport_pinCs : (s.popTransport).pinCs = s.pinCs := by unfold State.popTransport; split <;> rfl
@[simp] theorem State.popTransport_status : (s.popTransport).status = s.status := by unfold State.popTransport; split <;> rfl
@[simp] theorem State.popTransport_active : (s.popTransport).active = s.active := by unfold State.popTransport; split <;> rfl
@[simp] theorem State.popTransport_seq : (s.popTransport).seq = s.seq := by unfold State.popTransport; split <;> rfl
@[simp] theorem State.popTransport_pending : (s.popTransport).pending = s.pending := by unfold State.popTransport; split <;> rfl
@[simp] theorem State.popTransport_params : (s.popTransport).params = s.params := by unfold State.popTransport; split <;> rfl
@[simp] theorem State.popTransport_requests : (s.popTransport).requests = s.requests := by unfold State.popTransport; split <;> rfl
@[simp] theorem State.popTransport_resetIn : (s.popTransport).resetIn = s.resetIn := by unfold State.popTransport; split <;> rfl
@[simp] theorem State.popTransport_busyIn : (s.popTransport).busyIn = s.busyIn := by unfold State.popTransport; split <;> rfl
@[simp] theorem State.popTransport_busyDraws : (s.popTransport).busyDraws = s.busyDraws := by unfold State.popTransport; split <;> rfl
@[simp] theorem State.popTransport_trace : (s.popTransport).trace = s.trace := by unfold State.popTransport; split <;> rfl
@[simp] theorem State.popTransport_responses : (s.popTransport).responses = s.responses := by unfold State.popTransport; split <;> rfl

/-! ### Operations made of these -/

@[simp] theorem State.raise_eq (st : Byte) : s.raise st = s.respond st [] := rfl


@[simp] theorem State.writeReg_eq (op : Byte) (bs : List Byte) : s.writeReg op bs = s.emit (writeRegEvents op bs) := rfl

@[simp] theorem State.resetPulse_eq : s.resetPulse = s.emit resetPulseEvents := rfl

@[simp] theorem State.busyRead_eq : s.busyRead = s.popBusy.emit [.busyRead s.nextBusy] := rfl

@[simp] theorem State.transportInit_eq : s.transportInit = s.popTransport.emit [.transportInit s.nextTransport] := rfl

/-- Two bursts of events are one. -/
@[simp] theorem State.emit_emit (es fs : List Event) : (s.emit es).emit fs = s.emit (es ++ fs) := by
  simp [State.emit, latchAfter, List.foldl_append, Nat.add_assoc]

@[simp] theorem State.emit_nil : s.emit [] = s := by
  simp [State.emit, latchAfter]

end Sys2Proof.Machine
end

