-- ==== Sys2Proof/Laws/Memory.lean ====
section
/-! SUPPORT. The framebuffer's written bytes: reading after writing, and that every memory operation keeps the canonical form. -/

namespace Sys2Proof.Machine

theorem Memory.read_write_same (m : Memory) (k : Nat) (v : Byte) : (m.write k v).read k = some v := by
  induction m with
  | nil => simp [Memory.write, Memory.read]
  | cons c m ih =>
    obtain ⟨a, b⟩ := c
    simp only [Memory.write]
    split
    · rw [Memory.read, if_neg (by omega), ih]
    · split <;> simp [Memory.read]

theorem Memory.read_write_other (m : Memory) (k j : Nat) (v : Byte) (h : j ≠ k) : (m.write k v).read j = m.read j := by
  induction m with
  | nil => simp [Memory.write, Memory.read, h.symm]
  | cons c m ih =>
    obtain ⟨a, b⟩ := c
    simp only [Memory.write]
    split
    · simp [Memory.read, ih]
    · split
      · subst a; simp [Memory.read, h.symm]
      · rw [Memory.read, if_neg h.symm]

/-- Reading any byte after writing one. -/
theorem Memory.read_write (m : Memory) (k j : Nat) (v : Byte) :
    (m.write k v).read j = if j = k then some v else m.read j := by
  split
  · subst j; exact Memory.read_write_same m k v
  · exact Memory.read_write_other m k j v ‹_›

theorem Memory.mem_write {m : Memory} {k : Nat} {v : Byte} {c : Host.Cell} (h : c ∈ m.write k v) : c = (k, v) ∨ c ∈ m := by
  induction m with
  | nil => simpa [Memory.write] using h
  | cons d m ih =>
    obtain ⟨a, b⟩ := d
    simp only [Memory.write] at h
    split at h
    · rcases List.mem_cons.1 h with h | h
      · exact .inr (by simp [h])
      · rcases ih h with h | h
        · exact .inl h
        · exact .inr (List.mem_cons_of_mem _ h)
    · split at h
      · rcases List.mem_cons.1 h with h | h
        · exact .inl h
        · exact .inr (List.mem_cons_of_mem _ h)
      · rcases List.mem_cons.1 h with h | h
        · exact .inl h
        · exact .inr h

/-- Writing a byte inside `FB` keeps the canonical form. -/
theorem Memory.wf_write {m : Memory} (h : m.wf) {k : Nat} (hk : k < Config.fbBytes) (v : Byte) : (m.write k v).wf := by
  refine ⟨?_, fun c hc => ?_⟩
  · have hs := h.1
    clear h
    induction m with
    | nil => simp [Memory.write]
    | cons d m ih =>
      obtain ⟨a, b⟩ := d
      simp only [List.map_cons, List.pairwise_cons, List.mem_map] at hs
      simp only [Memory.write]
      split
      · simp only [List.map_cons, List.pairwise_cons, List.mem_map]
        refine ⟨?_, ih hs.2⟩
        rintro _ ⟨c, hc, rfl⟩
        rcases Memory.mem_write hc with rfl | hc
        · assumption
        · exact hs.1 _ ⟨c, hc, rfl⟩
      · split
        · subst a
          simp only [List.map_cons, List.pairwise_cons, List.mem_map]
          exact hs
        · simp only [List.map_cons, List.pairwise_cons, List.mem_cons, List.mem_map]
          refine ⟨?_, hs⟩
          rintro _ (rfl | ⟨c, hc, rfl⟩)
          · omega
          · have := hs.1 _ ⟨c, hc, rfl⟩
            omega
  · rcases Memory.mem_write hc with rfl | hc
    · exact hk
    · exact h.2 c hc

theorem Memory.read_map_pair (l : List Nat) (v : Byte) (k : Nat) :
    Memory.read (l.map fun k => (k, v)) k = if k ∈ l then some v else none := by
  induction l with
  | nil => simp [Memory.read]
  | cons a l ih =>
    rw [List.map_cons, Memory.read, ih]
    by_cases h : a = k
    · simp [h]
    · simp [h, Ne.symm h]

/-- A table is the list of its values. -/
theorem tabulate_eq_map_range' {α : Type} (f : Nat → α) (n k : Nat) : tabulate f n k = (List.range' k n).map f := by
  induction n generalizing k with
  | zero => rfl
  | succ n ih => rw [tabulate, ih, List.range'_succ, List.map_cons]

theorem tabulate_zero {α : Type} (f : Nat → α) (n : Nat) : tabulate f n 0 = (List.range n).map f := by
  rw [tabulate_eq_map_range', List.range_eq_range']

@[simp] theorem length_tabulate {α : Type} (f : Nat → α) (n k : Nat) : (tabulate f n k).length = n := by
  simp [tabulate_eq_map_range']

theorem Memory.filled_eq (v : Byte) : Memory.filled v = (List.range Config.fbBytes).map fun k => (k, v) := tabulate_zero _ _

theorem Memory.read_filled (v : Byte) (k : Nat) :
    (Memory.filled v).read k = if k < Config.fbBytes then some v else none := by
  rw [Memory.filled_eq, Memory.read_map_pair]
  simp only [List.mem_range]

/-- A fill leaves the canonical form. -/
theorem Memory.wf_filled (v : Byte) : (Memory.filled v).wf := by
  refine ⟨?_, ?_⟩
  · rw [Memory.filled_eq, List.map_map]
    exact (List.pairwise_map.2 (List.pairwise_lt_range)).imp id
  · intro c hc
    rw [Memory.filled_eq] at hc
    obtain ⟨k, hk, rfl⟩ := List.mem_map.1 hc
    exact List.mem_range.1 hk

/-- Nothing written is in canonical form: `State.reset`'s framebuffer is. -/
theorem Memory.wf_nil : Memory.wf [] := by simp [Memory.wf]

theorem reset_fb_wf : State.reset.fb.wf := Memory.wf_nil

/-! ### `FB[k]` -/

/-- The bytes of `FB` depend on nothing but the written bytes and the reset they were drawn at. -/
theorem State.fbRead_congr {s t : State} (h : t.fb = s.fb) (he : t.fbEpoch = s.fbEpoch) (k : Nat) :
    t.fbRead k = s.fbRead k := by
  simp only [State.fbRead, h, he]

theorem State.fbRead_fbWrite (s : State) (k j : Nat) (v : Byte) :
    (s.fbWrite k v).fbRead j = if j = k then v else s.fbRead j := by
  simp only [State.fbRead, State.fbWrite, Memory.read_write]
  split <;> rfl

theorem State.fbRead_fbFill (s : State) (v : Byte) {k : Nat} (hk : k < Config.fbBytes) : (s.fbFill v).fbRead k = v := by
  simp [State.fbRead, Memory.read_filled, Config.fbBytes_eq ▸ hk]

section
variable (s : State)

@[simp] theorem State.fbRead_emit (es : List Event) : (s.emit es).fbRead = s.fbRead := rfl

@[simp] theorem State.fbRead_accept : s.accept.fbRead = s.fbRead := rfl

@[simp] theorem State.fbRead_respond (st : Byte) (data : List Byte) : (s.respond st data).fbRead = s.fbRead := rfl

@[simp] theorem State.fbRead_afterBusyReads (n : Nat) : (s.afterBusyReads n).fbRead = s.fbRead := rfl

@[simp] theorem State.fbRead_popTransport : s.popTransport.fbRead = s.fbRead :=
  funext (State.fbRead_congr (by simp) (by simp))

theorem State.fbBytes_eq : s.fbBytes = (List.range 15000).map s.fbRead := tabulate_zero _ _

/-- A framebuffer filled with `v` reads as `v` everywhere. -/
theorem State.fbBytes_fbFill (v : Byte) : (s.fbFill v).fbBytes = List.replicate 15000 v := by
  rw [List.eq_replicate_iff, State.fbBytes_eq]
  refine ⟨by simp, fun b hb => ?_⟩
  obtain ⟨k, hk, rfl⟩ := List.mem_map.1 hb
  exact State.fbRead_fbFill s v (List.mem_range.1 hk)

end

/-- A framebuffer filled with 0xFF is all white. -/
@[simp] theorem State.fbBytes_fbFill_white (s : State) : (s.fbFill 0xFF#8).fbBytes = whitePlane := s.fbBytes_fbFill _

@[simp] theorem State.length_fbBytes (s : State) : s.fbBytes.length = Config.fbBytes := by simp [State.fbBytes]

theorem State.fbBytes_congr {s t : State} (h : t.fb = s.fb) (he : t.fbEpoch = s.fbEpoch) : t.fbBytes = s.fbBytes :=
  congrArg (tabulate · _ _) (funext (State.fbRead_congr h he))

end Sys2Proof.Machine
end

