-- ==== Sys2Proof/Laws/Framebuffer.lean ====
section
/-! SUPPORT. What `Merge` does, said once: to the pixels, to the bytes, to the canonical form, and to nothing else. -/

namespace Sys2Proof.Machine

/-- The bounds rule in numerals (40_framebuffer.md R131). -/
theorem insidePanel_iff (x y w h : Nat) : insidePanel x y w h ↔ x + w ≤ 400 ∧ y + h ≤ 300 := Iff.rfl

theorem not_insidePanel_iff (x y w h : Nat) : ¬ insidePanel x y w h ↔ 400 < x + w ∨ 300 < y + h := by
  rw [insidePanel_iff]
  omega

/-! ### Nothing but `FB` changes -/

/-- `t` is `s` but for the written bytes of the framebuffer. -/
abbrev State.OnlyFb (s t : State) : Prop := t = { s with fb := t.fb }

theorem State.OnlyFb.trans {s t u : State} (h : s.OnlyFb t) (h' : t.OnlyFb u) : s.OnlyFb u := by
  rw [State.OnlyFb, h', h]

theorem State.putPixel_onlyFb (s : State) (px py : Nat) (c : Bool) : s.OnlyFb (s.putPixel px py c) := by
  cases c <;> rfl

theorem State.foldl_onlyFb {α : Type} (f : State → α → State) (hf : ∀ (s : State) (a : α), s.OnlyFb (f s a)) (l : List α) (s : State) :
    s.OnlyFb (l.foldl f s) := by
  induction l generalizing s with
  | nil => rfl
  | cons a l ih => exact (hf s a).trans (ih (f s a))

theorem State.mergeRow_onlyFb (x y w : Nat) (src : Nat → Nat → Bool) (s : State) (j : Nat) :
    s.OnlyFb (State.mergeRow x y w src s j) :=
  State.foldl_onlyFb _ (fun s _ => s.putPixel_onlyFb _ _ _) _ s

/-- A merge changes nothing but the written bytes of the framebuffer (40_framebuffer.md R133). -/
theorem State.mergeRect_onlyFb (x y w h : Nat) (src : Nat → Nat → Bool) (s : State) :
    s.OnlyFb (State.mergeRect x y w h src s) :=
  State.foldl_onlyFb _ (State.mergeRow_onlyFb x y w src) _ s

section
variable (x y w h : Nat) (src : Nat → Nat → Bool) (s : State)

@[simp] theorem State.mergeRect_devState : (State.mergeRect x y w h src s).devState = s.devState :=
  (congrArg State.devState (State.mergeRect_onlyFb x y w h src s)).trans rfl

@[simp] theorem State.mergeRect_mode : (State.mergeRect x y w h src s).mode = s.mode :=
  (congrArg State.mode (State.mergeRect_onlyFb x y w h src s)).trans rfl

@[simp] theorem State.mergeRect_fbEpoch : (State.mergeRect x y w h src s).fbEpoch = s.fbEpoch :=
  (congrArg State.fbEpoch (State.mergeRect_onlyFb x y w h src s)).trans rfl

@[simp] theorem State.mergeRect_pinRst : (State.mergeRect x y w h src s).pinRst = s.pinRst :=
  (congrArg State.pinRst (State.mergeRect_onlyFb x y w h src s)).trans rfl

@[simp] theorem State.mergeRect_pinDc : (State.mergeRect x y w h src s).pinDc = s.pinDc :=
  (congrArg State.pinDc (State.mergeRect_onlyFb x y w h src s)).trans rfl

@[simp] theorem State.mergeRect_pinCs : (State.mergeRect x y w h src s).pinCs = s.pinCs :=
  (congrArg State.pinCs (State.mergeRect_onlyFb x y w h src s)).trans rfl

@[simp] theorem State.mergeRect_status : (State.mergeRect x y w h src s).status = s.status :=
  (congrArg State.status (State.mergeRect_onlyFb x y w h src s)).trans rfl

@[simp] theorem State.mergeRect_active : (State.mergeRect x y w h src s).active = s.active :=
  (congrArg State.active (State.mergeRect_onlyFb x y w h src s)).trans rfl

@[simp] theorem State.mergeRect_seq : (State.mergeRect x y w h src s).seq = s.seq :=
  (congrArg State.seq (State.mergeRect_onlyFb x y w h src s)).trans rfl

@[simp] theorem State.mergeRect_pending : (State.mergeRect x y w h src s).pending = s.pending :=
  (congrArg State.pending (State.mergeRect_onlyFb x y w h src s)).trans rfl

@[simp] theorem State.mergeRect_params : (State.mergeRect x y w h src s).params = s.params :=
  (congrArg State.params (State.mergeRect_onlyFb x y w h src s)).trans rfl

@[simp] theorem State.mergeRect_requests : (State.mergeRect x y w h src s).requests = s.requests :=
  (congrArg State.requests (State.mergeRect_onlyFb x y w h src s)).trans rfl

@[simp] theorem State.mergeRect_resetIn : (State.mergeRect x y w h src s).resetIn = s.resetIn :=
  (congrArg State.resetIn (State.mergeRect_onlyFb x y w h src s)).trans rfl

@[simp] theorem State.mergeRect_busyIn : (State.mergeRect x y w h src s).busyIn = s.busyIn :=
  (congrArg State.busyIn (State.mergeRect_onlyFb x y w h src s)).trans rfl

@[simp] theorem State.mergeRect_busyDraws : (State.mergeRect x y w h src s).busyDraws = s.busyDraws :=
  (congrArg State.busyDraws (State.mergeRect_onlyFb x y w h src s)).trans rfl

@[simp] theorem State.mergeRect_transportIn : (State.mergeRect x y w h src s).transportIn = s.transportIn :=
  (congrArg State.transportIn (State.mergeRect_onlyFb x y w h src s)).trans rfl

@[simp] theorem State.mergeRect_transportDraws : (State.mergeRect x y w h src s).transportDraws = s.transportDraws :=
  (congrArg State.transportDraws (State.mergeRect_onlyFb x y w h src s)).trans rfl

@[simp] theorem State.mergeRect_trace : (State.mergeRect x y w h src s).trace = s.trace :=
  (congrArg State.trace (State.mergeRect_onlyFb x y w h src s)).trans rfl

@[simp] theorem State.mergeRect_responses : (State.mergeRect x y w h src s).responses = s.responses :=
  (congrArg State.responses (State.mergeRect_onlyFb x y w h src s)).trans rfl

end

/-! ### Pixels -/

theorem pixelMask_bit : ∀ r < 8, ∀ q < 8, (0x80#8 >>> r).getLsbD (7 - q) = decide (q = r) := by decide

theorem or_pixelMask (b : Byte) (px qx : Nat) :
    (b ||| pixelMask px).getLsbD (7 - qx % 8) = if qx % 8 = px % 8 then true else b.getLsbD (7 - qx % 8) := by
  rw [BitVec.getLsbD_or, pixelMask, pixelMask_bit _ (Nat.mod_lt _ (by omega)) _ (Nat.mod_lt _ (by omega))]
  split <;> simp [*]

theorem and_not_pixelMask (b : Byte) (px qx : Nat) :
    (b &&& ~~~pixelMask px).getLsbD (7 - qx % 8) = if qx % 8 = px % 8 then false else b.getLsbD (7 - qx % 8) := by
  rw [BitVec.getLsbD_and, BitVec.getLsbD_not, pixelMask,
    pixelMask_bit _ (Nat.mod_lt _ (by omega)) _ (Nat.mod_lt _ (by omega))]
  have : 7 - qx % 8 < 8 := by omega
  split <;> simp [*]

/-- Setting one pixel sets that pixel and leaves every other pixel of the panel alone. -/
theorem State.pixel_putPixel (s : State) {px qx : Nat} (py qy : Nat) (c : Bool) (hp : px < Config.width)
    (hq : qx < Config.width) :
    (s.putPixel px py c).pixel qx qy = if qx = px ∧ qy = py then c else s.pixel qx qy := by
  simp only [Config.width_eq] at hp hq
  have hidx : pixelIndex qx qy = pixelIndex px py ↔ qy = py ∧ qx / 8 = px / 8 := by
    simp only [pixelIndex, Config.bpr_eq]
    omega
  by_cases hi : pixelIndex qx qy = pixelIndex px py
  · have hxy : qx % 8 = px % 8 ↔ (qx = px ∧ qy = py) := by
      have := hidx.1 hi
      omega
    cases c <;>
      simp only [State.pixel, State.putPixel, State.fbRead_fbWrite, hi, if_true, if_false, or_pixelMask,
        and_not_pixelMask, hxy, Bool.false_eq_true]
  · have hxy : ¬ (qx = px ∧ qy = py) := by
      rintro ⟨rfl, rfl⟩
      exact hi rfl
    cases c <;> simp [State.pixel, State.putPixel, State.fbRead_fbWrite, hi, hxy]

theorem State.pixel_mergeRow (x y : Nat) (src : Nat → Nat → Bool) (s : State) (j qx qy w : Nat)
    (hw : x + w ≤ Config.width) (hq : qx < Config.width) :
    (State.mergeRow x y w src s j).pixel qx qy =
      if x ≤ qx ∧ qx < x + w ∧ qy = y + j then src (qx - x) j else s.pixel qx qy := by
  induction w with
  | zero =>
    rw [State.mergeRow, List.range_zero, List.foldl_nil, if_neg (by omega)]
  | succ w ih =>
    rw [State.mergeRow, List.range_succ, List.foldl_append, List.foldl_cons, List.foldl_nil,
      State.pixel_putPixel _ _ _ _ (by omega) hq]
    rw [State.mergeRow] at ih
    rw [ih (by omega)]
    by_cases h : qx = x + w ∧ qy = y + j
    · rw [if_pos h, if_pos (by omega), h.1, Nat.add_sub_cancel_left]
    · rw [if_neg h]
      exact if_congr (by omega) rfl rfl

/-- `Merge` gives every pixel of the rectangle its source pixel and leaves every other pixel of the panel alone
(40_framebuffer.md R132, R134). -/
theorem State.pixel_mergeRect (x y w : Nat) (src : Nat → Nat → Bool) (s : State) (qx qy h : Nat)
    (hw : x + w ≤ Config.width) (hq : qx < Config.width) :
    (State.mergeRect x y w h src s).pixel qx qy =
      if x ≤ qx ∧ qx < x + w ∧ y ≤ qy ∧ qy < y + h then src (qx - x) (qy - y) else s.pixel qx qy := by
  induction h with
  | zero =>
    rw [State.mergeRect, List.range_zero, List.foldl_nil, if_neg (by omega)]
  | succ h ih =>
    rw [State.mergeRect, List.range_succ, List.foldl_append, List.foldl_cons, List.foldl_nil,
      State.pixel_mergeRow _ _ _ _ _ _ _ _ hw hq]
    rw [State.mergeRect] at ih
    rw [ih]
    by_cases hc : x ≤ qx ∧ qx < x + w ∧ qy = y + h
    · rw [if_pos hc, if_pos (by omega), hc.2.2, Nat.add_sub_cancel_left]
    · rw [if_neg hc]
      exact if_congr (by omega) rfl rfl

/-! ### Bytes -/

theorem State.fbRead_putPixel_other (s : State) (px py k : Nat) (c : Bool) (hk : pixelIndex px py ≠ k) :
    (s.putPixel px py c).fbRead k = s.fbRead k := by
  cases c <;> simp [State.putPixel, State.fbRead_fbWrite, hk.symm]

theorem State.fbRead_mergeRow_other (x y w : Nat) (src : Nat → Nat → Bool) (s : State) (j k : Nat)
    (hk : ∀ i < w, pixelIndex (x + i) (y + j) ≠ k) : (State.mergeRow x y w src s j).fbRead k = s.fbRead k := by
  induction w with
  | zero => rfl
  | succ w ih =>
    rw [State.mergeRow, List.range_succ, List.foldl_append, List.foldl_cons, List.foldl_nil,
      State.fbRead_putPixel_other _ _ _ _ _ (hk w (by omega))]
    exact ih fun i hi => hk i (by omega)

/-- `Merge` leaves every byte without a pixel of the rectangle alone. -/
theorem State.fbRead_mergeRect_other (x y w : Nat) (src : Nat → Nat → Bool) (s : State) (k h : Nat)
    (hk : ∀ i < w, ∀ j < h, pixelIndex (x + i) (y + j) ≠ k) : (State.mergeRect x y w h src s).fbRead k = s.fbRead k := by
  induction h with
  | zero => rfl
  | succ h ih =>
    rw [State.mergeRect, List.range_succ, List.foldl_append, List.foldl_cons, List.foldl_nil,
      State.fbRead_mergeRow_other _ _ _ _ _ _ _ fun i hi => hk i hi h (by omega)]
    exact ih fun i hi j hj => hk i hi j (by omega)

/-- A byte of `FB` is its eight pixels (20_memory.md R61). -/
theorem State.fbRead_getLsbD (s : State) (k b : Nat) (hb : b < 8) :
    (s.fbRead k).getLsbD (7 - b) = s.pixel (k % 50 * 8 + b) (k / 50) := by
  have h1 : pixelIndex (k % 50 * 8 + b) (k / 50) = k := by
    simp only [pixelIndex, Config.bpr_eq]
    omega
  have h2 : (k % 50 * 8 + b) % 8 = b := by omega
  rw [State.pixel, h1, h2]

/-- Two bytes of a framebuffer whose eight pixels agree are equal. -/
theorem byte_ext {a b : Byte} (h : ∀ q < 8, a.getLsbD (7 - q) = b.getLsbD (7 - q)) : a = b := by
  refine BitVec.eq_of_getLsbD_eq fun i hi => ?_
  have := h (7 - i) (by omega)
  rwa [show 7 - (7 - i) = i by omega] at this

/-! ### The canonical form -/

theorem State.wf_putPixel (s : State) (px py : Nat) (c : Bool) (h : s.fb.wf) (hp : px < Config.width)
    (hy : py < Config.height) : (s.putPixel px py c).fb.wf := by
  have hk : pixelIndex px py < Config.fbBytes := by
    simp only [Config.width_eq, Config.height_eq, pixelIndex, Config.bpr_eq, Config.fbBytes_eq] at *
    omega
  cases c <;> exact Memory.wf_write h hk _

theorem State.wf_mergeRow (x y w : Nat) (src : Nat → Nat → Bool) (s : State) (j : Nat) (h : s.fb.wf)
    (hx : x + w ≤ Config.width) (hy : y + j < Config.height) : (State.mergeRow x y w src s j).fb.wf := by
  induction w with
  | zero => exact h
  | succ w ih =>
    rw [State.mergeRow, List.range_succ, List.foldl_append, List.foldl_cons, List.foldl_nil]
    exact State.wf_putPixel _ _ _ _ (ih (by omega)) (by omega) hy

/-- A merge inside the panel keeps the canonical form. -/
theorem State.wf_mergeRect (x y w : Nat) (src : Nat → Nat → Bool) (s : State) (h : Nat) (hs : s.fb.wf)
    (hx : x + w ≤ Config.width) (hy : y + h ≤ Config.height) : (State.mergeRect x y w h src s).fb.wf := by
  induction h with
  | zero => exact hs
  | succ h ih =>
    rw [State.mergeRect, List.range_succ, List.foldl_append, List.foldl_cons, List.foldl_nil]
    exact State.wf_mergeRow _ _ _ _ _ _ (ih (by omega)) hx (by omega)

end Sys2Proof.Machine
end

