-- ==== Sys2Proof/Laws/PerInstr.lean ====
section
/-! SUPPORT. The per-instruction family `LengthFits`: an instruction is well-formed exactly when its encoded form has the length
its first word or byte requires (30_encoding.md R99, R102). One lemma for each constructor of `Instr`. -/

namespace Sys2Proof.Laws.LengthFits

/-- The payload of a request is as long as its word requires; a frame has as many data bytes as its opcode takes. -/
def Statement (i : Instr) : Prop :=
  i.wellFormed = true ↔
    match encode i with
    | .request r => r.payload.length = payloadLength r.word
    | .frame op data => dataLength op = some data.length

/-- A request without a payload. -/
theorem of_request {i : Instr} {op : BitVec 4} {f0 f1 : Bool} {x y w h : Coord}
    (he : encode i = .request ⟨requestWord op f0 f1 x y w h, []⟩) (hw : i.wellFormed = true)
    (hl : payloadLength (requestWord op f0 f1 x y w h) = 0) : Statement i := by
  rw [Statement, he, hw]
  simp [hl]

theorem init : ∀ p g, Statement (.init p g) := fun p g => of_request rfl rfl (by simp [payloadLength])

theorem initFast : ∀ p g, Statement (.initFast p g) := fun p g => of_request rfl rfl (by simp [payloadLength])

theorem clear : Statement .clear := of_request rfl rfl (by simp [payloadLength])

theorem displayFull : Statement .displayFull := of_request rfl rfl (by simp [payloadLength])

theorem displayPartial : Statement .displayPartial := of_request rfl rfl (by simp [payloadLength])

theorem draw : ∀ x y w h payload, Statement (.draw x y w h payload) := fun _ _ _ _ _ => by
  simp [Statement, encode, Instr.wellFormed, payloadLength, hasLength_iff]

theorem fill : ∀ c t, Statement (.fill c t) := fun c t => of_request rfl rfl (by simp [payloadLength])

theorem sleep : Statement .sleep := of_request rfl rfl (by simp [payloadLength])

theorem merge : ∀ x y w h payload, Statement (.merge x y w h payload) := fun _ _ _ _ _ => by
  simp [Statement, encode, Instr.wellFormed, payloadLength, hasLength_iff]

theorem toBitmap : Statement .toBitmap := of_request rfl rfl (by simp [payloadLength])

theorem fbFill : ∀ c, Statement (.fbFill c) := fun c => of_request rfl rfl (by simp [payloadLength])

theorem ctrlSwReset : Statement .ctrlSwReset := ⟨fun _ => rfl, fun _ => rfl⟩

theorem ctrlUpdateCtrl1 : ∀ d0 d1, Statement (.ctrlUpdateCtrl1 d0 d1) := fun _ _ => ⟨fun _ => rfl, fun _ => rfl⟩

theorem ctrlBorderWaveform : ∀ d, Statement (.ctrlBorderWaveform d) := fun _ => ⟨fun _ => rfl, fun _ => rfl⟩

theorem ctrlDataEntry : ∀ d, Statement (.ctrlDataEntry d) := fun _ => ⟨fun _ => rfl, fun _ => rfl⟩

theorem ctrlRamXWindow : ∀ xs xe, Statement (.ctrlRamXWindow xs xe) := fun _ _ => ⟨fun _ => rfl, fun _ => rfl⟩

theorem ctrlRamYWindow : ∀ ys ye, Statement (.ctrlRamYWindow ys ye) := fun _ _ => ⟨fun _ => rfl, fun _ => rfl⟩

theorem ctrlRamXCounter : ∀ x, Statement (.ctrlRamXCounter x) := fun _ => ⟨fun _ => rfl, fun _ => rfl⟩

theorem ctrlRamYCounter : ∀ y, Statement (.ctrlRamYCounter y) := fun _ => ⟨fun _ => rfl, fun _ => rfl⟩

theorem ctrlWriteRamPrimary : ∀ plane, Statement (.ctrlWriteRamPrimary plane) := fun plane => by
  rw [Statement, Instr.wellFormed, hasLength_iff]
  exact ⟨fun h => congrArg some h.symm, fun h => (Option.some.inj h).symm⟩

theorem ctrlWriteRamSecondary : ∀ plane, Statement (.ctrlWriteRamSecondary plane) := fun plane => by
  rw [Statement, Instr.wellFormed, hasLength_iff]
  exact ⟨fun h => congrArg some h.symm, fun h => (Option.some.inj h).symm⟩

theorem ctrlUpdateCtrl2 : ∀ a, Statement (.ctrlUpdateCtrl2 a) := fun _ => ⟨fun _ => rfl, fun _ => rfl⟩

theorem ctrlMasterActivate : Statement .ctrlMasterActivate := ⟨fun _ => rfl, fun _ => rfl⟩

theorem ctrlLoadTemperature : ∀ d, Statement (.ctrlLoadTemperature d) := fun _ => ⟨fun _ => rfl, fun _ => rfl⟩

theorem ctrlDeepSleep : ∀ d, Statement (.ctrlDeepSleep d) := fun _ => ⟨fun _ => rfl, fun _ => rfl⟩

end Sys2Proof.Laws.LengthFits
end

