-- ==== Sys2Proof/Laws/Sequencer.lean ====
section
/-! SUPPORT. What events, busy reads, operations and programs of the sequencer do, said once. -/

namespace Sys2Proof.Machine

/-! ### Pin latches -/

@[simp] theorem latchAfter_nil (p : Pin) (l : Level) : latchAfter p l [] = l := rfl

@[simp] theorem latchAfter_cons (p : Pin) (l : Level) (e : Event) (es : List Event) :
    latchAfter p l (e :: es) = latchAfter p (e.latch p l) es := rfl

@[simp] theorem latchAfter_append (p : Pin) (l : Level) (es fs : List Event) :
    latchAfter p l (es ++ fs) = latchAfter p (latchAfter p l es) fs := List.foldl_append

@[simp] theorem latchAfter_map_xfer (p : Pin) (l : Level) (bs : List Byte) : latchAfter p l (bs.map .xfer) = l := by
  induction bs with
  | nil => rfl
  | cons b bs ih => exact ih

/-- A frame leaves the reset line alone. -/
@[simp] theorem latchAfter_rst_writeReg (l : Level) (op : Byte) (bs : List Byte) :
    latchAfter .rst l (writeRegEvents op bs) = l := by
  unfold writeRegEvents
  split <;> simp [sendCommand, sendData, Event.latch]

/-- A frame leaves chip-select deasserted. -/
@[simp] theorem latchAfter_cs_writeReg (l : Level) (op : Byte) (bs : List Byte) :
    latchAfter .cs l (writeRegEvents op bs) = Config.csDeassert := by
  unfold writeRegEvents
  split <;> simp [sendCommand, sendData, Event.latch]

/-- A frame leaves DC at the level of its last window. -/
@[simp] theorem latchAfter_dc_writeReg (l : Level) (op : Byte) (bs : List Byte) :
    latchAfter .dc l (writeRegEvents op bs) = if bs = [] then Config.dcCmd else Config.dcData := by
  unfold writeRegEvents
  split <;> simp [sendCommand, sendData, Event.latch]

/-- The number of events of a frame (41_command_encoder.md R165). -/
theorem length_writeRegEvents (op : Byte) (bs : List Byte) :
    (writeRegEvents op bs).length = if bs = [] then 4 else 4 + (bs.length + 3) := by
  unfold writeRegEvents
  split <;> simp [sendCommand, sendData]
  omega

/-! ### Busy reads -/

theorem State.nextBusy_eq (s : State) : s.nextBusy = s.busyAt 0 := by
  unfold State.nextBusy State.busyAt
  cases s.busyIn <;> simp

theorem State.busyAt_popBusy (s : State) (k : Nat) : s.popBusy.busyAt k = s.busyAt (k + 1) := by
  unfold State.popBusy State.busyAt
  cases s.busyIn with
  | nil =>
    simp
    congr 1
    omega
  | cons l ls => simp

theorem State.popBusy_eq (s : State) : s.popBusy = s.afterBusyReads 1 := by
  unfold State.popBusy State.afterBusyReads
  cases h : s.busyIn with
  | nil => simp
  | cons l ls => simp

theorem State.afterBusyReads_zero (s : State) : s.afterBusyReads 0 = s := by simp [State.afterBusyReads]

theorem State.afterBusyReads_add (s : State) (a b : Nat) :
    (s.afterBusyReads a).afterBusyReads b = s.afterBusyReads (a + b) := by
  unfold State.afterBusyReads
  simp
  omega

theorem State.busyAt_afterBusyReads (s : State) (n k : Nat) : (s.afterBusyReads n).busyAt k = s.busyAt (n + k) := by
  induction n generalizing s with
  | zero => rw [State.afterBusyReads_zero, Nat.zero_add]
  | succ n ih =>
    rw [Nat.add_comm n 1, ← State.afterBusyReads_add, ih, ← State.popBusy_eq, State.busyAt_popBusy]
    congr 1
    omega

/-- The levels to come depend on the environment's inputs alone. -/
theorem State.busyAt_congr {s t : State} (h : t.busyIn = s.busyIn) (h' : t.busyDraws = s.busyDraws) (k : Nat) :
    t.busyAt k = s.busyAt k := by
  simp only [State.busyAt, h, h']

section
variable (s : State) (k : Nat)

@[simp] theorem State.busyAt_emit (es : List Event) : (s.emit es).busyAt k = s.busyAt k := rfl

@[simp] theorem State.busyAt_waitDelay : s.waitDelay.busyAt k = s.busyAt k := rfl

@[simp] theorem State.nextBusy_waitDelay : s.waitDelay.nextBusy = s.nextBusy := rfl

@[simp] theorem State.busyAt_accept : s.accept.busyAt k = s.busyAt k := rfl

@[simp] theorem State.busyAt_popTransport : s.popTransport.busyAt k = s.busyAt k :=
  State.busyAt_congr (by simp) (by simp) k

@[simp] theorem State.busyAt_fbFill (v : Byte) : (s.fbFill v).busyAt k = s.busyAt k := State.busyAt_congr (by simp) (by simp) k

@[simp] theorem State.busyAt_mergeRect (x y w h : Nat) (src : Nat → Nat → Bool) :
    (s.mergeRect x y w h src).busyAt k = s.busyAt k := State.busyAt_congr (by simp) (by simp) k

end

theorem State.busyNext_eq (s : State) : s.busyNext = (s.busyAt 0 == s.params.busyLevel) := by
  rw [State.busyNext, State.nextBusy_eq]

/-! ### Programs -/

section
variable (rest : List SeqOp) (s : State)

@[simp] theorem drain_nil : drain [] s = s.respond Status.ok [] := rfl

@[simp] theorem drain_frame (op : Byte) (bs : List Byte) :
    drain (.frame op bs :: rest) s = drain rest (s.emit (writeRegEvents op bs)) := rfl

@[simp] theorem drain_plane (op : Byte) :
    drain (.plane op :: rest) s = drain rest (s.emit (writeRegEvents op s.fbBytes)) := rfl

@[simp] theorem drain_resetPulse : drain (.resetPulse :: rest) s = drain rest (s.emit resetPulseEvents) := rfl

@[simp] theorem drain_fbFill (v : Byte) : drain (.fbFill v :: rest) s = drain rest (s.fbFill v) := rfl

@[simp] theorem drain_mergeSolid (y h : Nat) (c : Bool) :
    drain (.mergeSolid y h c :: rest) s = drain rest (s.mergeRect 0 y Config.width h fun _ _ => c) := rfl

@[simp] theorem drain_setMode (m : Mode) : drain (.setMode m :: rest) s = drain rest { s with mode := m } := rfl

@[simp] theorem drain_setDevState (d : DevState) :
    drain (.setDevState d :: rest) s = drain rest { s with devState := d } := rfl

theorem drain_poll :
    drain (.poll :: rest) s = if s.busyNext then s.waitStep rest else drain rest s.busyRead := rfl

theorem drain_repoll :
    drain (.repoll :: rest) s =
      if s.waitDelay.busyNext then s.waitDelay.waitStep rest else drain rest s.waitDelay.busyRead := rfl

/-- A `WaitIdle()` that reads the not-busy level at once (42_reset_sequencer.md R203, the case `k = 0`). -/
theorem drain_poll_idle (h : s.busyAt 0 ≠ s.params.busyLevel) :
    drain (.poll :: rest) s = drain rest ((s.afterBusyReads 1).emit [.busyRead (s.busyAt 0)]) := by
  rw [drain_poll, State.busyNext_eq, if_neg (by simpa using h), State.busyRead_eq, State.popBusy_eq, State.nextBusy_eq]

/-- A `WaitIdle()` that reads the busy level leaves the rest of the program waiting. -/
theorem drain_poll_busy (h : s.busyAt 0 = s.params.busyLevel) :
    drain (.poll :: rest) s =
      { (s.afterBusyReads 1).emit [.busyRead (s.busyAt 0)] with pending := .repoll :: rest } := by
  rw [drain_poll, State.waitStep, State.busyNext_eq, h, beq_self_eq_true, if_pos rfl, if_pos rfl, State.busyRead_eq,
    State.popBusy_eq, State.nextBusy_eq, h]

/-- The one read of `State.waitStep`, in the terms of `State.busyAt`. -/
theorem State.waitStep_eq :
    s.waitStep rest = { (s.afterBusyReads 1).emit [.busyRead (s.busyAt 0)] with
      pending := if s.busyAt 0 = s.params.busyLevel then .repoll :: rest else rest } := by
  rw [State.waitStep, State.busyNext_eq, State.busyRead_eq, State.popBusy_eq, State.nextBusy_eq]
  by_cases h : s.busyAt 0 = s.params.busyLevel <;> simp [h]

end

/-! ### What a step of the sequencer can change -/

/-- `t` comes from `s` by the events `es`: they are appended, the pin latches follow them, and the parameters, the waiting
requests, the reset input and the draw of `FB` stay. -/
structure State.Emits (s t : State) (es : List Event) : Prop where
  trace : t.trace = s.trace ++ es
  pinRst : t.pinRst = latchAfter .rst s.pinRst es
  pinDc : t.pinDc = latchAfter .dc s.pinDc es
  pinCs : t.pinCs = latchAfter .cs s.pinCs es
  params : t.params = s.params
  requests : t.requests = s.requests
  resetIn : t.resetIn = s.resetIn
  fbEpoch : t.fbEpoch = s.fbEpoch

theorem State.Emits.refl (s : State) : s.Emits s [] := by constructor <;> simp

theorem State.Emits.trans {s t u : State} {es fs : List Event} (h : s.Emits t es) (h' : t.Emits u fs) :
    s.Emits u (es ++ fs) := by
  constructor
  · rw [h'.trace, h.trace, List.append_assoc]
  · rw [h'.pinRst, h.pinRst, latchAfter_append]
  · rw [h'.pinDc, h.pinDc, latchAfter_append]
  · rw [h'.pinCs, h.pinCs, latchAfter_append]
  · rw [h'.params, h.params]
  · rw [h'.requests, h.requests]
  · rw [h'.resetIn, h.resetIn]
  · rw [h'.fbEpoch, h.fbEpoch]

theorem State.emits_emit (s : State) (es : List Event) : s.Emits (s.emit es) es := by constructor <;> simp

/-- A change of the fields that `State.Emits` does not speak of. -/
theorem State.Emits.of_eq {s t u : State} {es : List Event} (h : s.Emits t es) (h1 : u.trace = t.trace)
    (h2 : u.pinRst = t.pinRst) (h3 : u.pinDc = t.pinDc) (h4 : u.pinCs = t.pinCs) (h5 : u.params = t.params)
    (h6 : u.requests = t.requests) (h7 : u.resetIn = t.resetIn) (h8 : u.fbEpoch = t.fbEpoch) : s.Emits u es := by
  constructor
  · rw [h1, h.trace]
  · rw [h2, h.pinRst]
  · rw [h3, h.pinDc]
  · rw [h4, h.pinCs]
  · rw [h5, h.params]
  · rw [h6, h.requests]
  · rw [h7, h.resetIn]
  · rw [h8, h.fbEpoch]

/-- The events of one operation. -/
def SeqOp.events : SeqOp → State → List Event
  | .frame op bs, _ => writeRegEvents op bs
  | .plane op, s => writeRegEvents op s.fbBytes
  | .resetPulse, _ => resetPulseEvents
  | .poll, s => [.busyRead s.nextBusy]
  | .repoll, s => [.delayMs Config.pollMs, .busyRead s.nextBusy]
  | .fbFill _, _ => []
  | .mergeSolid _ _ _, _ => []
  | .setMode _, _ => []
  | .setDevState _, _ => []

/-- An operation makes its events, and ends no request. -/
theorem SeqOp.effect_emits (op : SeqOp) (s : State) : s.Emits (op.effect s) (op.events s) := by
  cases op
  case frame op bs => exact s.emits_emit _
  case plane op => exact s.emits_emit _
  case resetPulse => exact s.emits_emit _
  all_goals constructor <;> simp [SeqOp.effect, SeqOp.events, Event.latch]

theorem SeqOp.effect_keeps (op : SeqOp) (s : State) :
    (op.effect s).active = s.active ∧ (op.effect s).responses = s.responses ∧ (op.effect s).status = s.status ∧
      (op.effect s).transportIn = s.transportIn ∧ (op.effect s).transportDraws = s.transportDraws := by
  have h (es : List Event) : (s.emit es).active = s.active ∧ (s.emit es).responses = s.responses ∧
      (s.emit es).status = s.status ∧ (s.emit es).transportIn = s.transportIn ∧
      (s.emit es).transportDraws = s.transportDraws := ⟨rfl, rfl, rfl, rfl, rfl⟩
  cases op
  case frame op bs => exact h _
  case plane op => exact h _
  case resetPulse => exact h _
  all_goals simp [SeqOp.effect]

/-- A program is run operation by operation: its head has its effect, then the rest is run; only a busy level read by a
`WaitIdle()` leaves the rest waiting. -/
theorem drain_cons (op : SeqOp) (rest : List SeqOp) (s : State) :
    drain (op :: rest) s = drain rest (op.effect s) ∨
      drain (op :: rest) s = { op.effect s with pending := .repoll :: rest } ∧ (op = .poll ∨ op = .repoll) := by
  cases op <;> try exact .inl rfl
  · rw [drain_poll, State.waitStep]
    split
    · exact .inr ⟨rfl, .inl rfl⟩
    · exact .inl rfl
  · rw [drain_repoll, State.waitStep]
    split
    · exact .inr ⟨rfl, .inr rfl⟩
    · exact .inl rfl

/-- What running a program comes to: the end with `OK` and one response, or a wait for the controller with a rest of the program. -/
theorem drain_cases (prog : List SeqOp) (s : State) :
    ((drain prog s).active = false ∧ (drain prog s).status = Status.ok ∧
        (drain prog s).responses = s.responses ++ [⟨Status.ok, []⟩] ∧ (drain prog s).pending = [] ∧
        (drain prog s).seq = 0) ∨
      ((drain prog s).active = s.active ∧ (drain prog s).responses = s.responses ∧ (drain prog s).status = s.status ∧
        ∃ rest, (drain prog s).pending = .repoll :: rest ∧ rest <:+ prog) := by
  induction prog generalizing s with
  | nil => exact .inl (by simp)
  | cons op rest ih =>
    obtain ⟨h1, h2, h3, -, -⟩ := op.effect_keeps s
    rcases drain_cons op rest s with h | ⟨h, -⟩
    · rw [h]
      rcases ih (op.effect s) with ih | ⟨a, b, c, r, d, e⟩
      · rw [h2] at ih
        exact .inl ih
      · exact .inr ⟨a.trans h1, b.trans h2, c.trans h3, r, d, e.trans (List.suffix_cons op rest)⟩
    · rw [h]
      exact .inr ⟨h1, h2, h3, rest, rfl, List.suffix_cons op rest⟩

/-- Running a program only makes events. -/
theorem drain_emits (prog : List SeqOp) (s : State) : ∃ es, s.Emits (drain prog s) es := by
  induction prog generalizing s with
  | nil => exact ⟨[], (State.Emits.refl s).of_eq rfl rfl rfl rfl rfl rfl rfl rfl⟩
  | cons op rest ih =>
    rcases drain_cons op rest s with h | ⟨h, -⟩
    · rw [h]
      obtain ⟨es, he⟩ := ih (op.effect s)
      exact ⟨_, (op.effect_emits s).trans he⟩
    · rw [h]
      exact ⟨_, (op.effect_emits s).of_eq rfl rfl rfl rfl rfl rfl rfl rfl⟩

/-- A state property that every operation of a program keeps holds after running it; the end of the request and the wait change
only what they say. -/
theorem drain_keeps (P : State → Prop) (hp : ∀ (s : State) (l : List SeqOp), P s → P { s with pending := l })
    (hr : ∀ s : State, P s → P (s.respond Status.ok [])) (prog : List SeqOp)
    (hop : ∀ op ∈ prog, ∀ s : State, P s → P (op.effect s)) (s : State) (h : P s) : P (drain prog s) := by
  induction prog generalizing s with
  | nil => exact hr s h
  | cons op rest ih =>
    have h' := hop op (List.mem_cons_self) s h
    rcases drain_cons op rest s with hd | ⟨hd, -⟩
    · rw [hd]
      exact ih (fun o ho => hop o (List.mem_cons_of_mem _ ho)) _ h'
    · rw [hd]
      exact hp _ _ h'

/-- A program that waits stands at one of its own `WaitIdle()`s: behind a prefix whose every read was the other level. -/
theorem drain_waits (prog : List SeqOp) (hn : .repoll ∉ prog) (s : State) :
    (drain prog s).active = false ∨ ∃ pre rest, prog = pre ++ .poll :: rest ∧ (drain prog s).pending = .repoll :: rest ∧
      s.IdleFor (pre.count .poll) ∧ s.busyAt (pre.count .poll) = s.params.busyLevel := by
  induction prog generalizing s with
  | nil => exact .inl rfl
  | cons op prog ih =>
    have hn' : .repoll ∉ prog := fun h => hn (List.mem_cons_of_mem op h)
    have hop : op ≠ .repoll := fun h => hn (by simp [h])
    have hp := (op.effect_emits s).params
    by_cases hpoll : op = .poll
    · subst hpoll
      by_cases hb : s.busyAt 0 = s.params.busyLevel
      · exact .inr ⟨[], prog, rfl, by rw [drain_poll_busy _ _ hb], fun k hk => absurd hk (by simp), hb⟩
      · have e (k : Nat) : (SeqOp.effect .poll s).busyAt k = s.busyAt (k + 1) := by
          rw [SeqOp.effect, State.busyRead_eq, State.busyAt_emit, State.busyAt_popBusy]
        have hd : drain (.poll :: prog) s = drain prog (SeqOp.effect .poll s) := by
          rw [drain_poll, State.busyNext_eq, if_neg (by simpa using hb)]
          rfl
        rw [hd]
        refine (ih hn' _).imp_right fun ⟨pre, rest, h1, h2, h3, h4⟩ => ⟨.poll :: pre, rest, by rw [h1]; rfl, h2, ?_, ?_⟩
        · rw [List.count_cons_self]
          intro k hk
          cases k with
          | zero => exact hb
          | succ k => rw [← e, ← hp]; exact h3 k (by omega)
        · rw [List.count_cons_self, ← e, h4, hp]
    · have e (k : Nat) : (op.effect s).busyAt k = s.busyAt k := by
        cases op
        case poll => exact absurd rfl hpoll
        case repoll => exact absurd rfl hop
        all_goals exact State.busyAt_congr (by simp [SeqOp.effect]) (by simp [SeqOp.effect]) k
      rcases drain_cons op prog s with h | ⟨-, h | h⟩
      · rw [h]
        refine (ih hn' _).imp_right fun ⟨pre, rest, h1, h2, h3, h4⟩ => ⟨op :: pre, rest, by rw [h1]; rfl, h2, ?_, ?_⟩
        · rw [List.count_cons_of_ne hpoll]
          intro k hk
          rw [← e, ← hp]
          exact h3 k hk
        · rw [List.count_cons_of_ne hpoll, ← e, h4, hp]
      · exact absurd h hpoll
      · exact absurd h hop

/-! ### What writes `MODE` and `DEV_STATE` -/

/-- Every operation but `MODE <- m` and `DEV_STATE <- d` keeps both. -/
theorem SeqOp.effect_keepsState (op : SeqOp) (h : op.writesState = false) (s : State) :
    (op.effect s).devState = s.devState ∧ (op.effect s).mode = s.mode := by
  cases op
  case plane op => exact ⟨s.emit_devState (writeRegEvents op s.fbBytes), s.emit_mode (writeRegEvents op s.fbBytes)⟩
  case setMode => cases h
  case setDevState => cases h
  all_goals simp [SeqOp.effect]

/-- A program that writes neither. -/
theorem StateWritesLast.of_none {prog : List SeqOp} (h : ∀ op ∈ prog, op.writesState = false) : StateWritesLast prog :=
  ⟨prog, [], (List.append_nil _).symm, h, .inl rfl⟩

theorem StateWritesLast.cons {op : SeqOp} {rest : List SeqOp} (ho : op.writesState = false) (h : StateWritesLast rest) :
    StateWritesLast (op :: rest) := by
  obtain ⟨pre, tail, rfl, hp, ht⟩ := h
  exact ⟨op :: pre, tail, rfl, by simpa [ho] using hp, ht⟩

/-- What the head of such a program is: no such write, or one of the last two operations. -/
theorem StateWritesLast.head {op : SeqOp} {rest : List SeqOp} (h : StateWritesLast (op :: rest)) :
    (op.writesState = false ∧ StateWritesLast rest) ∨ (op = .setDevState .ready ∧ rest = []) ∨
      ∃ m, op = .setMode m ∧ rest = [.setDevState .ready] := by
  obtain ⟨pre, tail, e, hp, ht⟩ := h
  cases pre with
  | nil => rcases ht with rfl | rfl | ⟨m, rfl⟩ <;> cases e <;> simp
  | cons o pre =>
    cases e
    exact .inl ⟨hp _ List.mem_cons_self, pre, tail, rfl, fun o ho => hp o (List.mem_cons_of_mem _ ho), ht⟩

theorem StateWritesLast.tail {op : SeqOp} {rest : List SeqOp} (h : StateWritesLast (op :: rest)) : StateWritesLast rest := by
  rcases h.head with ⟨-, h⟩ | ⟨-, rfl⟩ | ⟨m, -, rfl⟩
  · exact h
  · exact .of_none (by simp)
  · exact ⟨[], _, rfl, by simp, .inr (.inl rfl)⟩

theorem StateWritesLast.suffix {prog rest : List SeqOp} (h : StateWritesLast prog) (hs : rest <:+ prog) :
    StateWritesLast rest := by
  obtain ⟨pre, rfl⟩ := hs
  induction pre with
  | nil => exact h
  | cons op pre ih => exact ih h.tail

end Sys2Proof.Machine
end

