-- ==== Sys2Proof/Laws/Runs.lean ====
section
/-! SUPPORT. Programs that run through: what the sequences of 43_refresh_sequencer.md come to when the controller is idle at every
busy read. -/

namespace Sys2Proof.Machine

/-- `t` comes from `s` by the events `es`, with `n` busy levels used up; the request goes on and no transport status is used. -/
structure State.Ran (s t : State) (n : Nat) (es : List Event) : Prop where
  emits : s.Emits t es
  active : t.active = s.active
  status : t.status = s.status
  responses : t.responses = s.responses
  busyIn : t.busyIn = s.busyIn.drop n
  busyDraws : t.busyDraws = s.busyDraws + (n - s.busyIn.length)
  transportIn : t.transportIn = s.transportIn
  transportDraws : t.transportDraws = s.transportDraws

theorem State.Ran.refl (s : State) : s.Ran s 0 [] :=
  ⟨State.Emits.refl s, rfl, rfl, rfl, by simp, by simp, rfl, rfl⟩

theorem State.Ran.trans {s t u : State} {n m : Nat} {es fs : List Event} (h : s.Ran t n es) (h' : t.Ran u m fs) :
    s.Ran u (n + m) (es ++ fs) := by
  constructor
  · exact h.emits.trans h'.emits
  · rw [h'.active, h.active]
  · rw [h'.status, h.status]
  · rw [h'.responses, h.responses]
  · rw [h'.busyIn, h.busyIn, List.drop_drop]
  · rw [h'.busyDraws, h.busyDraws, h.busyIn, List.length_drop]
    omega
  · rw [h'.transportIn, h.transportIn]
  · rw [h'.transportDraws, h.transportDraws]

/-- The levels still to come. -/
theorem State.Ran.busyAt {s t : State} {n : Nat} {es : List Event} (h : s.Ran t n es) (k : Nat) :
    t.busyAt k = s.busyAt (n + k) := by
  rw [← State.busyAt_afterBusyReads]
  exact State.busyAt_congr h.busyIn h.busyDraws k

/-- Idle for longer than what was read: idle at the next read. -/
theorem State.Ran.idle {s t : State} {n k : Nat} {es : List Event} (h : s.Ran t n es) (hi : s.IdleFor k) (hk : n < k) :
    t.busyAt 0 ≠ t.params.busyLevel := by
  rw [h.busyAt, h.emits.params]
  exact hi _ (by omega)

/-- What the end of a request leaves after a run. -/
theorem State.Ran.endedOk {s t : State} {n : Nat} {es : List Event} (h : s.Ran t n es) :
    s.EndedOk (t.respond Status.ok []) n es := by
  refine ⟨h.emits.trace, rfl, ?_, rfl, rfl, h.emits.params, h.emits.requests, h.emits.resetIn, h.emits.fbEpoch,
    h.busyIn, h.busyDraws⟩
  simp [h.responses]
  rfl

/-- Taking a request changes nothing that `State.EndedOk` compares with. -/
theorem State.EndedOk.of_accept {s t : State} {n : Nat} {es : List Event} (h : s.accept.EndedOk t n es) : s.EndedOk t n es :=
  ⟨h.1, h.2, h.3, h.4, h.5, h.6, h.7, h.8, h.9, h.10, h.11⟩

theorem State.ran_emit (s : State) (es : List Event) : s.Ran (s.emit es) 0 es :=
  ⟨s.emits_emit _, by simp, by simp, by simp, by simp, by simp, by simp, by simp⟩

theorem State.ran_mergeRect (x y w h : Nat) (src : Nat → Nat → Bool) (s : State) : s.Ran (s.mergeRect x y w h src) 0 [] := by
  refine ⟨?_, by simp, by simp, by simp, by simp, by simp, by simp, by simp⟩
  constructor <;> simp

theorem State.ran_fbFill (v : Byte) (s : State) : s.Ran (s.fbFill v) 0 [] := by
  refine ⟨?_, by simp, by simp, by simp, by simp, by simp, by simp, by simp⟩
  constructor <;> simp

/-! ### Running through -/

/-- The program `prog` runs through from `s` to `t`, whatever stands behind it. -/
def RunsThrough (prog : List SeqOp) (s t : State) (n : Nat) (es : List Event) : Prop :=
  s.Ran t n es ∧ ∀ rest, drain (prog ++ rest) s = drain rest t

theorem RunsThrough.append {p q : List SeqOp} {s t u : State} {n m : Nat} {es fs : List Event}
    (h : RunsThrough p s t n es) (h' : RunsThrough q t u m fs) : RunsThrough (p ++ q) s u (n + m) (es ++ fs) :=
  ⟨h.1.trans h'.1, fun rest => by rw [List.append_assoc, h.2, h'.2]⟩

/-- A program that runs through ends the request with `OK`. -/
theorem RunsThrough.drain_eq {prog : List SeqOp} {s t : State} {n : Nat} {es : List Event} (h : RunsThrough prog s t n es) :
    drain prog s = t.respond Status.ok [] := by
  have := h.2 []
  rwa [List.append_nil] at this

theorem runsThrough_nil (s : State) : RunsThrough [] s s 0 [] := ⟨State.Ran.refl s, fun _ => rfl⟩

theorem runsThrough_frame (op : Byte) (bs : List Byte) (s : State) :
    RunsThrough [.frame op bs] s (s.emit (writeRegEvents op bs)) 0 (writeRegEvents op bs) :=
  ⟨s.ran_emit _, fun rest => drain_frame rest s op bs⟩

theorem runsThrough_plane (op : Byte) (s : State) :
    RunsThrough [.plane op] s (s.emit (writeRegEvents op s.fbBytes)) 0 (writeRegEvents op s.fbBytes) :=
  ⟨s.ran_emit _, fun rest => drain_plane rest s op⟩

theorem runsThrough_resetPulse (s : State) : RunsThrough [.resetPulse] s (s.emit resetPulseEvents) 0 resetPulseEvents :=
  ⟨s.ran_emit _, fun rest => drain_resetPulse rest s⟩

theorem runsThrough_fbFill (v : Byte) (s : State) : RunsThrough [.fbFill v] s (s.fbFill v) 0 [] :=
  ⟨s.ran_fbFill v, fun rest => by rw [List.singleton_append, drain_fbFill]⟩

theorem runsThrough_mergeSolid (y h : Nat) (c : Bool) (s : State) :
    RunsThrough [.mergeSolid y h c] s (s.mergeRect 0 y 400 h fun _ _ => c) 0 [] :=
  ⟨s.ran_mergeRect _ _ _ _ _, fun rest => drain_mergeSolid rest s y h c⟩

/-- A `WaitIdle()` at an idle controller (42_reset_sequencer.md R203, the case `k = 0`). -/
theorem runsThrough_poll {s : State} (h : s.busyAt 0 ≠ s.params.busyLevel) :
    RunsThrough [.poll] s ((s.afterBusyReads 1).emit [.busyRead (s.busyAt 0)]) 1 [.busyRead (s.busyAt 0)] :=
  ⟨⟨by constructor <;> rfl, rfl, rfl, rfl, rfl, rfl, rfl, rfl⟩, fun rest => drain_poll_idle rest s h⟩

theorem runsThrough_frames (l : List (Byte × List Byte)) (s : State) :
    RunsThrough (l.map fun f => .frame f.1 f.2) s (s.emit (l.flatMap fun f => writeRegEvents f.1 f.2)) 0
      (l.flatMap fun f => writeRegEvents f.1 f.2) := by
  induction l generalizing s with
  | nil =>
    have h : s.emit [] = s := by simp [State.emit]
    simp only [List.map_nil, List.flatMap_nil, h]
    exact runsThrough_nil s
  | cons f l ih =>
    have h := (runsThrough_frame f.1 f.2 s).append (ih _)
    have e : (s.emit (writeRegEvents f.1 f.2)).emit (l.flatMap fun f => writeRegEvents f.1 f.2) =
        s.emit (writeRegEvents f.1 f.2 ++ l.flatMap fun f => writeRegEvents f.1 f.2) := by
      simp [State.emit, Nat.add_assoc]
    rw [e] at h
    simpa using h

/-! ### The programs, in numerals -/

theorem setWindowFull_eq :
    setWindowFull = [.frame 0x44#8 [0x00#8, 0x31#8], .frame 0x45#8 [0x00#8, 0x00#8, 0x2B#8, 0x01#8]] := rfl

theorem clearProgram_eq :
    clearProgram = [.fbFill 0xFF#8] ++ ([.plane 0x24#8, .plane 0x26#8] ++ turnOn 0xF7#8) := rfl

/-- The tiles of a `FILL` with full tiles and a remainder (43_refresh_sequencer.md R245). -/
theorem tiles_eq (t : Nat) :
    tiles t = (List.range (300 / t)).map (fun k => (k * t, t)) ++
      if 300 % t = 0 then [] else [(300 / t * t, 300 % t)] := rfl

/-! ### `FB` through a frame and a tile -/

theorem State.fbBytes_emit (s : State) (es : List Event) : (s.emit es).fbBytes = s.fbBytes := State.fbBytes_congr rfl rfl

/-- A full-width merge of one colour, byte by byte (40_framebuffer.md R132, 43_refresh_sequencer.md R245). -/
theorem State.fbRead_mergeSolid (s : State) (y h : Nat) (c : Bool) (k : Nat) :
    (s.mergeRect 0 y 400 h fun _ _ => c).fbRead k =
      if y ≤ k / 50 ∧ k / 50 < y + h then (if c then 0xFF#8 else 0x00#8) else s.fbRead k := by
  refine byte_ext fun q hq => ?_
  rw [State.fbRead_getLsbD _ _ _ hq, State.pixel_mergeRect _ _ _ _ _ _ _ _ (by simp) (by simp; omega)]
  by_cases h : y ≤ k / 50 ∧ k / 50 < y + h
  · rw [if_pos (by omega), if_pos h]
    have hc : ∀ q < 8, c = (if c = true then 0xFF#8 else 0x00#8).getLsbD (7 - q) := by revert c; decide
    exact hc q hq
  · rw [if_neg (by omega), if_neg h, State.fbRead_getLsbD _ _ _ hq]

/-! ### Every program is made of known operations -/

theorem wf_turnOn (a : Byte) : ∀ op ∈ turnOn a, op.wf = true := by
  simp only [turnOn, List.mem_cons, List.not_mem_nil, or_false]
  rintro _ (rfl | rfl | rfl) <;> rfl

theorem wf_planes : ∀ op ∈ ([.plane 0x24#8, .plane 0x26#8] : List SeqOp), op.wf = true := by
  simp only [List.mem_cons, List.not_mem_nil, or_false]
  rintro _ (rfl | rfl) <;> rfl

theorem wf_setWindowFull : ∀ op ∈ setWindowFull, op.wf = true := by
  simp only [setWindowFull, List.mem_cons, List.not_mem_nil, or_false]
  rintro _ (rfl | rfl) <;> rfl

theorem wf_setCursorOrigin : ∀ op ∈ setCursorOrigin, op.wf = true := by
  simp only [setCursorOrigin, List.mem_cons, List.not_mem_nil, or_false]
  rintro _ (rfl | rfl) <;> rfl

theorem wf_clearProgram : ∀ op ∈ clearProgram, op.wf = true := by
  rw [clearProgram_eq]
  simp only [List.forall_mem_append]
  exact ⟨by simp [SeqOp.wf], wf_planes, wf_turnOn _⟩

theorem wf_displayFullProgram (m : Mode) : ∀ op ∈ displayFullProgram m, op.wf = true := by
  rw [displayFullProgram]
  simp only [List.forall_mem_append]
  exact ⟨wf_planes, wf_turnOn _⟩

theorem wf_displayPartialProgram (p : Params) : ∀ op ∈ displayPartialProgram p, op.wf = true := by
  rw [displayPartialProgram]
  simp only [List.forall_mem_append]
  refine ⟨⟨⟨⟨?_, wf_setWindowFull⟩, wf_setCursorOrigin⟩, ?_⟩, wf_turnOn _⟩
  · simp only [List.mem_cons, List.not_mem_nil, or_false]
    rintro _ (rfl | rfl) <;> rfl
  · simp [SeqOp.wf]

theorem wf_refreshProgram (m : Mode) (p : Params) : ∀ op ∈ refreshProgram m p, op.wf = true := by
  unfold refreshProgram
  split
  · exact wf_displayPartialProgram p
  · exact wf_displayFullProgram m

/-- Every tile lies inside the panel (43_refresh_sequencer.md R246). -/
theorem tiles_inside {t : Nat} {tile : Nat × Nat} (h : tile ∈ tiles t) : tile.1 + tile.2 ≤ Config.height := by
  rw [tiles_eq] at h
  rcases List.mem_append.1 h with h | h
  · obtain ⟨k, hk, rfl⟩ := List.mem_map.1 h
    have h1 : (k + 1) * t ≤ 300 / t * t := Nat.mul_le_mul_right t (List.mem_range.1 hk)
    have h2 := Nat.div_mul_le_self 300 t
    rw [Nat.add_mul, Nat.one_mul] at h1
    exact le_trans h1 h2
  · split at h
    · cases h
    · rw [List.mem_singleton.1 h]
      exact (Nat.div_add_mod' 300 t).le

theorem wf_fillProgram (c : Bool) (t : Nat) (m : Mode) (p : Params) : ∀ op ∈ fillProgram c t m p, op.wf = true := by
  intro op h
  obtain ⟨tile, h1, h2⟩ := List.mem_flatMap.1 h
  rcases List.mem_cons.1 h2 with rfl | h2
  · exact decide_eq_true (tiles_inside h1)
  · exact wf_refreshProgram m p op h2

theorem wf_initProgram (fast part gray : Bool) (p : Params) : ∀ op ∈ initProgram fast part gray p, op.wf = true := by
  rw [initProgram]
  simp only [List.forall_mem_append]
  refine ⟨⟨⟨⟨⟨⟨⟨?_, ?_⟩, ?_⟩, wf_setWindowFull⟩, wf_setCursorOrigin⟩, ?_⟩, wf_clearProgram⟩, ?_⟩
  · simp only [List.mem_cons, List.not_mem_nil, or_false]
    rintro _ (rfl | rfl | rfl | rfl | rfl) <;> rfl
  · cases fast
    · simp
    · simp only [if_true, fastLoadProgram, List.mem_cons, forall_eq_or_imp]
      exact ⟨rfl, wf_turnOn _⟩
  · simp only [List.mem_cons, List.not_mem_nil, or_false]
    rintro _ rfl
    rfl
  · simp [SeqOp.wf]
  · simp [SeqOp.wf]

/-! ### No program begins inside a `WaitIdle()`; only `InitSequence` and `SLEEP` write `DEV_STATE`, at their end -/

theorem plain_clearProgram : ∀ op ∈ clearProgram, op.writesState = false ∧ op ≠ .repoll := by
  simp [clearProgram, turnOn, SeqOp.writesState]

theorem plain_displayFullProgram (m : Mode) : ∀ op ∈ displayFullProgram m, op.writesState = false ∧ op ≠ .repoll := by
  simp [displayFullProgram, turnOn, SeqOp.writesState]

theorem plain_displayPartialProgram (p : Params) :
    ∀ op ∈ displayPartialProgram p, op.writesState = false ∧ op ≠ .repoll := by
  simp [displayPartialProgram, setWindowFull, setCursorOrigin, turnOn, SeqOp.writesState]

theorem plain_refreshProgram (m : Mode) (p : Params) : ∀ op ∈ refreshProgram m p, op.writesState = false ∧ op ≠ .repoll := by
  unfold refreshProgram
  split
  · exact plain_displayPartialProgram p
  · exact plain_displayFullProgram m

theorem plain_fillProgram (c : Bool) (t : Nat) (m : Mode) (p : Params) :
    ∀ op ∈ fillProgram c t m p, op.writesState = false ∧ op ≠ .repoll := by
  intro op h
  obtain ⟨tile, -, h⟩ := List.mem_flatMap.1 h
  rcases List.mem_cons.1 h with rfl | h
  · exact ⟨rfl, by simp⟩
  · exact plain_refreshProgram m p op h

/-- `InitSequence` writes `MODE` and `DEV_STATE` last, behind its last wait (43_refresh_sequencer.md R232). -/
theorem initProgram_split (fast part gray : Bool) (p : Params) :
    ∃ pre, initProgram fast part gray p = pre ++ [.setMode (modeOf fast part gray), .setDevState .ready] ∧
      ∀ op ∈ pre, op.writesState = false ∧ op ≠ .repoll := by
  refine ⟨_, rfl, ?_⟩
  cases fast <;>
    simp [fastLoadProgram, setWindowFull, setCursorOrigin, clearProgram, turnOn, SeqOp.writesState]

end Sys2Proof.Machine
end

