-- ==== Sys2Proof/Laws/Step.lean ====
section
/-! SUPPORT. What a step is, and what every instruction, every step and every block reset does and keeps, said once. -/

namespace Sys2Proof.Machine

/-! ### Runs -/

@[simp] theorem run_zero (s : State) : run 0 s = .next s := rfl

theorem run_succ {s t : State} (h : step s = .next t) (n : Nat) : run (n + 1) s = run n t := by rw [run, h]

theorem run_add {s t : State} {n : Nat} (h : run n s = .next t) (m : Nat) : run (n + m) s = run m t := by
  induction n generalizing s with
  | zero => cases h; rw [Nat.zero_add]
  | succ n ih =>
    rw [Nat.add_right_comm]
    rw [run] at h ⊢
    split at h
    · exact ih h
    · cases h
    · cases h

/-! ### Frames of a program -/

/-- A controller command is `WriteReg` of the bytes it encodes to (41_command_encoder.md R165, R170 to R183). -/
theorem exec_of_encode_frame {i : Instr} {op : Byte} {data : List Byte} (h : encode i = .frame op data) (s : State) :
    exec i s = .next (s.writeReg op data) := by
  cases i <;> cases h <;> rfl

/-- The command encoder takes a frame of one of the fourteen opcodes with its number of data bytes as `WriteReg`
(41_command_encoder.md R165). -/
theorem State.runFrame_eq (s : State) {op : Byte} {data : List Byte} (h : dataLength op = some data.length) :
    s.runFrame op data = .next (s.writeReg op data) := by
  obtain ⟨i, hc, hd⟩ := decodeFrame_eq h
  rw [State.runFrame, hd]
  exact exec_of_encode_frame (encode_of_command hc h) s

/-- A frame of a known program. -/
theorem dataLength_of_wf_frame {op : Byte} {bs : List Byte} (h : (SeqOp.frame op bs).wf = true) :
    dataLength op = some bs.length := by
  simp only [SeqOp.wf] at h
  cases hd : dataLength op with
  | none => rw [hd] at h; cases h
  | some n =>
    rw [hd] at h
    simp only [Option.any_some, hasLength_iff] at h
    rw [h]

/-- A RAM-plane frame of a known program. -/
theorem dataLength_of_wf_plane {op : Byte} (s : State) (h : (SeqOp.plane op).wf = true) :
    dataLength op = some s.fbBytes.length := by
  rw [State.length_fbBytes]
  simp only [SeqOp.wf, Bool.or_eq_true, beq_iff_eq] at h
  rcases h with rfl | rfl <;> rfl

/-! ### The rest of the program does not matter to an operation -/

theorem State.emit_setPending (s : State) (es : List Event) (l : List SeqOp) :
    State.emit es { s with pending := l } = { s.emit es with pending := l } := rfl

theorem State.mergeRow_setPending (x y w : Nat) (src : Nat → Nat → Bool) (s : State) (j : Nat) (l : List SeqOp) :
    State.mergeRow x y w src { s with pending := l } j = { State.mergeRow x y w src s j with pending := l } := by
  induction w with
  | zero => rfl
  | succ w ih =>
    simp only [State.mergeRow, List.range_succ, List.foldl_append, List.foldl_cons, List.foldl_nil] at ih ⊢
    rw [ih]
    cases src w j <;> rfl

theorem State.mergeRect_setPending (x y w h : Nat) (src : Nat → Nat → Bool) (s : State) (l : List SeqOp) :
    State.mergeRect x y w h src { s with pending := l } = { State.mergeRect x y w h src s with pending := l } := by
  induction h with
  | zero => rfl
  | succ h ih =>
    simp only [State.mergeRect, List.range_succ, List.foldl_append, List.foldl_cons, List.foldl_nil] at ih ⊢
    rw [ih, State.mergeRow_setPending]

theorem State.busyRead_setPending (s : State) (l : List SeqOp) :
    State.busyRead { s with pending := l } = { s.busyRead with pending := l } := by
  unfold State.busyRead State.popBusy State.nextBusy
  cases hb : s.busyIn <;> simp [State.emit]

/-- An operation does not look at the program behind it. -/
theorem SeqOp.effect_setPending (op : SeqOp) (s : State) (l : List SeqOp) :
    op.effect { s with pending := l } = { op.effect s with pending := l } := by
  cases op
  case plane op =>
    have h : State.fbBytes { s with pending := l } = s.fbBytes := State.fbBytes_congr rfl rfl
    simp only [SeqOp.effect, State.writeReg, h]
    exact State.emit_setPending s _ l
  case poll => exact State.busyRead_setPending s l
  case repoll => exact State.busyRead_setPending s.waitDelay l
  case fbFill v => simp only [SeqOp.effect, State.fbFill]
  case mergeSolid y h c => exact State.mergeRect_setPending _ _ _ _ _ s l
  all_goals rfl

/-- Running a program does not look at what `pending` was before. -/
theorem drain_setPending (prog : List SeqOp) (s : State) (l : List SeqOp) :
    drain prog { s with pending := l } = drain prog s := by
  induction prog generalizing s with
  | nil => rfl
  | cons op rest ih =>
    cases op
    case poll =>
      have h : State.busyNext { s with pending := l } = s.busyNext := rfl
      rw [drain_poll, drain_poll, State.waitStep, State.waitStep, State.busyRead_setPending, h, ih]
    case repoll =>
      have h : State.busyNext (State.waitDelay { s with pending := l }) = s.waitDelay.busyNext := rfl
      have h' : State.waitDelay { s with pending := l } = { s.waitDelay with pending := l } := rfl
      rw [drain_repoll, drain_repoll, State.waitStep, State.waitStep, h, h', State.busyRead_setPending, ih]
    case plane op =>
      rw [drain_plane, drain_plane, ← ih (s.emit (writeRegEvents op s.fbBytes))]
      exact congrArg (drain rest) (SeqOp.effect_setPending (.plane op) s l)
    case fbFill v =>
      rw [drain_fbFill, drain_fbFill, ← ih (s.fbFill v)]
      exact congrArg (drain rest) (SeqOp.effect_setPending (.fbFill v) s l)
    case mergeSolid y h c =>
      rw [drain_mergeSolid, drain_mergeSolid, State.mergeRect_setPending, ih]
    case frame op bs =>
      rw [drain_frame, drain_frame, State.emit_setPending, ih]
    case resetPulse =>
      rw [drain_resetPulse, drain_resetPulse, State.emit_setPending, ih]
    case setMode m => exact ih { s with mode := m }
    case setDevState d => exact ih { s with devState := d }

/-! ### What the block does next -/

/-- While the reset input is not asserted a step is what the block does next. -/
theorem step_eq_proceed {s : State} (h : s.resetIn = none) : step s = s.proceed := by
  rw [step, if_neg (by simp [h])]
  cases hp : s.proceed <;> simp [State.withResetInput, h]

theorem proceed_active {s : State} (h : s.active = true) : s.proceed = s.runPending := by rw [State.proceed, if_pos h]

/-- A step of a block whose program is at a `WaitIdle()`. -/
theorem step_poll {s : State} {rest : List SeqOp} (hr : s.resetIn = none) (ha : s.active = true)
    (hp : s.pending = .poll :: rest) : step s = .next (s.waitStep rest) := by
  rw [step_eq_proceed hr, proceed_active ha, State.runPending, hp]

/-- A step of a block whose program is inside the loop of a `WaitIdle()`. -/
theorem step_repoll {s : State} {rest : List SeqOp} (hr : s.resetIn = none) (ha : s.active = true)
    (hp : s.pending = .repoll :: rest) : step s = .next (s.waitDelay.waitStep rest) := by
  rw [step_eq_proceed hr, proceed_active ha, State.runPending, hp]

/-- What an active block with a known program does next: the end of the request, or the effect of the program's head, after
which the rest waits, at a `WaitIdle()` that read a busy level inside its loop. -/
theorem State.runPending_cases {s t : State} (hw : ∀ op ∈ s.pending, op.wf = true) (h : s.runPending = .next t) :
    (s.pending = [] ∧ t = s.respond Status.ok []) ∨
      ∃ op rest, s.pending = op :: rest ∧
        (t = { op.effect s with pending := rest } ∨
          t = { op.effect s with pending := .repoll :: rest } ∧ (op = .poll ∨ op = .repoll)) := by
  unfold State.runPending at h
  split at h
  · cases h
    exact .inl ⟨‹_›, rfl⟩
  · rename_i op bs rest hp
    rw [State.runFrame_eq _ (dataLength_of_wf_frame (hw _ (by rw [hp]; simp)))] at h
    cases h
    exact .inr ⟨_, _, hp, .inl rfl⟩
  · rename_i op rest hp
    rw [State.runFrame_eq _ (dataLength_of_wf_plane s (hw _ (by rw [hp]; simp)))] at h
    cases h
    exact .inr ⟨_, _, hp, .inl (State.emit_setPending s _ rest)⟩
  · rename_i rest hp
    cases h
    refine .inr ⟨_, _, hp, ?_⟩
    unfold State.waitStep
    split
    · exact .inr ⟨rfl, .inl rfl⟩
    · exact .inl rfl
  · rename_i rest hp
    cases h
    refine .inr ⟨_, _, hp, ?_⟩
    unfold State.waitStep
    split
    · exact .inr ⟨rfl, .inr rfl⟩
    · exact .inl rfl
  · rename_i op rest _ _ _ _ hp
    cases h
    exact .inr ⟨_, _, hp, .inl (SeqOp.effect_setPending _ _ _)⟩

/-! ### What every instruction does to the trace -/

theorem State.emits_accept (s : State) : s.Emits s.accept [] := by constructor <;> simp

theorem State.emits_respond (s : State) (st : Byte) (data : List Byte) : s.Emits (s.respond st data) [] := by
  constructor <;> simp

theorem State.emits_mergeRect (x y w h : Nat) (src : Nat → Nat → Bool) (s : State) :
    s.Emits (s.mergeRect x y w h src) [] := by
  constructor <;> simp

theorem State.emits_transportInit (s : State) : s.Emits s.transportInit [.transportInit s.nextTransport] := by
  constructor <;> simp [State.transportInit, Event.latch]

theorem State.emits_waitDelay (s : State) : s.Emits s.waitDelay [.delayMs Config.pollMs] := by constructor <;> rfl

theorem State.emits_waitStep (s : State) (rest : List SeqOp) : s.Emits (s.waitStep rest) [.busyRead s.nextBusy] := by
  constructor <;> simp [State.waitStep] <;> split <;> simp [Event.latch]

theorem State.emits_whenReady (serve : State → State) (s : State) (h : ∃ es, s.Emits (serve s) es) :
    ∃ es, s.Emits (s.whenReady serve) es := by
  unfold State.whenReady
  split
  · exact h
  · exact ⟨_, s.emits_respond _ _⟩

theorem emits_initRequest (fast part gray : Bool) (s : State) : ∃ es, s.Emits (initRequest fast part gray s) es := by
  unfold initRequest initSequence
  split
  · exact ⟨_, s.emits_respond _ _⟩
  · split
    · obtain ⟨es, he⟩ := drain_emits (initProgram fast part gray s.params) s.transportInit
      exact ⟨_, s.emits_transportInit.trans he⟩
    · exact ⟨_, s.emits_transportInit.of_eq rfl rfl rfl rfl rfl rfl rfl rfl⟩

/-- Every instruction answers a next state. -/
theorem exec_answers_next (i : Instr) (s : State) : ∃ t, exec i s = .next t := by
  cases i <;> exact ⟨_, rfl⟩

/-- Every instruction only makes events: the trace grows, the pin latches follow, and the parameters, the waiting requests, the
reset input and the draw of `FB` stay. -/
theorem exec_emits {i : Instr} {s t : State} (h : exec i s = .next t) : ∃ es, s.Emits t es := by
  have acc : ∀ {u : State}, (∃ es, s.accept.Emits u es) → ∃ es, s.Emits u es :=
    fun ⟨es, he⟩ => ⟨_, s.emits_accept.trans he⟩
  cases i <;> cases h
  case init => exact acc (emits_initRequest _ _ _ _)
  case initFast => exact acc (emits_initRequest _ _ _ _)
  case clear => exact acc (State.emits_whenReady _ _ (drain_emits _ _))
  case displayFull => exact acc (State.emits_whenReady _ _ (drain_emits _ _))
  case displayPartial => exact acc (State.emits_whenReady _ _ (drain_emits _ _))
  case draw x y w h p =>
    refine acc (State.emits_whenReady _ _ ?_)
    split
    · obtain ⟨es, he⟩ := drain_emits (refreshProgram s.accept.mode s.accept.params)
        (s.accept.mergeRect x.toNat y.toNat w.toNat h.toNat (payloadSrc p w.toNat))
      exact ⟨_, (State.emits_mergeRect _ _ _ _ _ _).trans he⟩
    · exact ⟨_, State.emits_respond _ _ _⟩
  case fill =>
    refine acc (State.emits_whenReady _ _ ?_)
    split
    · exact ⟨_, State.emits_respond _ _ _⟩
    · exact drain_emits _ _
  case sleep => exact acc (State.emits_whenReady _ _ (drain_emits _ _))
  case merge =>
    refine acc ?_
    split
    · exact ⟨_, (State.emits_mergeRect _ _ _ _ _ _).trans (State.emits_respond _ _ _)⟩
    · exact ⟨_, State.emits_respond _ _ _⟩
  case toBitmap => exact acc ⟨_, State.emits_respond _ _ _⟩
  case fbFill => exact acc ⟨[], by constructor <;> simp⟩
  all_goals exact ⟨_, s.emits_emit _⟩

/-! ### Block resets -/

theorem State.popBusy_keeps (s : State) :
    s.popBusy = { s with busyIn := s.popBusy.busyIn, busyDraws := s.popBusy.busyDraws } := by
  unfold State.popBusy
  split <;> rfl

theorem State.popTransport_keeps (s : State) :
    s.popTransport =
      { s with transportIn := s.popTransport.transportIn, transportDraws := s.popTransport.transportDraws } := by
  unfold State.popTransport
  split <;> rfl

theorem State.popBusyN_keeps (n : Nat) (s : State) :
    State.popBusyN n s =
      { s with busyIn := (State.popBusyN n s).busyIn, busyDraws := (State.popBusyN n s).busyDraws } := by
  induction n generalizing s with
  | zero => rfl
  | succ n ih => rw [State.popBusyN, ih, State.popBusy_keeps]

theorem State.popTransportN_keeps (n : Nat) (s : State) :
    State.popTransportN n s =
      { s with transportIn := (State.popTransportN n s).transportIn
               transportDraws := (State.popTransportN n s).transportDraws } := by
  induction n generalizing s with
  | zero => rfl
  | succ n ih => rw [State.popTransportN, ih, State.popTransport_keeps]

/-- A reset inside a step is the block reset of the state before the step with the accepted request taken, the events up to the
reset in the trace, and some inputs used up. -/
theorem State.cutByReset_eq (s t : State) (n : Nat) :
    ∃ bs nb ts nt, s.cutByReset t n =
      State.blockReset { s with
        busyIn := bs, busyDraws := nb, transportIn := ts, transportDraws := nt, requests := t.requests
        trace := s.trace ++ (eventsBetween s t).take (n - acceptedBetween s t) } := by
  unfold State.cutByReset
  dsimp only
  rw [State.popTransportN_keeps, State.popBusyN_keeps]
  exact ⟨_, _, _, _, rfl⟩

/-- What a step is: a block reset now; or what the block does next, whole, cut by a reset, or with the reset still to come. -/
theorem step_cases {s t : State} (h : step s = .next t) :
    (s.resetIn = some 0 ∧ t = s.blockReset) ∨
      ∃ u, s.proceed = .next u ∧
        ((s.resetIn = none ∧ t = u) ∨
          (∃ n, s.resetIn = some n ∧ n < progressBetween s u ∧ t = s.cutByReset u n) ∨
          ∃ n, s.resetIn = some n ∧ progressBetween s u ≤ n ∧ t = { u with resetIn := some (n - progressBetween s u) }) := by
  unfold step at h
  split at h
  · cases h
    exact .inl ⟨‹_›, rfl⟩
  · split at h
    · rename_i u hu
      cases h
      refine .inr ⟨u, hu, ?_⟩
      unfold State.withResetInput
      cases hr : s.resetIn with
      | none => exact .inl ⟨rfl, rfl⟩
      | some n =>
        by_cases hl : n < progressBetween s u
        · exact .inr (.inl ⟨n, rfl, hl, by simp [hl]⟩)
        · exact .inr (.inr ⟨n, rfl, by omega, by simp [hl]⟩)
    · cases h
    · cases h

end Sys2Proof.Machine
end

