-- ==== Sys2Proof/Tests/Slice0.lean ====
section
/-! SUPPORT. Small tests, each of one decoding or one step; their expected results are the spec's: the rules and the vectors
(VA to VH) of 95_test_vectors.md. At the end, a witness for the hypotheses of each statement that has some. -/

namespace Sys2Proof.Tests

open Sys2Proof.Machine

/-- Values for the OPEN parameters, `BUSY_LEVEL = 1` (95_test_vectors.md, conventions). -/
def testParams : Params where
  upd1Init := (0xA0#8, 0xA1#8)
  borderInit := 0xA2#8
  upd1Partial := (0xA3#8, 0xA4#8)
  borderPartial := 0xA5#8
  tempFast := 0xA6#8
  ctrl2FastLoad := 0xA7#8
  sleepData := 0xA8#8
  busyLevel := 1#1

/-- An idle block with some bytes of `FB` written; the controller idle for four reads, the transport status 0. -/
def block (d : DevState) (m : Mode) (fb : Memory) : State :=
  { State.reset with
    devState := d
    mode := m
    fb := fb
    params := testParams
    busyIn := [0#1, 0#1, 0#1, 0#1]
    transportIn := [0] }

/-- What is seen of the state after an instruction, where it answers a next state. -/
def after {α : Type} (i : Instr) (s : State) (see : State → α) : Option α :=
  match exec i s with
  | .next t => some (see t)
  | .fault _ => none
  | .refused _ => none

/-- What is seen of the state after a step. -/
def afterStep {α : Type} (s : State) (see : State → α) : Option α :=
  match step s with
  | .next t => some (see t)
  | .fault _ => none
  | .refused _ => none

/-- What is seen of the state after some steps. -/
def afterRun {α : Type} (n : Nat) (s : State) (see : State → α) : Option α :=
  match run n s with
  | .next t => some (see t)
  | .fault _ => none
  | .refused _ => none

/-! ### Well-formedness: an ill-formed term for each check -/

theorem test_illformed_draw : Instr.wellFormed (.draw 0 0 8 1 []) = false := by decide

theorem test_illformed_merge : Instr.wellFormed (.merge 0 0 3 3 [0xAA#8]) = false := by decide

theorem test_wellformed_merge : Instr.wellFormed (.merge 0 0 3 3 [0xAA#8, 0x80#8]) = true := by decide

theorem test_illformed_primary : Instr.wellFormed (.ctrlWriteRamPrimary [0xFF#8]) = false := by decide

theorem test_illformed_secondary : Instr.wellFormed (.ctrlWriteRamSecondary []) = false := by decide

/-! ### Decoding: a word of every constructor, from 30_encoding.md R91, R92, R102 and 95_test_vectors.md -/

/-- `INIT P G`, L2-B. -/
theorem test_decode_init : decode (.request ⟨0x0000000000000031#64, []⟩) = .ok (.init true true) := by decide

/-- `INIT G`, L2-B. -/
theorem test_decode_init_gray : decode (.request ⟨0x0000000000000021#64, []⟩) = .ok (.init false true) := by decide

/-- `INIT_FAST P`, L2-B. -/
theorem test_decode_initFast : decode (.request ⟨0x0000000000000012#64, []⟩) = .ok (.initFast true false) := by decide

/-- R108. -/
theorem test_decode_clear : decode (.request ⟨0x0000000000000003#64, []⟩) = .ok (.clear) := by decide

/-- R108. -/
theorem test_decode_displayFull : decode (.request ⟨0x0000000000000004#64, []⟩) = .ok (.displayFull) := by decide

/-- R108. -/
theorem test_decode_displayPartial : decode (.request ⟨0x0000000000000005#64, []⟩) = .ok (.displayPartial) := by decide

/-- `DRAW 399, 299, 1, 1`, L2-B. -/
theorem test_decode_draw : decode (.request ⟨0x0000100112B18F06#64, [0x80#8]⟩) = .ok (.draw 399 299 1 1 [0x80#8]) := by decide

/-- `FILL 0, 301`, L2-B. -/
theorem test_decode_fill : decode (.request ⟨0x0012D00000000007#64, []⟩) = .ok (.fill false 301) := by decide

/-- R108. -/
theorem test_decode_sleep : decode (.request ⟨0x0000000000000008#64, []⟩) = .ok (.sleep) := by decide

/-- `MERGE 395, 0, 8, 1`, VA10. -/
theorem test_decode_merge : decode (.request ⟨0x0000100800018B09#64, [0xFF#8]⟩) = .ok (.merge 395 0 8 1 [0xFF#8]) := by decide

/-- R108. -/
theorem test_decode_toBitmap : decode (.request ⟨0x000000000000000A#64, []⟩) = .ok (.toBitmap) := by decide

/-- `FB_FILL 1`, R108. -/
theorem test_decode_fbFill : decode (.request ⟨0x000000000000001B#64, []⟩) = .ok (.fbFill true) := by decide

/-- VC2. -/
theorem test_decode_ctrlSwReset : decode (.frame 0x12#8 []) = .ok (.ctrlSwReset) := by decide

/-- VC8. -/
theorem test_decode_ctrlUpdateCtrl1 : decode (.frame 0x21#8 [0xA0#8, 0xA1#8]) = .ok (.ctrlUpdateCtrl1 0xA0#8 0xA1#8) := by decide

/-- VC9. -/
theorem test_decode_ctrlBorderWaveform : decode (.frame 0x3C#8 [0xA2#8]) = .ok (.ctrlBorderWaveform 0xA2#8) := by decide

/-- VC3. -/
theorem test_decode_ctrlDataEntry : decode (.frame 0x11#8 [0x03#8]) = .ok (.ctrlDataEntry 0x03#8) := by decide

/-- VC4. -/
theorem test_decode_ctrlRamXWindow : decode (.frame 0x44#8 [0x00#8, 0x31#8]) = .ok (.ctrlRamXWindow 0x00#8 0x31#8) := by decide

/-- VC5: row 299 is 0x012B, low byte first. -/
theorem test_decode_ctrlRamYWindow : decode (.frame 0x45#8 [0x00#8, 0x00#8, 0x2B#8, 0x01#8]) = .ok (.ctrlRamYWindow 0 299) := by decide

/-- VC6. -/
theorem test_decode_ctrlRamXCounter : decode (.frame 0x4E#8 [0x00#8]) = .ok (.ctrlRamXCounter 0x00#8) := by decide

/-- R67: low byte first. -/
theorem test_decode_ctrlRamYCounter : decode (.frame 0x4F#8 [0x2B#8, 0x01#8]) = .ok (.ctrlRamYCounter 299) := by decide

/-- VC10. -/
theorem test_decode_ctrlUpdateCtrl2 : decode (.frame 0x22#8 [0xF7#8]) = .ok (.ctrlUpdateCtrl2 0xF7#8) := by decide

/-- VC1. -/
theorem test_decode_ctrlMasterActivate : decode (.frame 0x20#8 []) = .ok (.ctrlMasterActivate) := by decide

/-- VC9. -/
theorem test_decode_ctrlLoadTemperature : decode (.frame 0x1A#8 [0xA6#8]) = .ok (.ctrlLoadTemperature 0xA6#8) := by decide

/-- VC9. -/
theorem test_decode_ctrlDeepSleep : decode (.frame 0x10#8 [0xA8#8]) = .ok (.ctrlDeepSleep 0xA8#8) := by decide

/-- VC11, the opcode of the primary plane. -/
theorem test_decode_ctrlWriteRamPrimary (p : List Byte) (h : p.length = 15000) : decode (.frame 0x24#8 p) = .ok (.ctrlWriteRamPrimary p) :=
  if_pos ((hasLength_iff p 15000).2 h)

/-- VC11, the opcode of the secondary plane. -/
theorem test_decode_ctrlWriteRamSecondary (p : List Byte) (h : p.length = 15000) : decode (.frame 0x26#8 p) = .ok (.ctrlWriteRamSecondary p) :=
  if_pos ((hasLength_iff p 15000).2 h)

/-! ### Refused by the decoder: L2-B, and the frames of R102 and R104 -/

theorem test_VB1 : decode (.request ⟨0x0000000000000000#64, []⟩) = .error .reservedOp := by decide

theorem test_VB2 : decode (.request ⟨0x000000000000000C#64, []⟩) = .error .reservedOp := by decide

theorem test_VB2_F : decode (.request ⟨0x000000000000000F#64, []⟩) = .error .reservedOp := by decide

theorem test_VB3 : decode (.request ⟨0x0000000000000041#64, []⟩) = .error .reservedBits := by decide

theorem test_VB4 : decode (.request ⟨0x0000000000000081#64, []⟩) = .error .reservedBits := by decide

theorem test_VB5 : decode (.request ⟨0x0100000000000001#64, []⟩) = .error .reservedBits := by decide

theorem test_VB6 : decode (.request ⟨0x8000000000000001#64, []⟩) = .error .reservedBits := by decide

theorem test_VB7 : decode (.request ⟨0x0000000000000101#64, []⟩) = .error .unusedField := by decide

theorem test_VB8 : decode (.request ⟨0x0000100000000003#64, []⟩) = .error .unusedField := by decide

theorem test_VB9 : decode (.request ⟨0x0000400100000007#64, []⟩) = .error .unusedField := by decide

theorem test_VB10 : decode (.request ⟨0x000000000000002B#64, []⟩) = .error .unusedField := by decide

theorem test_VB11 : decode (.request ⟨0x000000000000001A#64, []⟩) = .error .unusedField := by decide

theorem test_VB12 : decode (.request ⟨0x0000000000000018#64, []⟩) = .error .unusedField := by decide

theorem test_VB13 : decode (.request ⟨0x0000000000000003#64, [0x00#8]⟩) = .error .payloadLength := by decide

theorem test_VB14 : decode (.request ⟨0x0000100800000006#64, []⟩) = .error .payloadLength := by decide

theorem test_reserved_opcode : decode (.frame 0x00#8 []) = .error .reservedOpcode := by decide

theorem test_frame_length : decode (.frame 0x44#8 [0x00#8]) = .error .dataLength := by decide

/-- The codes of 10_state.md R32 and R34 and the failure statuses of 30_encoding.md R100 as signed values. -/
theorem test_codes :
    DevState.sleeping.code = 2#2 ∧ Mode.fast.code = 1#2 ∧ Mode.partialMode.code = 2#2 ∧ Mode.gray4.code = 3#2 ∧
      Status.eTransport.toInt = -1 ∧ Status.eEnc.toInt = -2 ∧ Status.eState.toInt = -3 ∧ Status.eBounds.toInt = -4 ∧
      Status.eArg.toInt = -5 := by decide

/-! ### The framebuffer requests: L2-A -/

theorem test_VA1 :
    after (.merge 3 1 10 1 [0x00#8, 0x00#8]) (block .uninit .full [(50, 0xFF#8), (51, 0xFF#8)])
      (fun t => (t.status, t.fb, t.trace)) = some (0x00#8, [(50, 0xE0#8), (51, 0x07#8)], []) := by decide

/-- Rows are not padded, and the pad bits (VA5) are ignored. -/
theorem test_VA5 :
    after (.merge 0 0 3 3 [0xAA#8, 0xFF#8]) (block .sleeping .full [(0, 0x00#8), (50, 0x00#8), (100, 0x00#8)])
      (fun t => (t.status, t.fb)) = some (0x00#8, [(0, 0xA0#8), (50, 0x40#8), (100, 0xA0#8)]) := by decide

theorem test_VA16 :
    after (.fbFill true) (block .uninit .full []) (fun t => (t.status, t.fbRead 0, t.fbRead 49, t.trace)) =
      some (0x00#8, 0xFF#8, 0xFF#8, []) := by decide

/-- VA17: the response carries `FB` in index order. -/
theorem test_toBitmap :
    after .toBitmap (block .sleeping .full [(0, 0x12#8), (1, 0x34#8)]) (fun t => t.responses.map fun r => (r.status, r.data.take 2)) =
      some [(0x00#8, [0x12#8, 0x34#8])] := by decide

/-! ### The bus requests: L2-E, L2-F, L2-G -/

/-- VE1 from its first event to the wait after the reset pulse, and `INIT G` of L2-F. -/
theorem test_init :
    after (.init false true) (block .uninit .full []) (fun t => (t.trace.take 9, t.status, t.devState, t.mode)) =
      some ([.transportInit 0, .pinWrite .rst 1#1, .delayMs 100, .pinWrite .rst 0#1, .delayMs 2, .pinWrite .rst 1#1,
        .delayMs 100, .busyRead 0#1, .pinWrite .dc 0#1], 0x00#8, .ready, .gray4) := by decide

/-- VE2: the temperature load follows the border waveform, and `INIT_FAST` of L2-F. -/
theorem test_initFast :
    after (.initFast false false) (block .ready .gray4 [])
      (fun t => ((t.trace.drop 27).take 14, t.status, t.devState, t.mode)) =
      some ([.xfer 0xA2#8, .pinWrite .cs 1#1, .pinWrite .dc 0#1, .pinWrite .cs 0#1, .xfer 0x1A#8, .pinWrite .cs 1#1,
        .pinWrite .dc 1#1, .pinWrite .cs 0#1, .xfer 0xA6#8, .pinWrite .cs 1#1, .pinWrite .dc 0#1, .pinWrite .cs 0#1,
        .xfer 0x22#8, .pinWrite .cs 1#1], 0x00#8, .ready, .fast) := by decide

/-- VE10: a failed bring-up from `READY`. -/
theorem test_transport_failure :
    after (.init false false) { block .ready .full [] with transportIn := [-7] }
      (fun t => (t.trace, t.status, t.devState, t.mode)) = some ([.transportInit (-7)], 0xFF#8, .uninit, .full) := by decide

/-- VE3, up to the first data byte. -/
theorem test_clear :
    after .clear (block .ready .partialMode []) (fun t => (t.status, t.trace.take 7, t.mode)) =
      some (0x00#8, [.pinWrite .dc 0#1, .pinWrite .cs 0#1, .xfer 0x24#8, .pinWrite .cs 1#1, .pinWrite .dc 1#1,
        .pinWrite .cs 0#1, .xfer 0xFF#8], .partialMode) := by decide

/-- L1-3, up to the first data byte. -/
theorem test_displayFull :
    after .displayFull (block .ready .fast [(0, 0x5A#8)]) (fun t => (t.status, t.trace.take 7)) =
      some (0x00#8, [.pinWrite .dc 0#1, .pinWrite .cs 0#1, .xfer 0x24#8, .pinWrite .cs 1#1, .pinWrite .dc 1#1,
        .pinWrite .cs 0#1, .xfer 0x5A#8]) := by decide

/-- L1-4: the frames before the plane carry the partial parameters and the full-panel window. -/
theorem test_displayPartial :
    after .displayPartial (block .ready .full [(0, 0x5A#8)])
      (fun t => (t.status, (t.trace.take 61).filterMap fun e => match e with | .xfer b => some b | _ => none)) =
      some (0x00#8, [0x3C#8, 0xA5#8, 0x21#8, 0xA3#8, 0xA4#8, 0x44#8, 0x00#8, 0x31#8, 0x45#8, 0x00#8, 0x00#8, 0x2B#8, 0x01#8,
        0x4E#8, 0x00#8, 0x4F#8, 0x00#8, 0x00#8, 0x24#8, 0x5A#8]) := by decide

/-- VE6: the merge comes before the refresh. -/
theorem test_draw :
    after (.draw 0 0 8 1 [0x0F#8]) (block .ready .gray4 [(0, 0xFF#8)]) (fun t => (t.status, t.trace.take 7, t.fb)) =
      some (0x00#8, [.pinWrite .dc 0#1, .pinWrite .cs 0#1, .xfer 0x24#8, .pinWrite .cs 1#1, .pinWrite .dc 1#1,
        .pinWrite .cs 0#1, .xfer 0x0F#8], [(0, 0x0F#8)]) := by decide

/-- VH9. -/
theorem test_draw_bounds :
    after (.draw 0 300 1 1 [0x00#8]) (block .ready .full []) (fun t => (t.status, t.trace)) = some (0xFC#8, []) := by decide

set_option maxRecDepth 8000 in
/-- R245, with a controller that is busy at the first tile's wait: that tile is merged, the second is not. -/
theorem test_fill :
    after (.fill false 1) { block .ready .full [(0, 0xFF#8), (49, 0xFF#8), (50, 0xFF#8)] with busyIn := [1#1] }
      (fun t => (t.active, t.fbRead 0, t.fbRead 49, t.fbRead 50)) = some (true, 0x00#8, 0x00#8, 0xFF#8) := by decide

/-- VG1, VG3, VG7. -/
theorem test_tiles :
    tiles 128 = [(0, 128), (128, 128), (256, 44)] ∧ tiles 301 = [(0, 300)] ∧
      tiles 44 = [(0, 44), (44, 44), (88, 44), (132, 44), (176, 44), (220, 44), (264, 36)] := by decide

/-- VG8. -/
theorem test_fill_arg :
    after (.fill true 0) (block .ready .full []) (fun t => (t.status, t.trace)) = some (0xFB#8, []) := by decide

/-- VE8. -/
theorem test_sleep :
    after .sleep (block .ready .fast []) (fun t => (t.trace, t.status, t.devState, t.mode)) =
      some ([.pinWrite .dc 0#1, .pinWrite .cs 0#1, .xfer 0x10#8, .pinWrite .cs 1#1, .pinWrite .dc 1#1, .pinWrite .cs 0#1,
        .xfer 0xA8#8, .pinWrite .cs 1#1], 0x00#8, .sleeping, .fast) := by decide

/-! ### The controller commands: L2-C -/

/-- VC1. -/
theorem test_ctrlMasterActivate :
    after .ctrlMasterActivate (block .ready .full []) (fun t => (t.trace, t.pinDc, t.pinCs)) =
      some ([.pinWrite .dc 0#1, .pinWrite .cs 0#1, .xfer 0x20#8, .pinWrite .cs 1#1], 0#1, 1#1) := by decide

/-- VC5. -/
theorem test_ctrlRamYWindow :
    after (.ctrlRamYWindow 0 299) (block .ready .full []) (fun t => (t.trace, t.pinDc, t.pinCs)) =
      some ([.pinWrite .dc 0#1, .pinWrite .cs 0#1, .xfer 0x45#8, .pinWrite .cs 1#1, .pinWrite .dc 1#1, .pinWrite .cs 0#1,
        .xfer 0x00#8, .xfer 0x00#8, .xfer 0x2B#8, .xfer 0x01#8, .pinWrite .cs 1#1], 1#1, 1#1) := by decide

/-! ### Steps: L2-D, L2-H, P4, P6 -/

/-- VH1: `E_STATE` before `E_BOUNDS`. -/
theorem test_VH1 :
    afterStep { block .uninit .full [] with requests := [⟨0x0000100800018B06#64, [0x00#8]⟩] }
      (fun t => (t.status, t.trace, t.requests)) = some (0xFD#8, [], []) := by decide

/-- VH3: `TransportInit` is not called. -/
theorem test_VH3 :
    afterStep { block .uninit .full [] with requests := [⟨0x0000000000000041#64, []⟩] }
      (fun t => (t.status, t.trace, t.responses)) = some (0xFE#8, [], [⟨0xFE#8, []⟩]) := by decide

/-- VD3: a busy level, then the delay and the next read. -/
theorem test_VD3 :
    afterRun 2 { block .uninit .full [] with active := true, pending := [.poll], busyIn := [1#1, 0#1] }
      (fun t => (t.trace, t.pending, t.active)) = some ([.busyRead 1#1, .delayMs 20, .busyRead 0#1], [], true) := by decide

/-- P6: a block reset ends a waiting request (70_reset_and_hazards.md R320). -/
theorem test_blockReset :
    afterStep { block .ready .fast [] with active := true, pending := [.repoll], resetIn := some 0 }
      (fun t => (t.devState, t.mode, t.active, t.responses, t.trace)) = some (.uninit, .full, false, [], []) := by decide

/-- A reset one event into a `SLEEP` (70_reset_and_hazards.md R321): one unit of progress is the request, one the event. -/
theorem test_blockReset_inside :
    afterStep { block .ready .full [] with requests := [⟨0x0000000000000008#64, []⟩], resetIn := some 2 }
      (fun t => (t.devState, t.trace, t.responses, t.requests)) = some (.uninit, [.pinWrite .dc 0#1], [], []) := by decide

/-- The opcode table's words: `decodeTableWord` and a fetched word. -/
theorem test_withFetchWord :
    decodeTableWord 64 0x1 = some (.init false false) ∧ decodeTableWord 8 0x20 = some .ctrlMasterActivate ∧
      afterStep (State.reset.withFetchWord 8 0x20) (fun t => t.trace.length) = some 4 ∧
      afterStep (State.reset.withFetchWord 64 0x3) (fun t => t.status) = some 0xFD#8 := by decide

/-! ### Witnesses for the hypotheses of the statements -/

/-- A block waiting for the controller inside an `INIT`. -/
def waiting : State :=
  { block .uninit .full [(0, 0xFF#8)] with active := true, seq := 8, pending := [.repoll, .frame 0x12#8 []], busyIn := [1#1, 1#1, 0#1] }

theorem waiting_inv : waiting.Inv :=
  ⟨by decide, by decide, .of_none (by decide), by decide, by decide, rfl, rfl⟩

/-- The same block with the last two operations of an `INIT_FAST` to run. -/
theorem finishing_inv : State.Inv { waiting with pending := [.setMode .fast, .setDevState .ready] } :=
  ⟨by decide, by decide, ⟨[], _, rfl, by simp, .inr (.inr ⟨_, rfl⟩)⟩, by decide, by decide, rfl, rfl⟩

/-- The same block with the very last one. -/
theorem finished_inv : State.Inv { waiting with pending := [.setDevState .ready] } :=
  ⟨by decide, by decide, ⟨[], _, rfl, by simp, .inr (.inl rfl)⟩, by decide, by decide, rfl, rfl⟩

/-- A sleeping block with two requests presented. -/
def asleep : State :=
  { block .sleeping .fast [] with requests := [⟨0x0000000000000001#64, []⟩, ⟨0x000000000000000A#64, []⟩] }

theorem asleep_inv : asleep.Inv :=
  ⟨by decide, by decide, .of_none (by decide), by decide, by decide, rfl, rfl⟩

/-- An idle block in `READY` with one request presented. -/
def given (r : Request) : State := { block .ready .full [(0, 0xFF#8)] with requests := [r] }

theorem given_inv (r : Request) : (given r).Inv where
  fbWf := show Memory.wf [(0, 0xFF#8)] by decide
  pendingWf := by simp [given, block, State.reset]
  stateWritesLast := .of_none (by simp [given, block, State.reset])
  idle _ := ⟨rfl, rfl⟩
  sleepingIdle _ := rfl
  csHigh := rfl
  rstHigh := rfl

theorem witness_DecodeOfEncode :
    Instr.wellFormed (.draw 399 299 1 1 [0x80#8]) = true ∧ Instr.wellFormed (.merge 0 0 0 4095 []) = true := by decide

theorem witness_DecodeOfEncode_plane : Instr.wellFormed (.ctrlWriteRamPrimary whitePlane) = true := by
  rw [Instr.wellFormed, hasLength_iff]
  exact List.length_replicate

theorem witness_EncodeOfDecode : decode (.request ⟨0x0000000000000001#64, []⟩) = .ok (.init false false) := by decide

theorem witness_RequestIsIllegalExactlyWhen :
    (∃ e, decode (.request ⟨0x0000100000000003#64, []⟩) = .error e) ∧ ∃ i, decode (.request ⟨0x000000000000001B#64, []⟩) = .ok i :=
  ⟨⟨.unusedField, rfl⟩, ⟨.fbFill true, rfl⟩⟩

theorem witness_FrameIsACommandExactlyWhen : ∃ i, decode (.frame 0x4F#8 [0x2B#8, 0x01#8]) = .ok i := ⟨.ctrlRamYCounter 299, rfl⟩

/-- The four clauses: an idle block with a request; an active one at a frame, at a RAM-plane frame; an idle one with none. -/
theorem witness_StepRuns_request :
    (given ⟨0x0000000000000004#64, []⟩).resetIn = none ∧ (given ⟨0x0000000000000004#64, []⟩).active = false ∧
      (given ⟨0x0000000000000004#64, []⟩).requests = ⟨0x0000000000000004#64, []⟩ :: [] ∧
      decode (.request ⟨0x0000000000000004#64, []⟩) = .ok .displayFull := by decide

theorem witness_StepRuns_frame :
    ∃ s : State, s.resetIn = none ∧ s.active = true ∧ s.pending = .frame 0x12#8 [] :: [.poll] ∧
      decode (.frame 0x12#8 []) = .ok .ctrlSwReset :=
  ⟨{ waiting with pending := [.frame 0x12#8 [], .poll] }, rfl, rfl, rfl, rfl⟩

theorem witness_StepRuns_plane :
    ∃ s : State, s.resetIn = none ∧ s.active = true ∧ s.pending = .plane 0x26#8 :: [.poll] ∧
      decode (.frame 0x26#8 s.fbBytes) = .ok (.ctrlWriteRamSecondary s.fbBytes) :=
  ⟨{ waiting with pending := [.plane 0x26#8, .poll] }, rfl, rfl, rfl,
    test_decode_ctrlWriteRamSecondary _ (State.length_fbBytes _)⟩

theorem witness_StepRuns_none : (block .ready .full []).active = false ∧ (block .ready .full []).requests = [] := by decide

theorem witness_IllegalRequest :
    IllegalRequest ⟨0x0000100800000006#64, []⟩ ∧ (given ⟨0x0000100800000006#64, []⟩).active = false ∧
      (given ⟨0x0000100800000006#64, []⟩).requests = ⟨0x0000100800000006#64, []⟩ :: [] := by
  refine ⟨?_, rfl, rfl⟩
  unfold IllegalRequest
  decide

theorem witness_IllegalRequest_legal :
    ¬ IllegalRequest ⟨0x000000000000000A#64, []⟩ ∧
      ∃ t, step (given ⟨0x000000000000000A#64, []⟩) = .next t ∧ t.active = false := by
  refine ⟨?_, _, rfl, rfl⟩
  unfold IllegalRequest
  decide

theorem witness_UnservedRequest :
    isCommand (.draw 395 0 8 1 [0x00#8]) = false ∧ (block .sleeping .full []).active = false ∧
      servedIn (.draw 395 0 8 1 [0x00#8]) (block .sleeping .full []).devState = false ∧
      servedIn (.init false false) (block .sleeping .full []).devState = false ∧
      servedIn (.clear) (block .uninit .full []).devState = false := by decide

theorem witness_UnservedRequest_served :
    servedIn .sleep (block .ready .full []).devState = true ∧
      ∃ t, exec .sleep (block .ready .full []) = .next t ∧ t.active = false := ⟨rfl, _, rfl, rfl⟩

/-- The edges of the panel: one column too many, one row too many. -/
theorem witness_OutsideRectangle :
    400 < (393 : Coord).toNat + (8 : Coord).toNat ∧ 300 < (300 : Coord).toNat + (1 : Coord).toNat ∧
      400 < (401 : Coord).toNat + (0 : Coord).toNat ∧ (block .ready .full []).active = false ∧
      (block .ready .full []).devState = .ready := by decide

theorem witness_OutsideRectangle_status :
    ∃ t, exec (.merge 401 0 0 0 []) (block .uninit .full []) = .next t ∧ t.active = false ∧ t.status = 0xFC#8 :=
  ⟨_, rfl, rfl, rfl⟩

theorem witness_ZeroTileHeight :
    (block .ready .full []).active = false ∧ (block .ready .full []).devState = .ready ∧
      ∃ t, exec (.fill true 0) (block .ready .full []) = .next t ∧ t.active = false ∧ t.status = 0xFB#8 :=
  ⟨rfl, rfl, _, rfl, rfl, rfl⟩

/-- A block whose next transport status is 5 (VE9). -/
def failing : State := { block .ready .gray4 [] with transportIn := [5], requests := [⟨0x0000000000000001#64, []⟩] }

theorem witness_TransportFailure :
    failing.active = false ∧ failing.devState ≠ .sleeping ∧ failing.nextTransport ≠ 0 ∧
      ∃ t, exec (.initFast true true) failing = .next t ∧ t.active = false ∧ t.status = 0xFF#8 :=
  ⟨rfl, by decide, by decide, _, rfl, rfl, rfl⟩

/-- Each clause of the priority has a request: VH3, VH1, VH9, P4 6 in `READY`, VE9. -/
theorem witness_PriorityOfTheChecks :
    IllegalRequest ⟨0x0000000000000041#64, []⟩ ∧
      decode (.request ⟨0x0000100800018B06#64, [0x00#8]⟩) = .ok (.draw 395 0 8 1 [0x00#8]) ∧
      servedIn (.draw 395 0 8 1 [0x00#8]) .uninit = false ∧ servedIn (.draw 0 300 1 1 [0x00#8]) .ready = true ∧
      300 < (300 : Coord).toNat + (1 : Coord).toNat ∧
      decode (.request ⟨0x0000000000000017#64, []⟩) = .ok (.fill true 0) ∧ servedIn (.fill true 0) .ready = true ∧
      failing.requests = ⟨0x0000000000000001#64, []⟩ :: [] ∧ failing.resetIn = none ∧
      decode (.request ⟨0x0000000000000001#64, []⟩) = .ok (.init false false) ∧
      servedIn (.init false false) failing.devState = true ∧ failing.nextTransport ≠ 0 := by
  refine ⟨?_, by decide⟩
  unfold IllegalRequest
  decide

/-- A request that ends, and one that is left waiting. -/
theorem witness_RequestEndsWithOneResponse :
    isCommand .toBitmap = false ∧ (∃ t, exec .toBitmap (block .ready .full []) = .next t ∧ t.active = false) ∧
      ∃ t, exec .displayFull { block .ready .full [] with busyIn := [1#1] } = .next t ∧ t.active = true :=
  ⟨rfl, ⟨_, rfl, rfl⟩, _, rfl, rfl⟩

theorem witness_FailureStatuses :
    (∃ t, step (given ⟨0x0000000000000041#64, []⟩) = .next t ∧ t.active = false ∧ t.status = 0xFE#8) ∧
      ∃ t, step failing = .next t ∧ t.active = false ∧ t.status = 0xFF#8 :=
  ⟨⟨_, rfl, rfl, rfl⟩, _, rfl, rfl, rfl⟩

/-- The end of a request that was left waiting. -/
theorem witness_FailureStatuses_waiting :
    ∃ s t : State, s.Inv ∧ s.resetIn = none ∧ s.active = true ∧ step s = .next t ∧ t.active = false :=
  ⟨{ waiting with pending := [] }, _,
    ⟨by decide, by decide, .of_none (by decide), by decide, by decide, rfl, rfl⟩, rfl, rfl, rfl, rfl⟩

theorem witness_PlaneCommands : whitePlane.length = 15000 := List.length_replicate

/-- The last byte of the panel, and a rectangle of no size at its far corner (VA7, VA9). -/
theorem witness_MergeCompletes :
    (block .uninit .full []).active = false ∧ Instr.wellFormed (.merge 392 299 8 1 [0xFF#8]) = true ∧
      (392 : Coord).toNat + (8 : Coord).toNat ≤ 400 ∧ (299 : Coord).toNat + (1 : Coord).toNat ≤ 300 ∧
      Instr.wellFormed (.merge 400 300 0 0 []) = true ∧ (400 : Coord).toNat + (0 : Coord).toNat ≤ 400 ∧
      (300 : Coord).toNat + (0 : Coord).toNat ≤ 300 := by decide

theorem witness_MergeOfToBitmap :
    ∃ (t : State) (data : List Byte), exec .toBitmap (block .ready .full []) = .next t ∧
      t.responses = (block .ready .full []).responses ++ [⟨0x00#8, data⟩] := ⟨_, _, rfl, rfl⟩

/-- Idle for the four reads an `INIT_FAST` makes, so for each of the fewer reads of the other requests. -/
theorem witness_idle :
    (block .ready .partialMode []).active = false ∧ (block .ready .partialMode []).devState = .ready ∧
      (block .ready .partialMode []).IdleFor 1 ∧ (block .ready .partialMode []).IdleFor 3 ∧
      (block .ready .partialMode []).IdleFor 4 ∧ (block .ready .partialMode []).nextTransport = 0 := by
  unfold State.IdleFor
  decide

/-- A draw at the far corner; the state is that of `witness_idle`. -/
theorem witness_DrawCompletes :
    Instr.wellFormed (.draw 399 299 1 1 [0x80#8]) = true ∧ (399 : Coord).toNat + (1 : Coord).toNat ≤ 400 ∧
      (299 : Coord).toNat + (1 : Coord).toNat ≤ 300 := by decide

/-- Tile heights with one tile of the whole panel, one larger than it, and three tiles. -/
theorem witness_FillCompletes :
    (block .ready .full []).IdleFor ((300 + (300 : Coord).toNat - 1) / (300 : Coord).toNat) ∧
      (block .ready .full []).IdleFor ((300 + (4095 : Coord).toNat - 1) / (4095 : Coord).toNat) ∧
      (block .ready .full []).IdleFor ((300 + (128 : Coord).toNat - 1) / (128 : Coord).toNat) ∧
      (128 : Coord).toNat ≠ 0 := by
  unfold State.IdleFor
  decide

/-- Any `t` but 0; here the least and the greatest the field holds. -/
theorem witness_TilesCoverThePanel : (1 : Nat) ≠ 0 ∧ (4095 : Nat) ≠ 0 := by decide

/-- `k = 0` and `k = 2`. -/
theorem witness_WaitIdle :
    ∃ s : State, s.resetIn = none ∧ s.active = true ∧ s.pending = .poll :: [.resetPulse] ∧
      (s.BusyFor 2 ∧ s.busyAt 2 ≠ s.params.busyLevel) := by
  refine ⟨{ waiting with pending := [.poll, .resetPulse] }, rfl, rfl, rfl, ?_⟩
  unfold State.BusyFor
  decide

theorem witness_WaitIdle_idle :
    ∃ s : State, s.resetIn = none ∧ s.active = true ∧ s.pending = .poll :: [] ∧
      (s.BusyFor 0 ∧ s.busyAt 0 ≠ s.params.busyLevel) := by
  refine ⟨{ waiting with pending := [.poll], busyIn := [0#1] }, rfl, rfl, rfl, ?_⟩
  unfold State.BusyFor
  decide

theorem witness_BusyController :
    waiting.resetIn = none ∧ waiting.active = true ∧ waiting.pending = .repoll :: [.frame 0x12#8 []] ∧ waiting.BusyFor 2 ∧
      State.BusyFor { waiting with pending := [.poll, .frame 0x12#8 []] } 2 := by
  unfold State.BusyFor
  decide

theorem witness_RequestsThatCanHang :
    ∃ s : State, s.active = false ∧ s.BusyFor 1 ∧ servedIn .clear s.devState = true ∧ (∃ t, exec .clear s = .next t) ∧
      ∃ t, exec .sleep s = .next t := by
  refine ⟨{ block .ready .full [] with busyIn := [1#1] }, rfl, ?_, rfl, ⟨_, rfl⟩, _, rfl⟩
  unfold State.BusyFor
  decide

/-- An `INIT_FAST` left waiting at its second `WaitIdle()`, the one after `0x12` (42_reset_sequencer.md R206). -/
theorem witness_WaitingRequest :
    isCommand (.initFast false false) = false ∧ (block .uninit .full []).active = false ∧
      ∃ t, exec (.initFast false false) { block .uninit .full [] with busyIn := [0#1, 1#1] } = .next t ∧ t.active = true :=
  ⟨rfl, rfl, _, rfl, rfl⟩

/-- P3 and VD3: two busy levels, an idle one at the first wait of an `INIT_FAST`, idle levels at its other three; no wait at all in
a `SLEEP`. -/
theorem witness_BusyReads :
    ∃ s t : State, s.active = false ∧ s.resetIn = none ∧ s.WaitsFor 0 [2, 0, 0, 0] ∧
      exec (.initFast false false) (s.withIdleReads 4) = .next t ∧ t.active = false ∧ t.busyIn = [] ∧
      t.busyDraws = s.busyDraws := by
  refine ⟨{ block .uninit .full [] with busyIn := [1#1, 1#1, 0#1, 0#1, 0#1, 0#1] }, _, rfl, rfl, ?_, rfl, rfl, rfl, rfl⟩
  simp only [State.WaitsFor]
  decide

theorem witness_BusyReads_none :
    ∃ s t : State, s.active = false ∧ s.resetIn = none ∧ s.WaitsFor 0 [] ∧
      exec .sleep (s.withIdleReads 0) = .next t ∧ t.active = false ∧ t.busyIn = [] ∧ t.busyDraws = s.busyDraws :=
  ⟨block .ready .full [], _, rfl, rfl, trivial, rfl, rfl, rfl, rfl⟩

theorem witness_StepsOfAnActiveBlock :
    waiting.resetIn = none ∧ (∀ op ∈ waiting.pending, op.wf = true) ∧ waiting.active = true := by decide

theorem witness_BlockResetAtAnyTime : State.resetIn { waiting with resetIn := some 0 } = some 0 := rfl

/-- A reset after the first event of a `SLEEP`. -/
theorem witness_BlockResetInside :
    ∃ s u : State, s.resetIn = some 2 ∧ 0 < 2 ∧ s.proceed = .next u ∧ 2 < progressBetween s u :=
  ⟨{ given ⟨0x0000000000000008#64, []⟩ with resetIn := some 2 }, _, rfl, by decide, rfl, by decide⟩

/-- The statements about every step from an invariant state: an active block and an idle one. -/
theorem witness_Inv_step :
    waiting.Inv ∧ waiting.resetIn = none ∧ waiting.active = true ∧ (∃ t, step waiting = .next t) ∧
      (given ⟨0x000000000000001B#64, []⟩).active = false ∧ ∃ t, step (given ⟨0x000000000000001B#64, []⟩) = .next t :=
  ⟨waiting_inv, rfl, rfl, ⟨_, rfl⟩, rfl, _, rfl⟩

/-- A step without a reset input, one whose reset input lies beyond it, one the reset strikes. -/
theorem witness_SleepingBlock :
    asleep.Inv ∧ asleep.devState = .sleeping ∧ (∃ t, step asleep = .next t ∧ t.requests = [⟨0x000000000000000A#64, []⟩]) ∧
      (∃ t, step { asleep with resetIn := some 5 } = .next t ∧ t.devState = .sleeping ∧ t.resetIn ≠ none) ∧
      State.ResetStrikes { asleep with resetIn := some 0 } ∧ ∃ t, step { asleep with resetIn := some 0 } = .next t :=
  ⟨asleep_inv, rfl, ⟨_, rfl, rfl⟩, ⟨_, rfl, rfl, by decide⟩, .inl rfl, _, rfl⟩

/-- As an instruction: a failed bring-up, a completed one, `SLEEP`. -/
theorem witness_DeviceStateTransitions :
    (∃ t, exec (.init false false) failing = .next t ∧ t.devState ≠ failing.devState) ∧
      (∃ t, exec (.init false false) (block .uninit .full []) = .next t ∧ t.devState ≠ .uninit) ∧
      ∃ t, exec .sleep (block .ready .full []) = .next t ∧ t.devState ≠ .ready :=
  ⟨⟨_, rfl, by decide⟩, ⟨_, rfl, by decide⟩, _, rfl, by decide⟩

/-- As a step: a reset that strikes, a `SLEEP` accepted, the last operation of an `INIT_FAST` that waited. -/
theorem witness_DeviceStateTransitions_step :
    ((given ⟨0x8#64, []⟩).Inv ∧ ∃ t, step { given ⟨0x8#64, []⟩ with resetIn := some 0 } = .next t ∧ t.devState ≠ .ready) ∧
      (∃ t, step (given ⟨0x8#64, []⟩) = .next t ∧ t.devState ≠ .ready) ∧
      State.Inv { waiting with pending := [.setDevState .ready] } ∧
      ∃ t, step { waiting with pending := [.setDevState .ready] } = .next t ∧ t.devState ≠ waiting.devState :=
  ⟨⟨given_inv _, _, rfl, by decide⟩, ⟨_, rfl, by decide⟩, finished_inv, _, rfl, by decide⟩

theorem witness_ModeIsWritten :
    ∃ t, exec (.initFast false false) (block .uninit .full []) = .next t ∧ t.mode ≠ (block .uninit .full []).mode :=
  ⟨_, rfl, by decide⟩

/-- As a step: a reset that strikes, an `INIT_FAST` accepted, `MODE <- FAST` of one that waited. -/
theorem witness_ModeIsWritten_step :
    (asleep.mode = .fast ∧ ∃ t, step { asleep with resetIn := some 0 } = .next t ∧ t.mode = .full) ∧
      ((given ⟨0x2#64, []⟩).Inv ∧ ∃ t, step (given ⟨0x2#64, []⟩) = .next t ∧ t.mode ≠ .full) ∧
      State.Inv { waiting with pending := [.setMode .fast, .setDevState .ready] } ∧
      ∃ t, step { waiting with pending := [.setMode .fast, .setDevState .ready] } = .next t ∧ t.mode ≠ waiting.mode :=
  ⟨⟨rfl, _, rfl, rfl⟩, ⟨given_inv _, _, rfl, by decide⟩, finishing_inv, _, rfl, by decide⟩

end Sys2Proof.Tests
end

section
/-! PROOFS. What the block does next only makes events and gives at most one response, whatever its program is; from that, the
outputs only grow. -/

namespace Sys2Proof.Machine

/-! ### At most one response -/

/-- From `s` to `t` at most one response is sent. -/
def State.AnswersOnce (s t : State) : Prop := t.responses = s.responses ∨ ∃ r, t.responses = s.responses ++ [r]

/-- A response is sent, or none, by a state with the same responses as `s`. -/
theorem State.AnswersOnce.of_eq {s s' t : State} (h : s'.AnswersOnce t) (e : s'.responses = s.responses) :
    s.AnswersOnce t := by
  unfold State.AnswersOnce at h ⊢
  rwa [e] at h

theorem State.AnswersOnce.prefix {s t : State} (h : s.AnswersOnce t) : s.responses <+: t.responses := by
  rcases h with h | ⟨r, h⟩
  · exact ⟨[], by rw [h, List.append_nil]⟩
  · exact ⟨[r], h.symm⟩

theorem State.answersOnce_respond (s : State) (st : Byte) (data : List Byte) : s.AnswersOnce (s.respond st data) :=
  .inr ⟨⟨st, data⟩, rfl⟩

theorem drain_answersOnce (prog : List SeqOp) (s : State) : s.AnswersOnce (drain prog s) := by
  rcases drain_cases prog s with ⟨-, -, hr, -⟩ | ⟨-, hr, -⟩
  · exact .inr ⟨_, hr⟩
  · exact .inl hr

theorem State.whenReady_answersOnce (serve : State → State) (s : State) (h : s.AnswersOnce (serve s)) :
    s.AnswersOnce (s.whenReady serve) := by
  unfold State.whenReady
  split
  · exact h
  · exact s.answersOnce_respond _ _

theorem initRequest_answersOnce (fast part gray : Bool) (s : State) : s.AnswersOnce (initRequest fast part gray s) := by
  have ht : s.transportInit.responses = s.responses := by simp
  unfold initRequest initSequence
  split
  · exact s.answersOnce_respond _ _
  · split
    · exact (drain_answersOnce _ _).of_eq ht
    · exact (State.answersOnce_respond { s.transportInit with devState := .uninit } _ _).of_eq ht

/-- Every instruction sends at most one response: a request answers or waits (30_encoding.md R98), a controller command only makes
events. -/
theorem exec_answersOnce {i : Instr} {s t : State} (h : exec i s = .next t) : s.AnswersOnce t := by
  have acc : ∀ {u : State}, s.accept.AnswersOnce u → s.AnswersOnce u := fun hu => hu.of_eq rfl
  cases i <;> cases h
  case init => exact acc (initRequest_answersOnce _ _ _ _)
  case initFast => exact acc (initRequest_answersOnce _ _ _ _)
  case clear => exact acc (State.whenReady_answersOnce _ _ (drain_answersOnce _ _))
  case displayFull => exact acc (State.whenReady_answersOnce _ _ (drain_answersOnce _ _))
  case displayPartial => exact acc (State.whenReady_answersOnce _ _ (drain_answersOnce _ _))
  case draw =>
    refine acc (State.whenReady_answersOnce _ _ ?_)
    split
    · exact (drain_answersOnce _ _).of_eq (State.mergeRect_responses ..)
    · exact State.answersOnce_respond _ _ _
  case fill =>
    refine acc (State.whenReady_answersOnce _ _ ?_)
    split
    · exact State.answersOnce_respond _ _ _
    · exact drain_answersOnce _ _
  case sleep => exact acc (State.whenReady_answersOnce _ _ (drain_answersOnce _ _))
  case merge =>
    refine acc ?_
    split
    · exact (State.answersOnce_respond _ _ _).of_eq (State.mergeRect_responses ..)
    · exact State.answersOnce_respond _ _ _
  case toBitmap => exact acc (State.answersOnce_respond _ _ _)
  case fbFill => exact acc ((State.answersOnce_respond _ _ _).of_eq (State.fbFill_responses ..))
  all_goals exact .inl rfl

/-! ### What the block does next, for every pending program -/

/-- A frame that is taken at all is `WriteReg` of its bytes: the decoder has checked its length (30_encoding.md R102). -/
theorem State.eq_writeReg_of_runFrame {s t : State} {op : Byte} {data : List Byte} (h : s.runFrame op data = .next t) :
    t = s.writeReg op data := by
  cases hd : decode (.frame op data) with
  | ok i =>
    rw [State.runFrame_eq s (dataLength_of_decode hd)] at h
    cases h
    rfl
  | error e =>
    rw [State.runFrame, hd] at h
    cases e <;> cases h

/-- As `State.runPending_cases`, without its premise on the program: the request ends, or the program's head has its effect. -/
theorem State.runPending_eq_effect {s t : State} (h : s.runPending = .next t) :
    (s.pending = [] ∧ t = s.respond Status.ok []) ∨
      ∃ op rest l, s.pending = op :: rest ∧ t = { op.effect s with pending := l } := by
  have wait (u : State) (rest : List SeqOp) : ∃ l, u.waitStep rest = { u.busyRead with pending := l } := by
    unfold State.waitStep
    split <;> exact ⟨_, rfl⟩
  unfold State.runPending at h
  split at h
  case h_1 hp =>
    cases h
    exact .inl ⟨hp, rfl⟩
  case h_2 op bs rest hp => exact .inr ⟨_, _, rest, hp, State.eq_writeReg_of_runFrame h⟩
  case h_3 op rest hp =>
    cases State.eq_writeReg_of_runFrame h
    exact .inr ⟨_, _, rest, hp, State.emit_setPending s _ rest⟩
  case h_4 rest hp =>
    cases h
    obtain ⟨l, hl⟩ := wait s rest
    exact .inr ⟨_, _, l, hp, hl⟩
  case h_5 rest hp =>
    cases h
    obtain ⟨l, hl⟩ := wait s.waitDelay rest
    exact .inr ⟨_, _, l, hp, hl⟩
  case h_6 op rest _ _ _ _ hp =>
    cases h
    exact .inr ⟨_, _, rest, hp, SeqOp.effect_setPending _ _ _⟩

/-- What the block does next: an active one goes on with its program; an idle one waits, or takes the oldest request. -/
theorem State.proceed_cases {s t : State} (h : s.proceed = .next t) :
    (s.active = true ∧ s.runPending = .next t) ∨ (s.active = false ∧ s.requests = [] ∧ t = s) ∨
      ∃ r rest, s.active = false ∧ s.requests = r :: rest ∧ State.serve r { s with requests := rest } = .next t := by
  unfold State.proceed at h
  split at h
  · exact .inl ⟨‹_›, h⟩
  · have ha : s.active = false := by simpa using ‹¬ s.active = true›
    split at h
    · cases h
      exact .inr (.inl ⟨ha, ‹_›, rfl⟩)
    · exact .inr (.inr ⟨_, _, ha, ‹_›, h⟩)

/-- A request is decoded and executed, or ends at once with `E_ENC` (30_encoding.md R95). -/
theorem State.serve_cases {r : Request} {s t : State} (h : s.serve r = .next t) :
    (∃ i, decode (.request r) = .ok i ∧ exec i s = .next t) ∨
      ∃ e, decode (.request r) = .error e ∧ t = s.accept.raise Status.eEnc := by
  unfold State.serve at h
  split at h
  · exact .inl ⟨_, ‹_›, h⟩
  · cases h
    exact .inr ⟨_, ‹_›, rfl⟩

theorem State.runPending_emits {s t : State} (h : s.runPending = .next t) : ∃ es, s.Emits t es := by
  rcases State.runPending_eq_effect h with ⟨-, rfl⟩ | ⟨op, rest, l, -, rfl⟩
  · exact ⟨_, s.emits_respond _ _⟩
  · exact ⟨_, (op.effect_emits s).of_eq rfl rfl rfl rfl rfl rfl rfl rfl⟩

theorem State.serve_emits {r : Request} {s t : State} (h : s.serve r = .next t) : ∃ es, s.Emits t es := by
  rcases State.serve_cases h with ⟨i, -, h⟩ | ⟨e, -, rfl⟩
  · exact exec_emits h
  · exact ⟨_, s.emits_accept.trans (State.emits_respond _ _ _)⟩

/-- Whatever the block does next only makes events; beside them it takes a request from the list at most. -/
theorem State.proceed_emits {s t : State} (h : s.proceed = .next t) :
    ∃ es, State.Emits { s with requests := t.requests } t es := by
  rcases State.proceed_cases h with ⟨-, h⟩ | ⟨-, -, rfl⟩ | ⟨r, rest, -, -, h⟩
  · obtain ⟨es, he⟩ := State.runPending_emits h
    rw [he.requests]
    exact ⟨es, he⟩
  · exact ⟨[], State.Emits.refl _⟩
  · obtain ⟨es, he⟩ := State.serve_emits h
    rw [he.requests]
    exact ⟨es, he⟩

/-- Whatever the block does next sends at most one response (30_encoding.md R98). -/
theorem State.proceed_answersOnce {s t : State} (h : s.proceed = .next t) : s.AnswersOnce t := by
  rcases State.proceed_cases h with ⟨-, h⟩ | ⟨-, -, rfl⟩ | ⟨r, rest, -, -, h⟩
  · rcases State.runPending_eq_effect h with ⟨-, rfl⟩ | ⟨op, _, l, -, rfl⟩
    · exact s.answersOnce_respond _ _
    · obtain ⟨-, hr, -⟩ := op.effect_keeps s
      exact .inl hr
  · exact .inl rfl
  · rcases State.serve_cases h with ⟨i, -, h⟩ | ⟨e, -, rfl⟩
    · exact (exec_answersOnce h).of_eq rfl
    · exact (State.answersOnce_respond _ _ _).of_eq rfl

/-! ### The outputs only grow -/

/-- Both outputs of `t` begin with those of `s`. -/
def State.OutputsGrow (s t : State) : Prop := s.trace <+: t.trace ∧ s.responses <+: t.responses

theorem State.proceed_outputsGrow {s t : State} (h : s.proceed = .next t) : s.OutputsGrow t := by
  obtain ⟨es, he⟩ := State.proceed_emits h
  exact ⟨⟨es, he.trace.symm⟩, (State.proceed_answersOnce h).prefix⟩

theorem State.blockReset_outputsGrow (s : State) : s.OutputsGrow s.blockReset :=
  ⟨List.prefix_rfl, List.prefix_rfl⟩

/-- A reset inside a step keeps the outputs so far and the events up to it; the request it abandons is not answered
(70_reset_and_hazards.md R320). -/
theorem State.cutByReset_outputsGrow (s t : State) (n : Nat) : s.OutputsGrow (s.cutByReset t n) := by
  obtain ⟨_, _, _, _, h⟩ := s.cutByReset_eq t n
  rw [h]
  exact ⟨List.prefix_append _ _, List.prefix_rfl⟩

/-- Settles O49: in each of the ways a step can go, both outputs begin with what they were. -/
theorem outputsOnlyGrow : Obligations.OutputsOnlyGrow := by
  intro s t h
  rcases step_cases h with ⟨-, rfl⟩ | ⟨u, hu, ⟨-, rfl⟩ | ⟨n, -, -, rfl⟩ | ⟨n, -, -, rfl⟩⟩
  · exact s.blockReset_outputsGrow
  · exact State.proceed_outputsGrow hu
  · exact s.cutByReset_outputsGrow u n
  · have hg : s.OutputsGrow u := State.proceed_outputsGrow hu
    exact hg

end Sys2Proof.Machine
end

section
/-! PROOFS. The state after a block reset: its values and the invariant (10_state.md R45). -/

namespace Sys2Proof.Machine

/-- Settles O39: both the state at the model's start and a block reset write these values out. -/
theorem resetValues : Obligations.ResetValues := by
  rintro t (rfl | ⟨s, rfl⟩) <;> exact ⟨rfl, rfl, rfl, rfl, rfl, rfl, rfl⟩

/-- Settles O42: nothing is written in `FB`, no program runs, the block is idle in `UNINIT`, and both lines are high. -/
theorem invHoldsAtReset : Obligations.InvHoldsAtReset where
  fbWf := ⟨.nil, List.forall_mem_nil _⟩
  pendingWf := List.forall_mem_nil _
  stateWritesLast := .of_none (List.forall_mem_nil _)
  idle := fun _ => ⟨rfl, rfl⟩
  sleepingIdle := fun _ => rfl
  csHigh := rfl
  rstHigh := rfl

end Sys2Proof.Machine
end

section
/-! PROOFS. The pin latches hold the level of the last `PinWrite` (10_state.md R37). -/

namespace Sys2Proof.Machine

/-- The level an event writes to a pin, if it does. -/
def Event.writtenTo (p : Pin) : Event → Option Level
  | .pinWrite q l => if q = p then some l else none
  | _ => none

/-- An event sets the latch to the level it writes, and otherwise leaves it. -/
theorem Event.latch_eq (p : Pin) (l : Level) (e : Event) : e.latch p l = (e.writtenTo p).getD l := by
  cases e
  case pinWrite q v => by_cases h : q = p <;> simp [Event.latch, Event.writtenTo, h]
  all_goals rfl

/-- After a list of events a latch holds the last level written to its pin, or its old one where none was. -/
theorem latchAfter_eq_getLast? (p : Pin) (l : Level) (es : List Event) :
    latchAfter p l es = ((es.filterMap (Event.writtenTo p)).getLast?).getD l := by
  induction es generalizing l with
  | nil => rfl
  | cons e es ih =>
    rw [latchAfter_cons, ih, Event.latch_eq]
    cases h : e.writtenTo p with
    | none => rw [List.filterMap_cons_none h, Option.getD_none]
    | some v => rw [List.filterMap_cons_some h, List.getLast?_cons, Option.getD_some, Option.getD_some]

/-- Settles O45: without a block reset a step is what the block does next, and that only makes events, which the latches
follow. -/
theorem latchesHoldTheLastPinWrite : Obligations.LatchesHoldTheLastPinWrite := by
  intro s t hr h
  rw [step_eq_proceed hr] at h
  obtain ⟨es, he⟩ := State.proceed_emits h
  refine ⟨es, he.trace, fun p => ?_⟩
  cases p
  case rst => exact he.pinRst.trans (latchAfter_eq_getLast? _ _ _)
  case dc => exact he.pinDc.trans (latchAfter_eq_getLast? _ _ _)
  case cs => exact he.pinCs.trans (latchAfter_eq_getLast? _ _ _)

end Sys2Proof.Machine
end

section
/-! PROOFS. What writes `DEV_STATE` and `MODE` (10_state.md R33, R35): as an instruction, then as a step. -/

namespace Sys2Proof.Machine

/-! ### As an instruction -/

/-- `DEV_STATE` and `MODE` are the same in both states. -/
def State.KeepsRegs (s t : State) : Prop := t.devState = s.devState ∧ t.mode = s.mode

theorem State.KeepsRegs.trans {s t u : State} (h : s.KeepsRegs t) (h' : t.KeepsRegs u) : s.KeepsRegs u :=
  ⟨h'.1.trans h.1, h'.2.trans h.2⟩

/-- Running a program whose first part writes neither register comes to its second part, or to a wait, with both as
they were. -/
theorem drain_append_keepsRegs (pre tail : List SeqOp) (hp : ∀ op ∈ pre, op.writesState = false) (s : State) :
    s.KeepsRegs (drain (pre ++ tail) s) ∨ ∃ u, s.KeepsRegs u ∧ drain (pre ++ tail) s = drain tail u := by
  induction pre generalizing s with
  | nil => exact .inr ⟨s, ⟨rfl, rfl⟩, rfl⟩
  | cons op pre ih =>
    obtain ⟨ho, hp⟩ := List.forall_mem_cons.1 hp
    have hk : s.KeepsRegs (op.effect s) := op.effect_keepsState ho s
    rw [List.cons_append]
    rcases drain_cons op (pre ++ tail) s with h | ⟨h, -⟩
    · rw [h]
      rcases ih hp (op.effect s) with h' | ⟨u, hu, h'⟩
      · exact .inl (hk.trans h')
      · exact .inr ⟨u, hk.trans hu, h'⟩
    · rw [h]
      exact .inl hk

/-- A plain program, one that writes neither register, keeps both. -/
theorem drain_keepsRegs {prog : List SeqOp} (hp : ∀ op ∈ prog, op.writesState = false ∧ op ≠ .repoll) (s : State) :
    s.KeepsRegs (drain prog s) := by
  rcases drain_append_keepsRegs prog [] (fun op h => (hp op h).1) s with h | ⟨u, hu, h⟩
  · rwa [List.append_nil] at h
  · rw [List.append_nil] at h
    rw [h]
    exact hu

theorem State.whenReady_keepsRegs (serve : State → State) (s : State) (h : s.KeepsRegs (serve s)) :
    s.KeepsRegs (s.whenReady serve) := by
  unfold State.whenReady
  split
  · exact h
  · exact ⟨rfl, rfl⟩

/-- From `s` an `InitSequence` has completed in `t`, with `MODE` now `m` (43_refresh_sequencer.md R232). -/
structure State.BroughtUp (s t : State) (m : Mode) : Prop where
  transport : s.nextTransport = 0
  devState : t.devState = .ready
  mode : t.mode = m
  status : t.status = 0x00#8
  active : t.active = false

/-- From `s` an `InitSequence` has ended in `t` with a failed transport (43_refresh_sequencer.md R233). -/
structure State.BringUpFailed (s t : State) : Prop where
  transport : s.nextTransport ≠ 0
  devState : t.devState = .uninit
  mode : t.mode = s.mode
  status : t.status = 0xFF#8

/-- The program of `InitSequence` completes, or waits with both registers as they were. -/
theorem drain_initProgram_cases (fast part gray : Bool) (p : Params) {s a : State} (ht : s.nextTransport = 0)
    (ha : s.KeepsRegs a) :
    s.KeepsRegs (drain (initProgram fast part gray p) a) ∨
      s.BroughtUp (drain (initProgram fast part gray p) a) (modeOf fast part gray) := by
  obtain ⟨pre, e, hp⟩ := initProgram_split fast part gray p
  rw [e]
  rcases drain_append_keepsRegs pre [.setMode (modeOf fast part gray), .setDevState .ready] (fun op h => (hp op h).1) a with
    h | ⟨u, -, h⟩
  · exact .inl (ha.trans h)
  · rw [h]
    exact .inr ⟨ht, rfl, rfl, rfl, rfl⟩

/-- What `INIT` and `INIT_FAST` do to both registers: nothing while refused or waiting, or they end. -/
theorem initRequest_cases (fast part gray : Bool) (s : State) :
    s.KeepsRegs (initRequest fast part gray s.accept) ∨
      s.devState ≠ .sleeping ∧ (s.BroughtUp (initRequest fast part gray s.accept) (modeOf fast part gray) ∨
        s.BringUpFailed (initRequest fast part gray s.accept)) := by
  unfold initRequest initSequence
  split
  case isTrue => exact .inl ⟨rfl, rfl⟩
  case isFalse hd =>
    split
    case isTrue ht =>
      have ha : s.KeepsRegs s.accept.transportInit := ⟨by simp, by simp⟩
      exact (drain_initProgram_cases (s := s) fast part gray _ ht ha).imp_right fun h => ⟨hd, .inl h⟩
    case isFalse ht =>
      have hm : s.accept.transportInit.mode = s.mode := by simp
      exact .inr ⟨hd, .inr ⟨ht, rfl, hm, rfl⟩⟩

/-- What an instruction does to `DEV_STATE` and `MODE` (10_state.md R33, R35): nothing, or it is an `INIT` or `INIT_FAST` that
ends, or a `SLEEP` in `READY`. -/
theorem exec_regs_cases {i : Instr} {s t : State} (h : exec i s = .next t) :
    s.KeepsRegs t ∨
      (∃ part gray, (i = .init part gray ∨ i = .initFast part gray) ∧ s.devState ≠ .sleeping ∧
        (s.BroughtUp t (modeOf (decide (i = .initFast part gray)) part gray) ∨ s.BringUpFailed t)) ∨
      (i = .sleep ∧ s.devState = .ready ∧ t.devState = .sleeping ∧ t.mode = s.mode) := by
  cases i <;> cases h
  case init part gray =>
    refine (initRequest_cases false part gray s).imp_right fun ⟨hd, he⟩ => .inl ⟨part, gray, .inl rfl, hd, ?_⟩
    simpa using he
  case initFast part gray =>
    refine (initRequest_cases true part gray s).imp_right fun ⟨hd, he⟩ => .inl ⟨part, gray, .inr rfl, hd, ?_⟩
    simpa using he
  case clear => exact .inl (State.whenReady_keepsRegs _ s.accept (drain_keepsRegs plain_clearProgram _))
  case displayFull => exact .inl (State.whenReady_keepsRegs _ s.accept (drain_keepsRegs (plain_displayFullProgram _) _))
  case displayPartial =>
    exact .inl (State.whenReady_keepsRegs _ s.accept (drain_keepsRegs (plain_displayPartialProgram _) _))
  case draw x y w h p =>
    refine .inl (State.whenReady_keepsRegs _ s.accept ?_)
    split
    · have hm : s.accept.KeepsRegs (s.accept.mergeRect x.toNat y.toNat w.toNat h.toNat (payloadSrc p w.toNat)) :=
        ⟨State.mergeRect_devState .., State.mergeRect_mode ..⟩
      exact hm.trans (drain_keepsRegs (plain_refreshProgram _ _) _)
    · exact ⟨rfl, rfl⟩
  case fill =>
    refine .inl (State.whenReady_keepsRegs _ s.accept ?_)
    split
    · exact ⟨rfl, rfl⟩
    · exact drain_keepsRegs (plain_fillProgram _ _ _ _) _
  case sleep =>
    by_cases hd : s.accept.devState = .ready
    · rw [State.whenReady, if_pos hd]
      exact .inr (.inr ⟨rfl, hd, rfl, rfl⟩)
    · rw [State.whenReady, if_neg hd]
      exact .inl ⟨rfl, rfl⟩
  case merge =>
    split
    · exact .inl ⟨State.mergeRect_devState .., State.mergeRect_mode ..⟩
    · exact .inl ⟨rfl, rfl⟩
  case fbFill c => exact .inl ⟨s.accept.fbFill_devState (fillByte c), s.accept.fbFill_mode (fillByte c)⟩
  all_goals exact .inl ⟨rfl, rfl⟩

/-- The instruction half of 10_state.md R33. -/
theorem exec_devState_cases {i : Instr} {s t : State} (h : exec i s = .next t) (hne : t.devState ≠ s.devState) :
    ((∃ part gray, i = .init part gray ∨ i = .initFast part gray) ∧ s.devState ≠ .sleeping ∧
      (t.devState = .ready ∧ s.nextTransport = 0 ∧ t.status = 0x00#8
        ∨ t.devState = .uninit ∧ s.nextTransport ≠ 0 ∧ t.status = 0xFF#8)) ∨
    (i = .sleep ∧ s.devState = .ready ∧ t.devState = .sleeping) := by
  rcases exec_regs_cases h with ⟨hd, -⟩ | ⟨part, gray, hi, hd, hu | hf⟩ | ⟨hi, hd, hs, -⟩
  · exact absurd hd hne
  · exact .inl ⟨⟨part, gray, hi⟩, hd, .inl ⟨hu.devState, hu.transport, hu.status⟩⟩
  · exact .inl ⟨⟨part, gray, hi⟩, hd, .inr ⟨hf.devState, hf.transport, hf.status⟩⟩
  · exact .inr ⟨hi, hd, hs⟩

/-- The instruction half of 10_state.md R35. -/
theorem exec_mode_cases {i : Instr} {s t : State} (h : exec i s = .next t) (hne : t.mode ≠ s.mode) :
    ∃ part gray, (i = .init part gray ∨ i = .initFast part gray) ∧ t.devState = .ready ∧ t.status = 0x00#8 ∧
      t.active = false ∧
      t.mode = (if part then .partialMode else if gray then .gray4
        else if i = .initFast part gray then .fast else .full) := by
  rcases exec_regs_cases h with ⟨-, hm⟩ | ⟨part, gray, hi, -, hu | hf⟩ | ⟨-, -, -, hm⟩
  · exact absurd hm hne
  · exact ⟨part, gray, hi, hu.devState, hu.status, hu.active, by simpa [modeOf] using hu.mode⟩
  · exact absurd hf.mode hne
  · exact absurd hm hne

/-! ### As a step -/

/-- A step is a block reset that strikes in it, or what the block does next but for the reset input. -/
theorem step_resets_or_proceeds {s t : State} (h : step s = .next t) :
    (s.ResetStrikes ∧ t.devState = .uninit ∧ t.mode = .full) ∨
      ∃ u r, s.proceed = .next u ∧ t = { u with resetIn := r } := by
  rcases step_cases h with ⟨hr, rfl⟩ | ⟨u, hu, ⟨hr, rfl⟩ | ⟨n, hr, hn, rfl⟩ | ⟨n, -, -, rfl⟩⟩
  · exact .inl ⟨.inl hr, rfl, rfl⟩
  · exact .inr ⟨t, t.resetIn, hu, rfl⟩
  · obtain ⟨_, _, _, _, hc⟩ := s.cutByReset_eq u n
    rw [hc]
    exact .inl ⟨.inr ⟨n, u, hr, hu, hn⟩, rfl, rfl⟩
  · exact .inr ⟨u, _, hu, rfl⟩

/-- What an active block's next operation does to `DEV_STATE` and `MODE`: nothing, unless it is one of the last two of an
`InitSequence` (43_refresh_sequencer.md R232). -/
theorem State.runPending_regs_cases {s t : State} (hi : s.Inv) (h : s.runPending = .next t) :
    s.KeepsRegs t ∨ (s.pending = [.setDevState .ready] ∧ t.devState = .ready ∧ t.mode = s.mode) ∨
      ∃ m, s.pending = [.setMode m, .setDevState .ready] ∧ t.devState = s.devState ∧ t.mode = m ∧
        t.pending = [.setDevState .ready] := by
  rcases State.runPending_cases hi.pendingWf h with ⟨-, rfl⟩ | ⟨op, rest, hp, ht⟩
  · exact .inl ⟨rfl, rfl⟩
  · have hw := hi.stateWritesLast
    rw [hp] at hw ⊢
    rcases hw.head with ⟨ho, -⟩ | ⟨rfl, rfl⟩ | ⟨m, rfl, rfl⟩
    · have hk : s.KeepsRegs (op.effect s) := op.effect_keepsState ho s
      rcases ht with rfl | ⟨rfl, -⟩ <;> exact .inl hk
    · rcases ht with rfl | ⟨-, ho | ho⟩
      · exact .inr (.inl ⟨rfl, rfl, rfl⟩)
      · cases ho
      · cases ho
    · rcases ht with rfl | ⟨-, ho | ho⟩
      · exact .inr (.inr ⟨m, rfl, rfl, rfl, rfl⟩)
      · cases ho
      · cases ho

/-- What the block does next changes `DEV_STATE` or `MODE` as a request an idle block accepts, or as one of the last two
operations of an `InitSequence` that waited. -/
theorem State.proceed_regs_cases {s t : State} (hi : s.Inv) (h : s.proceed = .next t) :
    s.KeepsRegs t ∨
      (s.active = false ∧ ∃ r rest i, s.requests = r :: rest ∧ decode (.request r) = .ok i ∧
        exec i { s with requests := rest } = .next t) ∨
      (s.active = true ∧ s.pending = [.setDevState .ready] ∧ t.devState = .ready ∧ t.mode = s.mode) ∨
      (s.active = true ∧ ∃ m, s.pending = [.setMode m, .setDevState .ready] ∧ t.devState = s.devState ∧ t.mode = m ∧
        t.pending = [.setDevState .ready]) := by
  rcases State.proceed_cases h with ⟨ha, h⟩ | ⟨-, -, rfl⟩ | ⟨r, rest, ha, hr, h⟩
  · rcases State.runPending_regs_cases hi h with hk | hd | hm
    · exact .inl hk
    · exact .inr (.inr (.inl ⟨ha, hd⟩))
    · exact .inr (.inr (.inr ⟨ha, hm⟩))
  · exact .inl ⟨rfl, rfl⟩
  · rcases State.serve_cases h with ⟨i, hd, h⟩ | ⟨e, -, rfl⟩
    · exact .inr (.inl ⟨ha, r, rest, i, hr, hd, h⟩)
    · exact .inl ⟨rfl, rfl⟩

/-- Settles O51: a reset that strikes, a request's own change, or the last operation of an `InitSequence`, which no sleeping
block runs since it is idle. -/
theorem deviceStateTransitions : Obligations.DeviceStateTransitions := by
  refine ⟨fun i s t => exec_devState_cases, fun s t hi h hne => ?_⟩
  rcases step_resets_or_proceeds h with ⟨hr, hd, -⟩ | ⟨u, _, hu, rfl⟩
  · exact .inl ⟨hr, hd⟩
  · rcases State.proceed_regs_cases hi hu with
      ⟨hd, -⟩ | ⟨ha, r, rest, i, hr, hd, h⟩ | ⟨ha, hp, hd, -⟩ | ⟨-, m, -, hd, -⟩
    · exact absurd hd hne
    · have hc := exec_devState_cases h hne
      exact .inr (.inl ⟨ha, r, rest, i, hr, hd, hc⟩)
    · have hs : s.devState ≠ .sleeping := fun hs => by simp [hi.sleepingIdle hs] at ha
      exact .inr (.inr ⟨ha, hp, hs, hd⟩)
    · exact absurd hd hne

/-- Settles O52: a reset that strikes, an `INIT` or `INIT_FAST` that completes, or the operation before the last of an
`InitSequence`. -/
theorem modeIsWrittenByInitOnly : Obligations.ModeIsWrittenByInitOnly := by
  refine ⟨fun i s t => exec_mode_cases, fun s t hi h hne => ?_⟩
  rcases step_resets_or_proceeds h with ⟨hr, -, hm⟩ | ⟨u, _, hu, rfl⟩
  · exact .inl ⟨hr, hm⟩
  · rcases State.proceed_regs_cases hi hu with
      ⟨-, hm⟩ | ⟨ha, r, rest, i, hr, hd, h⟩ | ⟨-, -, -, hm⟩ | ⟨ha, m, hp, -, hm, hp'⟩
    · exact absurd hm hne
    · obtain ⟨part, gray, hc⟩ := exec_mode_cases h hne
      exact .inr (.inl ⟨ha, r, rest, i, part, gray, hr, hd, hc⟩)
    · exact absurd hm hne
    · exact .inr (.inr ⟨ha, m, hp, hm, hp'⟩)

end Sys2Proof.Machine
end

section
/-! PROOFS. Every step keeps the invariant: from what every operation of a program keeps to programs, requests and steps. -/

namespace Sys2Proof.Machine

/-! ### What holds between two operations -/

/-- The part of the invariant that does not speak of the program: the framebuffer's canonical form and both lines high. -/
structure State.Settled (s : State) : Prop where
  fbWf : s.fb.wf
  csHigh : s.pinCs = Config.csDeassert
  rstHigh : s.pinRst = 1#1

/-- A request may run: the block is settled, active and not asleep. -/
structure State.Running (s : State) : Prop where
  settled : s.Settled
  active : s.active = true
  awake : s.devState ≠ .sleeping

theorem State.Inv.settled {s : State} (h : s.Inv) : s.Settled := ⟨h.fbWf, h.csHigh, h.rstHigh⟩

/-- An active block with the invariant is one whose request runs. -/
theorem State.Inv.running {s : State} (h : s.Inv) (ha : s.active = true) : s.Running :=
  ⟨h.settled, ha, fun hd => by simp [h.sleepingIdle hd] at ha⟩

/-- The end of a request gives the invariant. -/
theorem State.Settled.inv_respond {s : State} (h : s.Settled) (st : Byte) (data : List Byte) : (s.respond st data).Inv where
  fbWf := h.fbWf
  pendingWf := List.forall_mem_nil _
  stateWritesLast := .of_none (List.forall_mem_nil _)
  idle _ := ⟨rfl, rfl⟩
  sleepingIdle _ := rfl
  csHigh := h.csHigh
  rstHigh := h.rstHigh

/-- A running request with a known program still to run has the invariant. -/
theorem State.Running.inv_setPending {s : State} (h : s.Running) {prog : List SeqOp} (hw : ∀ op ∈ prog, op.wf = true)
    (hl : StateWritesLast prog) : State.Inv { s with pending := prog } where
  fbWf := h.settled.fbWf
  pendingWf := hw
  stateWritesLast := hl
  idle ha := absurd (h.active.symm.trans ha) (by decide)
  sleepingIdle hd := absurd hd h.awake
  csHigh := h.settled.csHigh
  rstHigh := h.settled.rstHigh

/-- The acceptance of a request keeps the block settled. -/
theorem State.Settled.accept {s : State} (h : s.Settled) : s.accept.Settled := ⟨h.fbWf, h.csHigh, h.rstHigh⟩

/-- A merge inside the panel keeps the block settled. -/
theorem State.Settled.mergeRect {s : State} (h : s.Settled) {x y w k : Nat} (hp : insidePanel x y w k)
    (src : Nat → Nat → Bool) : (s.mergeRect x y w k src).Settled where
  fbWf := State.wf_mergeRect _ _ _ _ _ _ h.fbWf hp.1 hp.2
  csHigh := (State.mergeRect_pinCs ..).trans h.csHigh
  rstHigh := (State.mergeRect_pinRst ..).trans h.rstHigh

/-- A fill keeps the block settled. -/
theorem State.Settled.fbFill {s : State} (h : s.Settled) (v : Byte) : (s.fbFill v).Settled where
  fbWf := (s.fbFill_fb v).symm ▸ Memory.wf_filled v
  csHigh := (s.fbFill_pinCs v).trans h.csHigh
  rstHigh := (s.fbFill_pinRst v).trans h.rstHigh

/-! ### Operations and programs -/

/-- No operation leaves a chip-select window open (41_command_encoder.md R161, R162). -/
theorem SeqOp.latchAfter_cs_events (op : SeqOp) (s : State) :
    latchAfter .cs Config.csDeassert (op.events s) = Config.csDeassert := by
  cases op
  case frame => exact latchAfter_cs_writeReg _ _ _
  case plane => exact latchAfter_cs_writeReg _ _ _
  all_goals rfl

/-- No operation leaves the panel reset line low (42_reset_sequencer.md R200). -/
theorem SeqOp.latchAfter_rst_events (op : SeqOp) (s : State) : latchAfter .rst 1#1 (op.events s) = 1#1 := by
  cases op
  case frame => exact latchAfter_rst_writeReg _ _ _
  case plane => exact latchAfter_rst_writeReg _ _ _
  all_goals rfl

/-- A known operation keeps the framebuffer's canonical form: a tile lies inside the panel. -/
theorem SeqOp.effect_fbWf {op : SeqOp} (hw : op.wf = true) {s : State} (h : s.fb.wf) : (op.effect s).fb.wf := by
  cases op
  case fbFill v => exact (s.fbFill_fb v).symm ▸ Memory.wf_filled v
  case mergeSolid y k c => exact State.wf_mergeRect _ _ _ _ _ _ h (by simp) (of_decide_eq_true hw)
  case poll => exact s.popBusy_fb.symm ▸ h
  case repoll => exact s.waitDelay.popBusy_fb.symm ▸ h
  case plane c => exact (s.emit_fb (writeRegEvents c s.fbBytes)).symm ▸ h
  all_goals exact h

/-- A known operation does not put the block to sleep. -/
theorem SeqOp.effect_awake {op : SeqOp} (hw : op.wf = true) {s : State} (h : s.devState ≠ .sleeping) :
    (op.effect s).devState ≠ .sleeping := by
  cases ho : op.writesState
  case false =>
    obtain ⟨hd, -⟩ := op.effect_keepsState ho s
    rwa [hd]
  case true =>
    cases op
    case setMode m => exact h
    case setDevState d => simpa [SeqOp.wf, SeqOp.effect] using hw
    all_goals cases ho

/-- A request runs on after a known operation. -/
theorem State.Running.effect {op : SeqOp} (hw : op.wf = true) {s : State} (h : s.Running) : (op.effect s).Running := by
  have he := op.effect_emits s
  obtain ⟨ha, -⟩ := op.effect_keeps s
  refine ⟨⟨SeqOp.effect_fbWf hw h.settled.fbWf, ?_, ?_⟩, ha.trans h.active, SeqOp.effect_awake hw h.awake⟩
  · rw [he.pinCs, h.settled.csHigh, op.latchAfter_cs_events]
  · rw [he.pinRst, h.settled.rstHigh, op.latchAfter_rst_events]

/-- A known program keeps the invariant, to its end or to its next wait. -/
theorem State.Running.inv_drain {prog : List SeqOp} (hw : ∀ op ∈ prog, op.wf = true) (hl : StateWritesLast prog) {s : State}
    (h : s.Running) : (drain prog s).Inv := by
  induction prog generalizing s with
  | nil => exact h.settled.inv_respond _ _
  | cons op rest ih =>
    obtain ⟨hop, hrest⟩ := List.forall_mem_cons.1 hw
    have h' := h.effect hop
    rcases drain_cons op rest s with hd | ⟨hd, -⟩
    · rw [hd]
      exact ih hrest hl.tail h'
    · rw [hd]
      exact h'.inv_setPending (List.forall_mem_cons.2 ⟨rfl, hrest⟩) (hl.tail.cons rfl)

/-- As above for a program that writes neither `MODE` nor `DEV_STATE`. -/
theorem State.Running.inv_drain_plain {prog : List SeqOp} (hw : ∀ op ∈ prog, op.wf = true)
    (hp : ∀ op ∈ prog, op.writesState = false ∧ op ≠ .repoll) {s : State} (h : s.Running) : (drain prog s).Inv :=
  h.inv_drain hw (.of_none fun op ho => (hp op ho).1)

/-- `InitSequence` writes `MODE` and `DEV_STATE` at its end only (43_refresh_sequencer.md R232). -/
theorem stateWritesLast_initProgram (fast part gray : Bool) (p : Params) : StateWritesLast (initProgram fast part gray p) := by
  obtain ⟨pre, e, hp⟩ := initProgram_split fast part gray p
  exact ⟨pre, _, e, fun op ho => (hp op ho).1, .inr (.inr ⟨_, rfl⟩)⟩

/-! ### Requests -/

/-- A request that needs `READY` keeps the invariant if it does so when it runs (43_refresh_sequencer.md R220). -/
theorem State.Settled.inv_whenReady {s : State} (h : s.Settled) (serve : State → State)
    (hs : s.accept.Running → (serve s.accept).Inv) : (s.accept.whenReady serve).Inv := by
  unfold State.whenReady
  split
  case isTrue hd => exact hs ⟨h.accept, rfl, by rw [hd]; decide⟩
  case isFalse => exact h.accept.inv_respond _ _

/-- `INIT` and `INIT_FAST` keep the invariant: they are refused asleep, and a failed transport ends them. -/
theorem State.Settled.inv_initRequest {s : State} (h : s.Settled) (fast part gray : Bool) :
    (initRequest fast part gray s.accept).Inv := by
  have ht : s.accept.transportInit.Settled :=
    ⟨by simpa using h.fbWf, by simpa [Event.latch] using h.csHigh, by simpa [Event.latch] using h.rstHigh⟩
  unfold initRequest initSequence
  split
  case isTrue => exact h.accept.inv_respond _ _
  case isFalse hd =>
    split
    case isTrue =>
      have hr : s.accept.transportInit.Running := ⟨ht, by simp, by simpa using hd⟩
      exact hr.inv_drain (wf_initProgram _ _ _ _) (stateWritesLast_initProgram _ _ _ _)
    case isFalse =>
      have hu : State.Settled { s.accept.transportInit with devState := .uninit } := ⟨ht.fbWf, ht.csHigh, ht.rstHigh⟩
      exact hu.inv_respond _ _

/-- `SLEEP` runs to its end: nothing in its program waits (43_refresh_sequencer.md R250, R251). -/
theorem State.Settled.inv_sleep {s : State} (h : s.Settled) (p : Params) : (drain (sleepProgram p) s).Inv := by
  have hd : State.Settled { s.emit (writeRegEvents 0x10#8 [p.sleepData]) with devState := .sleeping } :=
    ⟨h.fbWf, latchAfter_cs_writeReg _ _ _, (latchAfter_rst_writeReg _ _ _).trans h.rstHigh⟩
  exact hd.inv_respond _ _

/-- The host has no raw command path: no request is decoded to a controller command (30_encoding.md R104). -/
theorem encode_ne_frame_of_decode {r : Request} {i : Instr} (h : decode (.request r) = .ok i) (op : Byte)
    (data : List Byte) : encode i ≠ .frame op data := by
  have ho : operation r.word r.payload = some i := by
    simp only [decode, decodeRequest] at h
    cases hop : operation r.word r.payload with
    | none => simp [hop] at h
    | some j =>
      simp only [hop] at h
      split_ifs at h
      cases h
      rfl
  unfold operation at ho
  split at ho <;> cases ho <;> exact Code.noConfusion

/-- A request that a settled block accepts gives the invariant, whether it ends or waits. -/
theorem State.Settled.inv_exec {i : Instr} (hi : ∀ op data, encode i ≠ .frame op data) {s t : State} (hs : s.Settled)
    (h : exec i s = .next t) : t.Inv := by
  have ha : s.accept.Settled := hs.accept
  cases i <;> cases h
  case init => exact hs.inv_initRequest _ _ _
  case initFast => exact hs.inv_initRequest _ _ _
  case clear => exact hs.inv_whenReady _ fun hr => hr.inv_drain_plain wf_clearProgram plain_clearProgram
  case displayFull =>
    exact hs.inv_whenReady _ fun hr => hr.inv_drain_plain (wf_displayFullProgram _) (plain_displayFullProgram _)
  case displayPartial =>
    exact hs.inv_whenReady _ fun hr => hr.inv_drain_plain (wf_displayPartialProgram _) (plain_displayPartialProgram _)
  case draw x y w k p =>
    refine hs.inv_whenReady _ fun hr => ?_
    split
    case isTrue hp =>
      have hm : (s.accept.mergeRect x.toNat y.toNat w.toNat k.toNat (payloadSrc p w.toNat)).Running :=
        ⟨ha.mergeRect hp _, by simp, by simpa using hr.awake⟩
      exact hm.inv_drain_plain (wf_refreshProgram _ _) (plain_refreshProgram _ _)
    case isFalse => exact ha.inv_respond _ _
  case fill c k =>
    refine hs.inv_whenReady _ fun hr => ?_
    split
    case isTrue => exact ha.inv_respond _ _
    case isFalse => exact hr.inv_drain_plain (wf_fillProgram _ _ _ _) (plain_fillProgram _ _ _ _)
  case sleep => exact hs.inv_whenReady _ fun _ => ha.inv_sleep _
  case merge =>
    split
    case isTrue hp => exact (ha.mergeRect hp _).inv_respond _ _
    case isFalse => exact ha.inv_respond _ _
  case toBitmap => exact ha.inv_respond _ _
  case fbFill => exact (ha.fbFill _).inv_respond _ _
  all_goals exact absurd rfl (hi _ _)

/-! ### Steps -/

/-- The next operation of an active block keeps the invariant. -/
theorem State.Inv.runPending {s t : State} (hi : s.Inv) (ha : s.active = true) (h : s.runPending = .next t) : t.Inv := by
  rcases State.runPending_cases hi.pendingWf h with ⟨-, rfl⟩ | ⟨op, rest, hp, ht⟩
  · exact hi.settled.inv_respond _ _
  · have hw := hi.pendingWf
    have hl := hi.stateWritesLast
    rw [hp] at hw hl
    obtain ⟨hop, hrest⟩ := List.forall_mem_cons.1 hw
    have hr := (hi.running ha).effect hop
    rcases ht with rfl | ⟨rfl, -⟩
    · exact hr.inv_setPending hrest hl.tail
    · exact hr.inv_setPending (List.forall_mem_cons.2 ⟨rfl, hrest⟩) (hl.tail.cons rfl)

/-- What the block does next keeps the invariant. -/
theorem State.Inv.proceed {s t : State} (hi : s.Inv) (h : s.proceed = .next t) : t.Inv := by
  rcases State.proceed_cases h with ⟨ha, h⟩ | ⟨-, -, rfl⟩ | ⟨r, rest, -, -, h⟩
  · exact hi.runPending ha h
  · exact hi
  · have hs : State.Settled { s with requests := rest } := ⟨hi.fbWf, hi.csHigh, hi.rstHigh⟩
    rcases State.serve_cases h with ⟨i, hd, h⟩ | ⟨e, -, rfl⟩
    · exact hs.inv_exec (encode_ne_frame_of_decode hd) h
    · exact hs.accept.inv_respond _ _

/-- A block reset gives the invariant, from any state (10_state.md R45). -/
theorem State.inv_blockReset (s : State) : s.blockReset.Inv where
  fbWf := Memory.wf_nil
  pendingWf := List.forall_mem_nil _
  stateWritesLast := .of_none (List.forall_mem_nil _)
  idle _ := ⟨rfl, rfl⟩
  sleepingIdle _ := rfl
  csHigh := rfl
  rstHigh := rfl

/-- The invariant does not look at the reset input. -/
theorem State.Inv.setResetIn {s : State} (h : s.Inv) (r : Option Nat) : State.Inv { s with resetIn := r } :=
  ⟨h.fbWf, h.pendingWf, h.stateWritesLast, h.idle, h.sleepingIdle, h.csHigh, h.rstHigh⟩

/-- Settles O43: a step is a block reset, or what the block does next with or without a reset to come. -/
theorem stepKeepsInv : Obligations.StepKeepsInv := by
  intro s t hi h
  rcases step_cases h with ⟨-, rfl⟩ | ⟨u, hu, ⟨-, rfl⟩ | ⟨n, -, -, rfl⟩ | ⟨n, -, -, rfl⟩⟩
  · exact s.inv_blockReset
  · exact hi.proceed hu
  · obtain ⟨_, _, _, _, hc⟩ := s.cutByReset_eq u n
    rw [hc]
    exact State.inv_blockReset _
  · exact (hi.proceed hu).setResetIn _

end Sys2Proof.Machine
end

section
/-! PROOFS. A program run operation by operation comes to the state `drain` gives (20_memory.md R72). -/

namespace Sys2Proof.Machine

/-- A step of an active block runs the head of its program as `drain` does: to where `drain` waits, or to the effect of the
head, from which `drain` goes on with the rest. -/
theorem step_runs_head {s : State} {op : SeqOp} {rest : List SeqOp} (hr : s.resetIn = none) (ha : s.active = true)
    (hp : s.pending = op :: rest) (hw : op.wf = true) :
    step s = .next (drain (op :: rest) s) ∨
      (step s = .next { op.effect s with pending := rest } ∧ drain (op :: rest) s = drain rest (op.effect s)) := by
  have hs : step s = s.runPending := (step_eq_proceed hr).trans (proceed_active ha)
  rw [State.runPending, hp] at hs
  cases op
  case frame c bs => exact .inr ⟨hs.trans (State.runFrame_eq _ (dataLength_of_wf_frame hw)), rfl⟩
  case plane c =>
    refine .inr ⟨hs.trans ((State.runFrame_eq _ (dataLength_of_wf_plane s hw)).trans ?_), rfl⟩
    exact congrArg _ (State.emit_setPending s _ rest)
  case poll =>
    rw [step_poll hr ha hp, drain_poll, State.waitStep]
    split
    · exact .inl rfl
    · exact .inr ⟨rfl, rfl⟩
  case repoll =>
    rw [step_repoll hr ha hp, drain_repoll, State.waitStep]
    split
    · exact .inl rfl
    · exact .inr ⟨rfl, rfl⟩
  all_goals exact .inr ⟨hs.trans (congrArg _ (SeqOp.effect_setPending _ s rest)), rfl⟩

/-- Settles O38, by induction on the program: a step runs its head, and the end of the program is the step that responds. -/
theorem stepsOfAnActiveBlockReachTheSameState : Obligations.StepsOfAnActiveBlockReachTheSameState := by
  intro prog
  induction prog with
  | nil =>
    intro s hr _ ha hp
    have hs : step s = .next (drain [] s) := by
      rw [step_eq_proceed hr, proceed_active ha, State.runPending, hp, drain_nil]
    exact ⟨1, run_succ hs 0⟩
  | cons op rest ih =>
    intro s hr hw ha hp
    obtain ⟨hop, hrest⟩ := List.forall_mem_cons.1 hw
    rcases step_runs_head hr ha hp hop with hs | ⟨hs, hd⟩
    · exact ⟨1, run_succ hs 0⟩
    · have hr' : (op.effect s).resetIn = none := (op.effect_emits s).resetIn.trans hr
      obtain ⟨ha', -⟩ := op.effect_keeps s
      obtain ⟨n, hn⟩ := ih { op.effect s with pending := rest } hr' hrest (ha'.trans ha) rfl
      rw [drain_setPending, ← hd] at hn
      exact ⟨n + 1, (run_succ hs n).trans hn⟩

end Sys2Proof.Machine
end

section
/-! PROOFS. The two encodings: what the decoder accepts, field by field, and that the encoder is its inverse both ways
(30_encoding.md R91 to R95, R102). -/

namespace Sys2Proof.Laws.LengthFits

/-- The family `LengthFits` as one statement. -/
theorem holds (i : Instr) : Statement i := by
  cases i
  exacts [init _ _, initFast _ _, clear, displayFull, displayPartial, draw _ _ _ _ _, fill _ _, sleep, merge _ _ _ _ _,
    toBitmap, fbFill _, ctrlSwReset, ctrlUpdateCtrl1 _ _, ctrlBorderWaveform _, ctrlDataEntry _, ctrlRamXWindow _ _,
    ctrlRamYWindow _ _, ctrlRamXCounter _, ctrlRamYCounter _, ctrlWriteRamPrimary _, ctrlWriteRamSecondary _,
    ctrlUpdateCtrl2 _, ctrlMasterActivate, ctrlLoadTemperature _, ctrlDeepSleep _]

/-- An instruction that encodes to a request is well-formed when the payload fits the word. -/
theorem wellFormed_iff_request {i : Instr} {r : Request} (he : encode i = .request r) :
    i.wellFormed = true ↔ r.payload.length = payloadLength r.word := by
  have h := holds i
  rwa [Statement, he] at h

/-- An instruction that encodes to a frame is well-formed when the data bytes fit the opcode. -/
theorem wellFormed_iff_frame {i : Instr} {op : Byte} {data : List Byte} (he : encode i = .frame op data) :
    i.wellFormed = true ↔ dataLength op = some data.length := by
  have h := holds i
  rwa [Statement, he] at h

end Sys2Proof.Laws.LengthFits

namespace Sys2Proof

open Laws.LengthFits

/-! ### What the decoder accepts -/

/-- A request is decoded when it passes every check of 30_encoding.md R95. -/
theorem decode_request_eq_ok_iff {r : Request} {i : Instr} :
    decode (.request r) = .ok i ↔
      operation r.word r.payload = some i ∧ ReqWord.rsv0 r.word = 0 ∧ ReqWord.rsv1 r.word = 0 ∧
        unusedFieldsZero r.word = true ∧ r.payload.length = payloadLength r.word := by
  rw [decode, decodeRequest]
  cases operation r.word r.payload with
  | none => simp
  | some j =>
    simp only [ne_eq, ← not_and_or, hasLength_eq_false_iff]
    split_ifs <;> simp_all

/-- A request is refused when it fails a check of 30_encoding.md R95. -/
theorem decode_request_eq_error_iff {r : Request} :
    (∃ e, decode (.request r) = .error e) ↔
      operation r.word r.payload = none ∨ ReqWord.rsv0 r.word ≠ 0 ∨ ReqWord.rsv1 r.word ≠ 0 ∨
        unusedFieldsZero r.word = false ∨ r.payload.length ≠ payloadLength r.word := by
  have hne : (∃ e, decode (.request r) = .error e) ↔ ∀ i, decode (.request r) ≠ .ok i := by
    cases decode (.request r) <;> simp
  rw [hne]
  simp only [ne_eq, decode_request_eq_ok_iff]
  cases operation r.word r.payload with
  | none => simp
  | some j => simp [or_iff_not_imp_left]

/-- A frame is decoded to the command of its opcode when it has that opcode's number of data bytes. -/
theorem decode_frame_eq_ok_iff {op : Byte} {data : List Byte} {i : Instr} :
    decode (.frame op data) = .ok i ↔ command op data = some i ∧ dataLength op = some data.length := by
  constructor
  · intro h
    have hl := dataLength_of_decode h
    obtain ⟨j, hc, hj⟩ := decodeFrame_eq hl
    rw [hj] at h
    cases h
    exact ⟨hc, hl⟩
  · rintro ⟨hc, hl⟩
    obtain ⟨j, hc', hj⟩ := decodeFrame_eq hl
    rw [hc] at hc'
    cases hc'
    exact hj

/-! ### The columns of 30_encoding.md R92, by `OP` -/

/-- Every `OP` is one of the sixteen. -/
theorem op_cases {P : BitVec 4 → Prop} (mk : ∀ n < 16, P (BitVec.ofNat 4 n)) (o : BitVec 4) : P o := by
  simpa using mk o.toNat o.isLt

/-- `OP` selects no operation exactly when it is reserved. -/
theorem operation_eq_none_iff (w : ReqWord) (p : List Byte) :
    operation w p = none ↔ ReqWord.op w ∈ [0x0#4, 0xC#4, 0xD#4, 0xE#4, 0xF#4] := by
  unfold operation
  generalize ReqWord.op w = o
  induction o using op_cases with
  | mk n hn => interval_cases n <;> simp

theorem fieldsUsed_f0 (o : BitVec 4) : (fieldsUsed o.toNat).f0 = decide (o ∈ [0x1#4, 0x2#4, 0x7#4, 0xB#4]) := by
  revert o
  decide

theorem fieldsUsed_f1 (o : BitVec 4) : (fieldsUsed o.toNat).f1 = decide (o ∈ [0x1#4, 0x2#4]) := by
  revert o
  decide

theorem fieldsUsed_xyw (o : BitVec 4) : (fieldsUsed o.toNat).xyw = decide (o ∈ [0x6#4, 0x9#4]) := by
  revert o
  decide

theorem fieldsUsed_h (o : BitVec 4) : (fieldsUsed o.toNat).h = decide (o ∈ [0x6#4, 0x7#4, 0x9#4]) := by
  revert o
  decide

/-- A field that `OP` does not use is not zero (30_encoding.md R94), field by field. -/
theorem unusedFieldsZero_eq_false_iff (w : ReqWord) :
    unusedFieldsZero w = false ↔
      (ReqWord.f0 w = true ∧ ReqWord.op w ∉ [0x1#4, 0x2#4, 0x7#4, 0xB#4]) ∨
      (ReqWord.f1 w = true ∧ ReqWord.op w ∉ [0x1#4, 0x2#4]) ∨
      (ReqWord.fieldX w ≠ 0 ∧ ReqWord.op w ∉ [0x6#4, 0x9#4]) ∨
      (ReqWord.fieldY w ≠ 0 ∧ ReqWord.op w ∉ [0x6#4, 0x9#4]) ∨
      (ReqWord.fieldW w ≠ 0 ∧ ReqWord.op w ∉ [0x6#4, 0x9#4]) ∨
      (ReqWord.fieldH w ≠ 0 ∧ ReqWord.op w ∉ [0x6#4, 0x7#4, 0x9#4]) := by
  rw [unusedFieldsZero, fieldsUsed_f0, fieldsUsed_f1, fieldsUsed_xyw, fieldsUsed_h]
  simp only [Bool.and_eq_false_iff, Bool.or_eq_false_iff, decide_eq_false_iff_not, Bool.not_eq_false', beq_eq_false_iff_ne]
  tauto

/-- Only `DRAW` and `MERGE` have a payload (30_encoding.md R99). -/
theorem payloadLength_eq_ite (w : ReqWord) :
    payloadLength w =
      if ReqWord.op w ∈ [0x6#4, 0x9#4] then bitmapBytes (ReqWord.fieldW w) (ReqWord.fieldH w) else 0 := by
  unfold payloadLength
  generalize ReqWord.op w = o
  generalize bitmapBytes (ReqWord.fieldW w) (ReqWord.fieldH w) = n
  induction o using op_cases with
  | mk k hk => interval_cases k <;> rfl

/-! ### The encoder undoes the decoder, and the other way round -/

/-- The word of an encoded request has zero reserved bits and zero unused fields, and its operation is the instruction. -/
theorem fields_of_encode {i : Instr} {r : Request} (he : encode i = .request r) :
    operation r.word r.payload = some i ∧ ReqWord.rsv0 r.word = 0 ∧ ReqWord.rsv1 r.word = 0 ∧
      unusedFieldsZero r.word = true := by
  cases i <;> cases he <;> simp [operation, unusedFieldsZero, fieldsUsed]

/-- The command of an encoded frame is the instruction. -/
theorem command_of_encode {i : Instr} {op : Byte} {data : List Byte} (he : encode i = .frame op data) :
    command op data = some i := by
  cases i <;> cases he <;> simp [command, dataWord, dataByte]

/-- The instruction of a word without stray bits, with a payload that fits it, encodes back to both. -/
theorem encode_of_operation {w : ReqWord} {p : List Byte} {i : Instr} (ho : operation w p = some i)
    (h0 : ReqWord.rsv0 w = 0) (h1 : ReqWord.rsv1 w = 0) (hu : unusedFieldsZero w = true)
    (hp : p.length = payloadLength w) : encode i = .request ⟨w, p⟩ := by
  have hw := requestWord_fields w h0 h1
  have eo : ReqWord.op w = BitVec.ofNat 4 (ReqWord.op w).toNat := by simp
  unfold operation at ho
  unfold unusedFieldsZero at hu
  unfold payloadLength at hp
  split at ho <;> cases ho
  -- for each `OP` the fields it does not use are zero, which makes `hw` the encoder's word
  all_goals
    rename_i e
    rw [e] at hu hp eo
    simp_all [fieldsUsed, encode]

/-- Settles O5: what the encoder writes passes every check, and a well-formed instruction the one of the length too. -/
theorem decodeOfEncode : Obligations.DecodeOfEncode := by
  intro i hw
  cases he : encode i with
  | request r =>
    obtain ⟨ho, h0, h1, hu⟩ := fields_of_encode he
    exact decode_request_eq_ok_iff.2 ⟨ho, h0, h1, hu, (wellFormed_iff_request he).1 hw⟩
  | frame op data => exact decode_frame_eq_ok_iff.2 ⟨command_of_encode he, (wellFormed_iff_frame he).1 hw⟩

/-- Settles O6: the checks fix every bit that is not an operand, so that the code is the one the encoder writes. -/
theorem encodeOfDecode : Obligations.EncodeOfDecode := by
  intro c i h
  cases c with
  | request r =>
    obtain ⟨ho, h0, h1, hu, hp⟩ := decode_request_eq_ok_iff.1 h
    have he := encode_of_operation ho h0 h1 hu hp
    exact ⟨(wellFormed_iff_request he).2 hp, he⟩
  | frame op data =>
    obtain ⟨hc, hl⟩ := decode_frame_eq_ok_iff.1 h
    have he := encode_of_command hc hl
    exact ⟨(wellFormed_iff_frame he).2 hl, he⟩

/-- Settles O3: the checks of the decoder, one by one, are the causes of 30_encoding.md R95. -/
theorem requestIsIllegalExactlyWhen : Obligations.RequestIsIllegalExactlyWhen := by
  intro r
  rw [decode_request_eq_error_iff, operation_eq_none_iff, unusedFieldsZero_eq_false_iff, payloadLength_eq_ite]
  simp only [or_assoc]
  rfl

/-- Settles O4: a frame is decoded exactly when its opcode's row of the table has its number of data bytes. -/
theorem frameIsACommandExactlyWhen : Obligations.FrameIsACommandExactlyWhen := by
  intro op data
  rw [← dataLength_eq_some_iff]
  constructor
  · rintro ⟨i, h⟩
    exact dataLength_of_decode h
  · intro h
    obtain ⟨i, -, hi⟩ := decodeFrame_eq h
    exact ⟨i, hi⟩

/-- Settles O1: the encoder evaluated on the thirteen requests. -/
theorem workedEncodings : Obligations.WorkedEncodings :=
  ⟨rfl, rfl, rfl, rfl, rfl, rfl, fun _ => rfl, fun _ => rfl, rfl, rfl, fun _ => rfl, rfl, rfl⟩

/-- Settles O2: the decoder evaluated on the nine codes. -/
theorem wordsDecode : Obligations.WordsDecode := ⟨rfl, rfl, rfl, rfl, rfl, rfl, rfl, rfl, rfl⟩

end Sys2Proof
end

section
/-! PROOFS. A step runs the decoded instruction, and takes a presented request only in an idle block (30_encoding.md R90). -/

namespace Sys2Proof.Machine

/-- Settles O7: in each of the four situations, what the block does next is the instruction the decoder reads. -/
theorem stepRunsTheDecodedInstruction : Obligations.StepRunsTheDecodedInstruction := by
  intro s hr
  rw [step_eq_proceed hr]
  refine ⟨fun r rest i ha hq hd => ?_, fun op bs rest i ha hp hd => ?_, fun op rest i ha hp hd => ?_, fun ha hq => ?_⟩
  · simp [State.proceed, ha, hq, State.serve, hd]
  · simp [proceed_active ha, State.runPending, hp, State.runFrame, hd]
  · simp [proceed_active ha, State.runPending, hp, State.runFrame, hd]
  · simp [State.proceed, ha, hq]

/-- Settles O50: the next operation of a program leaves the list of requests; an idle block takes its head, if there is one,
and serving that leaves the rest. -/
theorem requestsWaitWhileActive : Obligations.RequestsWaitWhileActive := by
  intro s t hr h
  rw [step_eq_proceed hr] at h
  rcases State.proceed_cases h with ⟨ha, h⟩ | ⟨ha, hq, rfl⟩ | ⟨r, rest, ha, hq, h⟩
  · obtain ⟨es, he⟩ := State.runPending_emits h
    exact ⟨fun _ => he.requests, fun ha' => by simp [ha] at ha'⟩
  · exact ⟨fun _ => rfl, fun _ => by rw [hq, List.tail_nil]⟩
  · obtain ⟨es, he⟩ := State.serve_emits h
    exact ⟨fun ha' => by simp [ha] at ha', fun _ => by rw [he.requests, hq, List.tail_cons]⟩

end Sys2Proof.Machine
end

section
/-! PROOFS. Only the fourteen opcodes are sent at the command level (30_encoding.md R104): from the events of one frame to
operations, programs, requests and steps. -/

namespace Sys2Proof.Machine

/-! ### Lists of events -/

/-- Whatever DC is before these events, each byte they transfer at the command level is an opcode of the table of
30_encoding.md R102. -/
def OnlyOpcodes (es : List Event) : Prop := ∀ dc, ∀ b ∈ commandBytes dc es, ∃ n, dataLength b = some n

/-- The bytes of two bursts of events, the second with DC as the first leaves it. -/
theorem commandBytes_append (dc : Level) (es fs : List Event) :
    commandBytes dc (es ++ fs) = commandBytes dc es ++ commandBytes (latchAfter .dc dc es) fs := by
  induction es generalizing dc with
  | nil => rfl
  | cons e es ih =>
    rcases e with ⟨_ | _ | _, l⟩ | b | n | l | st
    case xfer =>
      simp only [List.cons_append, commandBytes, latchAfter_cons, Event.latch, ih]
      split <;> rfl
    all_goals simp [commandBytes, Event.latch, ih]

theorem onlyOpcodes_nil : OnlyOpcodes [] := fun _ => List.forall_mem_nil _

theorem OnlyOpcodes.append {es fs : List Event} (he : OnlyOpcodes es) (hf : OnlyOpcodes fs) : OnlyOpcodes (es ++ fs) := by
  intro dc
  rw [commandBytes_append, List.forall_mem_append]
  exact ⟨he dc, hf _⟩

theorem OnlyOpcodes.take {es : List Event} (h : OnlyOpcodes es) (n : Nat) : OnlyOpcodes (es.take n) := by
  intro dc b hb
  refine h dc b ?_
  rw [← List.take_append_drop n es, commandBytes_append]
  exact List.mem_append_left _ hb

/-- While DC is at the data level no byte counts. -/
theorem commandBytes_data (bs : List Byte) (es : List Event) :
    commandBytes Config.dcData (bs.map .xfer ++ es) = commandBytes Config.dcData es := by
  induction bs with
  | nil => rfl
  | cons b bs ih => exact ih

/-- A frame sends its opcode at the command level and nothing else (41_command_encoder.md R161, R162, R165). -/
theorem commandBytes_writeRegEvents (dc : Level) (op : Byte) (bs : List Byte) :
    commandBytes dc (writeRegEvents op bs) = [op] := by
  unfold writeRegEvents
  split
  · rfl
  · exact congrArg (op :: ·) (commandBytes_data bs [.pinWrite .cs Config.csDeassert])

theorem onlyOpcodes_writeRegEvents {op : Byte} {n : Nat} (h : dataLength op = some n) (bs : List Byte) :
    OnlyOpcodes (writeRegEvents op bs) := by
  intro dc
  rw [commandBytes_writeRegEvents, List.forall_mem_singleton]
  exact ⟨n, h⟩

/-! ### Operations and programs -/

/-- A known operation sends only opcodes. -/
theorem SeqOp.onlyOpcodes_events {op : SeqOp} (hw : op.wf = true) (s : State) : OnlyOpcodes (op.events s) := by
  cases op
  case frame op bs => exact onlyOpcodes_writeRegEvents (dataLength_of_wf_frame hw) bs
  case plane op => exact onlyOpcodes_writeRegEvents (dataLength_of_wf_plane s hw) _
  all_goals exact fun _ => List.forall_mem_nil _

/-- From `s` to `t` the trace grows by events that send only opcodes. -/
def State.SendsOnlyOpcodes (s t : State) : Prop := ∃ es, t.trace = s.trace ++ es ∧ OnlyOpcodes es

theorem State.SendsOnlyOpcodes.of_trace_eq {s t : State} (h : t.trace = s.trace) : s.SendsOnlyOpcodes t :=
  ⟨[], by rw [h, List.append_nil], onlyOpcodes_nil⟩

theorem State.SendsOnlyOpcodes.trans {s t u : State} (h : s.SendsOnlyOpcodes t) (h' : t.SendsOnlyOpcodes u) :
    s.SendsOnlyOpcodes u := by
  obtain ⟨es, he, ho⟩ := h
  obtain ⟨fs, hf, ho'⟩ := h'
  exact ⟨es ++ fs, by rw [hf, he, List.append_assoc], ho.append ho'⟩

theorem SeqOp.sendsOnlyOpcodes_effect {op : SeqOp} {s : State} (h : OnlyOpcodes (op.events s)) :
    s.SendsOnlyOpcodes (op.effect s) :=
  ⟨_, (op.effect_emits s).trace, h⟩

/-- A program whose operations send only opcodes does so, to its end or to its next wait. -/
theorem drain_sendsOnlyOpcodes {prog : List SeqOp} (hp : ∀ op ∈ prog, ∀ s, OnlyOpcodes (op.events s)) (s : State) :
    s.SendsOnlyOpcodes (drain prog s) :=
  drain_keeps s.SendsOnlyOpcodes (fun _ _ h => h) (fun _ h => h) prog
    (fun op ho _ h => h.trans (SeqOp.sendsOnlyOpcodes_effect (hp op ho _))) s (.of_trace_eq rfl)

/-- The operations of `SLEEP`, of which the last is no known operation of a program that waits. -/
theorem onlyOpcodes_sleepProgram (p : Params) : ∀ op ∈ sleepProgram p, ∀ s, OnlyOpcodes (op.events s) := by
  simp only [sleepProgram, List.forall_mem_cons]
  exact ⟨fun _ => onlyOpcodes_writeRegEvents (n := 1) rfl _, fun _ => onlyOpcodes_nil, List.forall_mem_nil _⟩

/-- The program of every instruction sends only opcodes. -/
theorem onlyOpcodes_programOf (i : Instr) (s : State) : ∀ op ∈ programOf i s, ∀ u, OnlyOpcodes (op.events u) := by
  cases i
  case init => exact fun _ ho => SeqOp.onlyOpcodes_events (wf_initProgram _ _ _ _ _ ho)
  case initFast => exact fun _ ho => SeqOp.onlyOpcodes_events (wf_initProgram _ _ _ _ _ ho)
  case clear => exact fun _ ho => SeqOp.onlyOpcodes_events (wf_clearProgram _ ho)
  case displayFull => exact fun _ ho => SeqOp.onlyOpcodes_events (wf_displayFullProgram _ _ ho)
  case displayPartial => exact fun _ ho => SeqOp.onlyOpcodes_events (wf_displayPartialProgram _ _ ho)
  case draw => exact fun _ ho => SeqOp.onlyOpcodes_events (wf_refreshProgram _ _ _ ho)
  case fill => exact fun _ ho => SeqOp.onlyOpcodes_events (wf_fillProgram _ _ _ _ _ ho)
  case sleep => exact onlyOpcodes_sleepProgram _
  all_goals exact List.forall_mem_nil _

/-! ### Requests -/

/-- From `s` to `t` a request makes at most a `TransportInit()` and changes without events, and then runs its program or ends at
once (60_exceptions.md R287). -/
def State.RunsOrEnds (prog : List SeqOp) (s t : State) : Prop :=
  ∃ a : State, (a.trace = s.trace ∨ a.trace = s.trace ++ [.transportInit s.nextTransport]) ∧
    (t = drain prog a ∨ ∃ st data, t = a.respond st data)

theorem State.runsOrEnds_drain {s a : State} (h : a.trace = s.trace) (prog : List SeqOp) :
    s.RunsOrEnds prog (drain prog a) := ⟨a, .inl h, .inl rfl⟩

theorem State.runsOrEnds_respond {s a : State} (h : a.trace = s.trace) (prog : List SeqOp) (st : Byte) (data : List Byte) :
    s.RunsOrEnds prog (a.respond st data) := ⟨a, .inl h, .inr ⟨st, data, rfl⟩⟩

theorem State.runsOrEnds_whenReady {s : State} {prog : List SeqOp} {serve : State → State}
    (h : s.RunsOrEnds prog (serve s.accept)) : s.RunsOrEnds prog (s.accept.whenReady serve) := by
  unfold State.whenReady
  split
  · exact h
  · exact State.runsOrEnds_respond s.accept_trace _ _ _

theorem runsOrEnds_initRequest (fast part gray : Bool) (s : State) :
    s.RunsOrEnds (initProgram fast part gray s.params) (initRequest fast part gray s.accept) := by
  have ht : s.accept.transportInit.trace = s.trace ++ [.transportInit s.nextTransport] := (State.emits_transportInit _).trace
  unfold initRequest initSequence
  split
  · exact State.runsOrEnds_respond s.accept_trace _ _ _
  · split
    · exact ⟨_, .inr ht, .inl rfl⟩
    · exact ⟨{ s.accept.transportInit with devState := .uninit }, .inr ht, .inr ⟨_, _, rfl⟩⟩

/-- Every request runs its program or ends at once. -/
theorem exec_runsOrEnds {i : Instr} (hi : ∀ op data, encode i ≠ .frame op data) {s t : State} (h : exec i s = .next t) :
    s.RunsOrEnds (programOf i s) t := by
  have hm (x y w k : Nat) (src : Nat → Nat → Bool) : (s.accept.mergeRect x y w k src).trace = s.trace :=
    State.mergeRect_trace ..
  cases i <;> cases h
  case init => exact runsOrEnds_initRequest _ _ _ _
  case initFast => exact runsOrEnds_initRequest _ _ _ _
  case clear => exact State.runsOrEnds_whenReady (State.runsOrEnds_drain s.accept_trace _)
  case displayFull => exact State.runsOrEnds_whenReady (State.runsOrEnds_drain s.accept_trace _)
  case displayPartial => exact State.runsOrEnds_whenReady (State.runsOrEnds_drain s.accept_trace _)
  case draw =>
    refine State.runsOrEnds_whenReady ?_
    split
    · exact State.runsOrEnds_drain (hm ..) _
    · exact State.runsOrEnds_respond s.accept_trace _ _ _
  case fill =>
    refine State.runsOrEnds_whenReady ?_
    split
    · exact State.runsOrEnds_respond s.accept_trace _ _ _
    · exact State.runsOrEnds_drain s.accept_trace _
  case sleep => exact State.runsOrEnds_whenReady (State.runsOrEnds_drain s.accept_trace _)
  case merge =>
    split
    · exact State.runsOrEnds_respond (hm ..) _ _ _
    · exact State.runsOrEnds_respond s.accept_trace _ _ _
  case toBitmap => exact State.runsOrEnds_respond s.accept_trace _ _ _
  case fbFill c => exact State.runsOrEnds_respond (s.accept.fbFill_trace (fillByte c)) _ _ _
  all_goals exact absurd rfl (hi _ _)

/-- A request sends only opcodes: a `TransportInit()` sends nothing, and its program sends only opcodes. -/
theorem exec_sendsOnlyOpcodes {i : Instr} (hi : ∀ op data, encode i ≠ .frame op data) {s t : State}
    (h : exec i s = .next t) : s.SendsOnlyOpcodes t := by
  obtain ⟨a, ha, ht⟩ := exec_runsOrEnds hi h
  have hsa : s.SendsOnlyOpcodes a := by
    rcases ha with ha | ha
    · exact .of_trace_eq ha
    · exact ⟨_, ha, fun _ => List.forall_mem_nil _⟩
  rcases ht with rfl | ⟨st, data, rfl⟩
  · exact hsa.trans (drain_sendsOnlyOpcodes (onlyOpcodes_programOf i s) a)
  · exact hsa

/-! ### Steps -/

/-- What a block with the invariant does next sends only opcodes. -/
theorem State.Inv.sendsOnlyOpcodes_proceed {s t : State} (hi : s.Inv) (h : s.proceed = .next t) : s.SendsOnlyOpcodes t := by
  rcases State.proceed_cases h with ⟨-, h⟩ | ⟨-, -, rfl⟩ | ⟨r, rest, -, -, h⟩
  · rcases State.runPending_eq_effect h with ⟨-, rfl⟩ | ⟨op, rest, l, hp, rfl⟩
    · exact .of_trace_eq rfl
    · have hw : op.wf = true := hi.pendingWf op (by rw [hp]; exact List.mem_cons_self)
      exact SeqOp.sendsOnlyOpcodes_effect (SeqOp.onlyOpcodes_events hw s)
  · exact .of_trace_eq rfl
  · rcases State.serve_cases h with ⟨i, hd, h⟩ | ⟨e, -, rfl⟩
    · have hs : State.SendsOnlyOpcodes { s with requests := rest } t :=
        exec_sendsOnlyOpcodes (encode_ne_frame_of_decode hd) h
      exact hs
    · exact .of_trace_eq rfl

/-- A reset inside a step sends the first of the step's events (70_reset_and_hazards.md R321). -/
theorem State.SendsOnlyOpcodes.cutByReset {s t : State} (h : s.SendsOnlyOpcodes t) (n : Nat) :
    s.SendsOnlyOpcodes (s.cutByReset t n) := by
  obtain ⟨es, he, ho⟩ := h
  obtain ⟨_, _, _, _, hc⟩ := s.cutByReset_eq t n
  have hb : eventsBetween s t = es := by rw [eventsBetween, he, List.drop_left]
  rw [hc, hb]
  exact ⟨_, rfl, ho.take _⟩

/-- A step from a state with the invariant sends only opcodes, cut by a reset or not. -/
theorem State.Inv.sendsOnlyOpcodes_step {s t : State} (hi : s.Inv) (h : step s = .next t) : s.SendsOnlyOpcodes t := by
  rcases step_cases h with ⟨-, rfl⟩ | ⟨u, hu, ⟨-, rfl⟩ | ⟨n, -, -, rfl⟩ | ⟨n, -, -, rfl⟩⟩
  · exact .of_trace_eq rfl
  · exact hi.sendsOnlyOpcodes_proceed hu
  · exact (hi.sendsOnlyOpcodes_proceed hu).cutByReset n
  · have hs : s.SendsOnlyOpcodes u := hi.sendsOnlyOpcodes_proceed hu
    exact hs

/-- Settles O46: a step sends only bytes with a row in the table of 30_encoding.md R102, which are the fourteen. -/
theorem onlyTheFourteenOpcodesAreSent : Obligations.OnlyTheFourteenOpcodesAreSent := by
  intro s t hi h b hb
  obtain ⟨es, he, ho⟩ := hi.sendsOnlyOpcodes_step h
  rw [he, List.drop_left] at hb
  obtain ⟨n, hn⟩ := ho _ b hb
  exact List.mem_map_of_mem (f := Prod.fst) ((dataLength_eq_some_iff b n).1 hn)

end Sys2Proof.Machine
end

section
/-! PROOFS. The FrameBuffer unit's requests complete (40_framebuffer.md): `MERGE` inside the panel, `TO_BITMAP`, the two one after
the other, `FB_FILL`. -/

namespace Sys2Proof.Machine

/-! ### The end of the three requests -/

/-- A request that writes `FB` and nothing else, and then ends (40_framebuffer.md R133, R145). -/
theorem State.OnlyFb.endedWith_respond {s t : State} (h : s.accept.OnlyFb t) (st : Byte) (data : List Byte) :
    State.EndedWith { s with fb := t.fb } (t.respond st data) st data := by
  rw [State.EndedWith, h]
  rfl

@[simp] theorem State.pixel_accept (s : State) : s.accept.pixel = s.pixel := rfl

@[simp] theorem State.pixel_respond (s : State) (st : Byte) (data : List Byte) : (s.respond st data).pixel = s.pixel := rfl

/-- `MERGE` past its bounds check (40_framebuffer.md R131, R133). -/
theorem exec_merge_inside {x y w h : Coord} (hx : x.toNat + w.toNat ≤ 400) (hy : y.toNat + h.toNat ≤ 300) (p : List Byte)
    (s : State) :
    exec (.merge x y w h p) s = .next
      ((s.accept.mergeRect x.toNat y.toNat w.toNat h.toNat (payloadSrc p w.toNat)).respond Status.ok []) := by
  have hin : insidePanel x.toNat y.toNat w.toNat h.toNat := (insidePanel_iff _ _ _ _).2 ⟨hx, hy⟩
  simp only [exec, execMerge, if_pos hin]

/-- `MERGE` of the whole panel passes that check. -/
theorem exec_merge_panel (p : List Byte) (s : State) :
    exec (.merge 0 0 400 300 p) s = .next ((s.accept.mergeRect 0 0 400 300 (payloadSrc p 400)).respond Status.ok []) :=
  exec_merge_inside (x := 0) (y := 0) (w := 400) (h := 300) (by decide) (by decide) p s

theorem exec_toBitmap (s : State) : exec .toBitmap s = .next (s.accept.respond Status.ok s.fbBytes) := rfl

theorem exec_fbFill (c : Bool) (s : State) :
    exec (.fbFill c) s = .next ((s.accept.fbFill (fillByte c)).respond Status.ok []) := rfl

/-! ### The bytes of a bitmap -/

/-- The bytes a `TO_BITMAP` returns, by index (40_framebuffer.md R140). -/
theorem State.getD_fbBytes (s : State) {n : Nat} (hn : n < 15000) : s.fbBytes.getD n 0#8 = s.fbRead n := by
  rw [State.fbBytes_eq]
  simp [List.getD, hn]

/-- A source as wide as the panel is packed as `FB` is: bit `b` of byte `k` is the pixel of the same place (20_memory.md R61,
30_encoding.md R96). -/
theorem payloadSrc_panel (p : List Byte) (k : Nat) {b : Nat} (hb : b < 8) :
    payloadSrc p 400 (k % 50 * 8 + b) (k / 50) = (p.getD k 0#8).getLsbD (7 - b) := by
  have hbit : k / 50 * 400 + (k % 50 * 8 + b) = k * 8 + b := by omega
  have hbyte : (k * 8 + b) / 8 = k := by omega
  have hplace : (k * 8 + b) % 8 = b := by omega
  rw [payloadSrc, payloadBit, hbit, hbyte, hplace]

/-- A merge of the whole panel gives every byte of `FB` the payload's, because it does so for the byte's eight pixels
(40_framebuffer.md R133). -/
theorem State.fbRead_mergeRect_panel (p : List Byte) (s : State) {k : Nat} (hk : k < 15000) :
    (s.mergeRect 0 0 400 300 (payloadSrc p 400)).fbRead k = p.getD k 0#8 := by
  refine byte_ext fun b hb => ?_
  have hw : 0 + 400 ≤ Config.width := by decide
  have hq : k % 50 * 8 + b < Config.width := by rw [Config.width_eq]; omega
  rw [State.fbRead_getLsbD _ _ _ hb, State.pixel_mergeRect _ _ _ _ _ _ _ _ hw hq, if_pos (by omega), Nat.sub_zero,
    Nat.sub_zero, payloadSrc_panel p k hb]

/-! ### The requests -/

/-- Settles O19: the pixels and the other bytes are those of the merge, and the merge changes nothing but `FB`. -/
theorem mergeCompletes : Obligations.MergeCompletes := by
  intro x y w h p s _ _ hx hy
  refine ⟨_, exec_merge_inside hx hy p s, (State.mergeRect_onlyFb _ _ _ _ _ s.accept).endedWith_respond _ _, ?_, ?_, ?_⟩
  · intro i j hi hj
    have hq : x.toNat + i < Config.width := by rw [Config.width_eq]; omega
    rw [State.pixel_respond, State.pixel_mergeRect _ _ _ _ _ _ _ _ hx hq, if_pos (by omega), Nat.add_sub_cancel_left,
      Nat.add_sub_cancel_left, payloadSrc, payloadBit]
  · intro px py hpx _ hout
    rw [State.pixel_respond, State.pixel_mergeRect _ _ _ _ _ _ _ _ hx hpx, if_neg (by omega), State.pixel_accept]
  · intro k hk
    rw [State.fbRead_respond, State.fbRead_mergeRect_other _ _ _ _ _ _ _ fun i hi j hj => hk i j hi hj, State.fbRead_accept]

/-- Settles O20: the merge of the whole panel, after the bounds check that the panel passes. -/
theorem mergeOfThePanelReplacesFb : Obligations.MergeOfThePanelReplacesFb := by
  intro p s _ _
  refine ⟨_, exec_merge_panel p s, fun k hk => ?_⟩
  rw [State.fbRead_respond, State.fbRead_mergeRect_panel p _ hk]

/-- Settles O21: the data is `FB` in index order, and the request does nothing but end. -/
theorem toBitmapCompletes : Obligations.ToBitmapCompletes := by
  intro s _
  exact ⟨_, _, exec_toBitmap s, s.endedWith_respond _ _, s.length_fbBytes, fun n hn => s.getD_fbBytes hn⟩

/-- Settles O22: the data is `FB` byte for byte, and a merge of the whole panel writes it back byte for byte. -/
theorem mergeOfToBitmapIsIdentity : Obligations.MergeOfToBitmapIsIdentity := by
  intro s t data _ ht hr
  rw [exec_toBitmap] at ht
  cases ht
  obtain rfl : s.fbBytes = data := by
    rw [State.respond_responses, State.accept_responses, List.append_cancel_left_eq] at hr
    cases hr
    rfl
  obtain ⟨u, hu, hread⟩ :=
    mergeOfThePanelReplacesFb s.fbBytes (s.accept.respond Status.ok s.fbBytes) rfl s.length_fbBytes
  refine ⟨u, hu, fun k hk => ?_⟩
  rw [hread k hk, s.getD_fbBytes hk]

/-- Settles O23: the fill changes nothing but `FB`, of which every byte is the colour's. -/
theorem fbFillCompletes : Obligations.FbFillCompletes := by
  intro c s _
  have honly : s.accept.OnlyFb (s.accept.fbFill (fillByte c)) := rfl
  exact ⟨_, exec_fbFill c s, honly.endedWith_respond _ _, fun k hk => s.accept.fbRead_fbFill (fillByte c) hk⟩

end Sys2Proof.Machine
end

section
/-! PROOFS. The controller commands (41_command_encoder.md): the state after `WriteReg`, and each command as the frame it encodes
to. -/

namespace Sys2Proof.Machine

/-! ### `WriteReg` -/

/-- Without data `WriteReg` is the opcode window alone (41_command_encoder.md R161, R165). -/
theorem State.writeReg_nil (op : Byte) (s : State) :
    s.writeReg op [] = { s with
      trace := s.trace ++ [.pinWrite .dc 0#1, .pinWrite .cs 0#1, .xfer op, .pinWrite .cs 1#1]
      seq := s.seq + 4
      pinDc := 0#1
      pinCs := 1#1 } := rfl

/-- With data `WriteReg` is the opcode window, then one window with all the data bytes (R161, R162, R165). -/
theorem writeRegEvents_of_ne_nil (op : Byte) {bs : List Byte} (h : bs ≠ []) :
    writeRegEvents op bs = [.pinWrite .dc 0#1, .pinWrite .cs 0#1, .xfer op, .pinWrite .cs 1#1,
      .pinWrite .dc 1#1, .pinWrite .cs 0#1] ++ bs.map .xfer ++ [.pinWrite .cs 1#1] := by
  rw [writeRegEvents, if_neg h]
  rfl

/-- The state after those two windows: the trace, `SEQ` and the latches of DC and CS. -/
theorem State.writeReg_of_ne_nil (op : Byte) {bs : List Byte} (h : bs ≠ []) (s : State) :
    s.writeReg op bs = { s with
      trace := s.trace ++ ([.pinWrite .dc 0#1, .pinWrite .cs 0#1, .xfer op, .pinWrite .cs 1#1,
        .pinWrite .dc 1#1, .pinWrite .cs 0#1] ++ bs.map .xfer ++ [.pinWrite .cs 1#1])
      seq := s.seq + (4 + (bs.length + 3))
      pinDc := 1#1
      pinCs := 1#1 } := by
  rw [State.writeReg_eq, State.emit, length_writeRegEvents, latchAfter_rst_writeReg, latchAfter_dc_writeReg,
    latchAfter_cs_writeReg, if_neg h, if_neg h, writeRegEvents_of_ne_nil op h]
  rfl

/-! ### The commands -/

/-- Settles O16: both commands encode to their opcode with no data. -/
theorem commandsWithoutData : Obligations.CommandsWithoutData := by
  intro s c hc
  have he : encode c.1 = .frame c.2 [] := by fin_cases hc <;> rfl
  rw [exec_of_encode_frame he, State.writeReg_nil]

/-- Settles O17: each command encodes to its opcode with its data bytes, of which there is at least one. -/
theorem commandsWithData : Obligations.CommandsWithData := by
  intro s a b y z c hc
  have he : encode c.1 = .frame c.2.1 c.2.2 := by fin_cases hc <;> rfl
  have hne : c.2.2 ≠ [] := by fin_cases hc <;> exact List.cons_ne_nil _ _
  rw [exec_of_encode_frame he, State.writeReg_of_ne_nil _ hne]

/-- Settles O18: both plane writes encode to their opcode with the plane's bytes, and a plane is not empty. -/
theorem planeCommands : Obligations.PlaneCommands := by
  intro s plane hlen c hc
  have he : encode c.1 = .frame c.2 plane := by fin_cases hc <;> rfl
  have hne : plane ≠ [] := List.ne_nil_of_length_pos (by omega)
  rw [exec_of_encode_frame he, State.writeReg_of_ne_nil _ hne, hlen]

end Sys2Proof.Machine
end

section
/-! PROOFS. The loop of `WaitIdle()` (42_reset_sequencer.md R203, R204): one round of it, the rounds up to the idle level, and the
rounds of a controller that stays busy. -/

namespace Sys2Proof.Machine

/-! ### One round -/

/-- `s` after one round of the loop, a busy read and the delay: `SEQ` is back where it was (10_state.md R40), and `rest` stands
behind the wait. -/
def State.loopRound (rest : List SeqOp) (s : State) : State :=
  { s.afterBusyReads 1 with
    pending := .repoll :: rest
    trace := s.trace ++ [.busyRead s.params.busyLevel, .delayMs 20] }

theorem State.busyAt_loopRound (s : State) (rest : List SeqOp) (k : Nat) :
    (s.loopRound rest).busyAt k = s.busyAt (k + 1) := by
  rw [← State.busyAt_popBusy, State.popBusy_eq]
  rfl

theorem State.afterBusyReads_loopRound (s : State) (rest : List SeqOp) (n : Nat) :
    (s.loopRound rest).afterBusyReads n = { s.afterBusyReads (n + 1) with
      pending := .repoll :: rest
      trace := s.trace ++ [.busyRead s.params.busyLevel, .delayMs 20] } := by
  rw [Nat.add_comm n 1, ← State.afterBusyReads_add]
  rfl

/-- The first round makes the next level the one that counts. -/
theorem State.BusyFor.loopRound {s : State} {n : Nat} (h : s.BusyFor (n + 1)) (rest : List SeqOp) :
    (s.loopRound rest).BusyFor n := fun k hk => (s.busyAt_loopRound rest k).trans (h (k + 1) (by omega))

/-- A `WaitIdle()` that has read the busy level: the next step makes the delay and reads again. -/
theorem step_waitStep_busy {s : State} (rest : List SeqOp) (hr : s.resetIn = none) (ha : s.active = true)
    (hb : s.busyAt 0 = s.params.busyLevel) : step (s.waitStep rest) = .next ((s.loopRound rest).waitStep rest) := by
  have hd : (s.waitStep rest).waitDelay = s.loopRound rest := by
    rw [State.waitStep_eq, if_pos hb, hb, State.loopRound, State.waitDelay]
    simp [State.emit, Event.latch, Config.pollMs]
  have hp : (s.waitStep rest).pending = .repoll :: rest := by rw [State.waitStep_eq, if_pos hb]
  have ha' : (s.waitStep rest).active = true := by rw [State.waitStep_eq]; exact ha
  rw [← hd]
  exact step_repoll ((s.emits_waitStep rest).resetIn.trans hr) ha' hp

/-! ### Until the idle level, or for ever -/

/-- `s` after a wait that read `k` busy levels and then the other one, with `q` as its place in `SEQ`. -/
def State.afterWait (k q : Nat) (s : State) : State :=
  { s.afterBusyReads (k + 1) with
    seq := q
    trace := s.trace ++ ((List.replicate k [Event.busyRead s.params.busyLevel, .delayMs 20]).flatten
      ++ [.busyRead (s.busyAt k)]) }

/-- A wait that reads `k` busy levels and then the other one (R203): after `k` further steps the program goes on behind it. -/
theorem run_waitStep_until_idle (k : Nat) {s : State} (rest : List SeqOp) (hr : s.resetIn = none) (ha : s.active = true)
    (hb : s.BusyFor k) (hi : s.busyAt k ≠ s.params.busyLevel) :
    ∃ q, run k (s.waitStep rest) = .next { s.afterWait k q with pending := rest } := by
  induction k generalizing s with
  | zero =>
    refine ⟨s.seq + 1, ?_⟩
    rw [run_zero, State.waitStep_eq, if_neg hi]
    rfl
  | succ k ih =>
    obtain ⟨q, hq⟩ := ih (s := s.loopRound rest) hr ha (hb.loopRound rest) (by rwa [State.busyAt_loopRound])
    refine ⟨q, ?_⟩
    rw [run_succ (step_waitStep_busy rest hr ha (hb 0 (by omega))), hq, State.afterWait, State.busyAt_loopRound,
      State.afterBusyReads_loopRound]
    simp [State.afterWait, State.loopRound, List.replicate_succ]

/-- A wait that reads `n + 1` busy levels (R204): after `n` further steps it stands inside its loop. -/
theorem run_waitStep_busy (n : Nat) {s : State} (rest : List SeqOp) (hr : s.resetIn = none) (ha : s.active = true)
    (hb : s.BusyFor (n + 1)) :
    ∃ q, run n (s.waitStep rest) = .next { s.afterBusyReads (n + 1) with
      pending := .repoll :: rest
      seq := q
      trace := s.trace ++ .busyRead s.params.busyLevel ::
        (List.replicate n [Event.delayMs 20, .busyRead s.params.busyLevel]).flatten } := by
  have h0 := hb 0 (by omega)
  induction n generalizing s with
  | zero =>
    refine ⟨s.seq + 1, ?_⟩
    rw [run_zero, State.waitStep_eq, if_pos h0, h0]
    rfl
  | succ n ih =>
    have hb' := hb.loopRound rest
    obtain ⟨q, hq⟩ := ih (s := s.loopRound rest) hr ha hb' (hb' 0 (by omega))
    refine ⟨q, ?_⟩
    rw [run_succ (step_waitStep_busy rest hr ha h0), hq, State.afterBusyReads_loopRound]
    simp [State.loopRound, List.replicate_succ]

/-! ### From the wait's own state -/

/-- Settles O33: a step reads the first level, and the rounds up to the idle level follow. -/
theorem waitIdleReadsUntilIdle : Obligations.WaitIdleReadsUntilIdle := by
  intro k s rest hr ha hp hb hi
  obtain ⟨q, hq⟩ := run_waitStep_until_idle k rest hr ha hb hi
  exact ⟨k + 1, q, (run_succ (step_poll hr ha hp) k).trans hq⟩

/-- Settles O34: the first read of the wait, or the delay inside its loop, and then a busy read in every step. -/
theorem busyControllerHangsTheRequest : Obligations.BusyControllerHangsTheRequest := by
  intro n s rest hr ha
  refine ⟨fun hp hb => ?_, fun hp hb => ?_⟩
  · obtain ⟨q, hq⟩ := run_waitStep_busy n rest hr ha hb
    exact ⟨q, (run_succ (step_poll hr ha hp) n).trans hq⟩
  · cases n with
    | zero => exact ⟨s.seq, by simp [State.afterBusyReads_zero]⟩
    | succ n =>
      obtain ⟨q, hq⟩ := run_waitStep_busy n (s := s.waitDelay) rest hr ha hb
      refine ⟨q, (run_succ (step_repoll hr ha hp) n).trans (hq.trans ?_)⟩
      rw [← hp]
      simp [State.afterBusyReads, State.waitDelay, State.emit, Event.latch, List.replicate_succ, Config.pollMs]

end Sys2Proof.Machine
end

section
/-! PROOFS. A request is prepared and then runs its own program or ends at once, and which of the two does not depend on the levels
`BusyRead()` will return; so a request left waiting keeps its own program. -/

namespace Sys2Proof.Machine

/-! ### An environment with other levels -/

/-- `s` with other levels for the next `BusyRead()`s. -/
def State.setBusyIn (l : List Level) (s : State) : State := { s with busyIn := l }

/-- A change that keeps what `FB` reads as and goes past a write to it goes past a merge. -/
theorem State.mergeRect_comm {f : State → State} (hw : ∀ s k v, f (State.fbWrite s k v) = (f s).fbWrite k v)
    (hr : ∀ s, (f s).fbRead = s.fbRead) (x y w h : Nat) (src : Nat → Nat → Bool) (s : State) :
    (f s).mergeRect x y w h src = f (s.mergeRect x y w h src) := by
  have hpixel (s : State) (px py : Nat) (c : Bool) : (f s).putPixel px py c = f (s.putPixel px py c) := by
    cases c <;> simp [State.putPixel, hw, hr]
  have hrow (s : State) (j : Nat) : State.mergeRow x y w src (f s) j = f (State.mergeRow x y w src s j) :=
    List.foldl_hom f fun s _ => hpixel s _ _ _
  exact List.foldl_hom f hrow

theorem State.mergeRect_setBusyIn (l : List Level) (x y w h : Nat) (src : Nat → Nat → Bool) (s : State) :
    (s.setBusyIn l).mergeRect x y w h src = (s.mergeRect x y w h src).setBusyIn l :=
  State.mergeRect_comm (f := State.setBusyIn l) (fun _ _ _ => rfl) (fun _ => rfl) x y w h src s

theorem State.transportInit_setBusyIn (l : List Level) (s : State) :
    (s.setBusyIn l).transportInit = s.transportInit.setBusyIn l := by
  unfold State.transportInit State.popTransport State.nextTransport State.setBusyIn
  cases s.transportIn <;> rfl

theorem State.fbBytes_setBusyIn (l : List Level) (s : State) : (s.setBusyIn l).fbBytes = s.fbBytes :=
  State.fbBytes_congr rfl rfl

/-! ### The preparation of a request -/

/-- From `s` a request has come to `a`, where it runs its program or ends: it is accepted, has read no level and made at most a
`TransportInit()`. -/
structure State.Prepared (s a : State) : Prop where
  trace : a.trace = s.trace ∨ a.trace = s.trace ++ [.transportInit s.nextTransport]
  active : a.active = true
  params : a.params = s.params
  resetIn : a.resetIn = s.resetIn
  busyIn : a.busyIn = s.busyIn
  busyDraws : a.busyDraws = s.busyDraws

theorem State.prepared_accept (s : State) : s.Prepared s.accept := ⟨.inl rfl, rfl, rfl, rfl, rfl, rfl⟩

theorem State.prepared_mergeRect (x y w h : Nat) (src : Nat → Nat → Bool) (s : State) :
    s.Prepared (s.accept.mergeRect x y w h src) := by
  refine ⟨.inl ?_, ?_, ?_, ?_, ?_, ?_⟩ <;> simp

theorem State.prepared_fbFill (v : Byte) (s : State) : s.Prepared (s.accept.fbFill v) := by
  refine ⟨.inl ?_, ?_, ?_, ?_, ?_, ?_⟩ <;> simp

theorem State.prepared_transportInit (s : State) : s.Prepared s.accept.transportInit := by
  refine ⟨.inr (State.emits_transportInit s.accept).trace, ?_, ?_, ?_, ?_, ?_⟩ <;> simp

theorem State.Prepared.setDevState {s a : State} (h : s.Prepared a) (d : DevState) :
    s.Prepared { a with devState := d } := ⟨h.trace, h.active, h.params, h.resetIn, h.busyIn, h.busyDraws⟩

theorem State.Prepared.busyAt {s a : State} (h : s.Prepared a) (k : Nat) : a.busyAt k = s.busyAt k :=
  State.busyAt_congr h.busyIn h.busyDraws k

/-- With the levels of its own environment. -/
theorem State.Prepared.setBusyIn_self {s a : State} (h : s.Prepared a) : a.setBusyIn s.busyIn = a := by
  rw [← h.busyIn]
  rfl

/-! ### What every request does -/

/-- What a request answers in `s` with each list of levels to come: for all of them it is prepared and then runs `prog`, or for
all of them it ends at once (60_exceptions.md R287). -/
inductive State.Serves (s : State) (prog : List SeqOp) : (List Level → State) → Prop where
  | runs {a : State} (ha : s.Prepared a) : s.Serves prog fun l => drain prog (a.setBusyIn l)
  | ends {a : State} (ha : s.Prepared a) (st : Byte) (data : List Byte) :
      s.Serves prog fun l => (a.setBusyIn l).respond st data

/-- A check that does not look at the levels. -/
theorem State.Serves.ite {s : State} {prog : List SeqOp} {f g : List Level → State} (c : Prop) [Decidable c]
    (hf : s.Serves prog f) (hg : s.Serves prog g) : s.Serves prog fun l => if c then f l else g l := by
  split_ifs
  · exact hf
  · exact hg

/-- The state rule of the bus requests (43_refresh_sequencer.md R220). -/
theorem State.Serves.whenReady {s : State} {prog : List SeqOp} {f : List Level → State} (hf : s.Serves prog f) :
    s.Serves prog fun l => if s.devState = .ready then f l else (s.accept.setBusyIn l).respond Status.eState [] :=
  hf.ite _ (.ends s.prepared_accept _ _)

/-- `INIT` and `INIT_FAST` with each list of levels to come. -/
theorem initRequest_setBusyIn (fast part gray : Bool) (s : State) (l : List Level) :
    initRequest fast part gray (s.setBusyIn l).accept =
      if s.devState = .sleeping then (s.accept.setBusyIn l).respond Status.eState []
      else if s.nextTransport = 0 then drain (initProgram fast part gray s.params) (s.accept.transportInit.setBusyIn l)
      else (State.setBusyIn l { s.accept.transportInit with devState := .uninit }).respond Status.eTransport [] := by
  have ht : (s.setBusyIn l).accept.transportInit = s.accept.transportInit.setBusyIn l :=
    State.transportInit_setBusyIn l s.accept
  rw [initRequest, initSequence, ht]
  rfl

theorem State.serves_initRequest (fast part gray : Bool) (s : State) :
    s.Serves (initProgram fast part gray s.params) fun l => initRequest fast part gray (s.setBusyIn l).accept := by
  simp only [initRequest_setBusyIn]
  exact .ite _ (.ends s.prepared_accept _ _)
    (.ite _ (.runs s.prepared_transportInit) (.ends (s.prepared_transportInit.setDevState _) _ _))

/-- Every request runs its own program or ends at once. -/
theorem exec_serves {i : Instr} (hi : isCommand i = false) (s : State) :
    ∃ answer, s.Serves (programOf i s) answer ∧ ∀ l, exec i (s.setBusyIn l) = .next (answer l) := by
  have runs : s.Serves (programOf i s) fun l => drain (programOf i s) (s.accept.setBusyIn l) := .runs s.prepared_accept
  have ends (st : Byte) : s.Serves (programOf i s) fun l => (s.accept.setBusyIn l).respond st [] :=
    .ends s.prepared_accept st []
  have hmerge (l : List Level) (x y w h : Nat) (src : Nat → Nat → Bool) :
      (s.setBusyIn l).accept.mergeRect x y w h src = (s.accept.mergeRect x y w h src).setBusyIn l :=
    State.mergeRect_setBusyIn l x y w h src s.accept
  cases i
  case init => exact ⟨_, s.serves_initRequest _ _ _, fun _ => rfl⟩
  case initFast => exact ⟨_, s.serves_initRequest _ _ _, fun _ => rfl⟩
  case clear => exact ⟨_, runs.whenReady, fun _ => rfl⟩
  case displayFull => exact ⟨_, runs.whenReady, fun _ => rfl⟩
  case displayPartial => exact ⟨_, runs.whenReady, fun _ => rfl⟩
  case draw x y w h p =>
    refine ⟨_, State.Serves.whenReady (.ite (insidePanel x.toNat y.toNat w.toNat h.toNat)
      (.runs (s.prepared_mergeRect x.toNat y.toNat w.toNat h.toNat (payloadSrc p w.toNat))) (ends Status.eBounds)),
      fun l => ?_⟩
    rw [← hmerge]
    rfl
  case fill c k => exact ⟨_, ((ends Status.eArg).ite (k.toNat = 0) runs).whenReady, fun _ => rfl⟩
  case sleep => exact ⟨_, runs.whenReady, fun _ => rfl⟩
  case merge x y w h p =>
    refine ⟨_, State.Serves.ite (insidePanel x.toNat y.toNat w.toNat h.toNat)
      (.ends (s.prepared_mergeRect x.toNat y.toNat w.toNat h.toNat (payloadSrc p w.toNat)) Status.ok [])
      (ends Status.eBounds), fun l => ?_⟩
    rw [← hmerge]
    rfl
  case toBitmap =>
    refine ⟨_, .ends s.prepared_accept Status.ok s.fbBytes, fun l => ?_⟩
    rw [← State.fbBytes_setBusyIn l s]
    rfl
  case fbFill c =>
    refine ⟨_, .ends (s.prepared_fbFill (fillByte c)) Status.ok [], fun l => ?_⟩
    simp only [State.fbFill]
    rfl
  all_goals cases hi

/-! ### The programs -/

/-- No request's program begins inside a `WaitIdle()`. -/
theorem repoll_notMem_programOf (i : Instr) (s : State) : .repoll ∉ programOf i s := by
  have plain {prog : List SeqOp} (h : ∀ op ∈ prog, op.writesState = false ∧ op ≠ .repoll) : .repoll ∉ prog :=
    fun hm => (h _ hm).2 rfl
  have bringUp (fast part gray : Bool) : .repoll ∉ initProgram fast part gray s.params := by
    obtain ⟨pre, e, hp⟩ := initProgram_split fast part gray s.params
    rw [e, List.mem_append, not_or]
    exact ⟨plain hp, by simp⟩
  cases i
  case init => exact bringUp _ _ _
  case initFast => exact bringUp _ _ _
  case clear => exact plain plain_clearProgram
  case displayFull => exact plain (plain_displayFullProgram _)
  case displayPartial => exact plain (plain_displayPartialProgram _)
  case draw => exact plain (plain_refreshProgram _ _)
  case fill => exact plain (plain_fillProgram _ _ _ _)
  case sleep => simp [programOf, sleepProgram]
  all_goals exact List.not_mem_nil

/-- A request's program that waits is made of known operations; the one that is not, `SLEEP`'s, waits for nothing
(43_refresh_sequencer.md R250). -/
theorem wf_programOf_of_poll {i : Instr} {s : State} (h : .poll ∈ programOf i s) : ∀ op ∈ programOf i s, op.wf = true := by
  cases i
  case init => exact wf_initProgram _ _ _ _
  case initFast => exact wf_initProgram _ _ _ _
  case clear => exact wf_clearProgram
  case displayFull => exact wf_displayFullProgram _
  case displayPartial => exact wf_displayPartialProgram _
  case draw => exact wf_refreshProgram _ _
  case fill => exact wf_fillProgram _ _ _ _
  case sleep => simp [programOf, sleepProgram] at h
  all_goals exact List.forall_mem_nil _

/-- Settles O36: a request that is active still runs its program, which waits behind a part that read no busy level; the levels
are those the request met, since its preparation reads none. -/
theorem waitingRequestKeepsItsOwnProgram : Obligations.WaitingRequestKeepsItsOwnProgram := by
  intro i s t hi _ ht hact
  obtain ⟨answer, hs, he⟩ := exec_serves hi s
  have hself : .next (answer s.busyIn) = Host.Outcome.next t := (he s.busyIn).symm.trans ht
  cases hself
  cases hs with
  | ends ha st data => cases hact
  | @runs a ha =>
    simp only [ha.setBusyIn_self] at hact ⊢
    rcases drain_waits _ (repoll_notMem_programOf i s) a with hf | ⟨pre, rest, hp, hpend, hidle, hbusy⟩
    · rw [hf] at hact
      cases hact
    · simp only [State.IdleFor, ha.busyAt, ha.params] at hidle hbusy
      exact ⟨pre, rest, hp, hpend, hidle, hbusy⟩

end Sys2Proof.Machine
end

section
/-! PROOFS. A run that meets busy levels beside the run at an idle controller (42_reset_sequencer.md R203, 43_refresh_sequencer.md
R222): operation by operation they differ in the trace, `SEQ` and the levels alone. -/

namespace Sys2Proof.Machine

/-! ### Lengthened events -/

@[simp] theorem lengthened_nil (busy : Level) (ks : List Nat) : lengthened busy ks [] = [] := by cases ks <;> rfl

/-- Events that are no busy read are not lengthened. -/
theorem lengthened_append {es : List Event} (h : ∀ e ∈ es, e.isBusyRead = false) (busy : Level) (ks : List Nat)
    (fs : List Event) : lengthened busy ks (es ++ fs) = es ++ lengthened busy ks fs := by
  induction es with
  | nil => rfl
  | cons e es ih =>
    obtain ⟨he, hes⟩ := List.forall_mem_cons.1 h
    rw [List.cons_append, List.cons_append, ← ih hes]
    cases ks with
    | nil => rfl
    | cons k ks =>
      cases e
      case busyRead => cases he
      all_goals rfl

theorem lengthened_busyRead (busy l : Level) (k : Nat) (ks : List Nat) (es : List Event) :
    lengthened busy (k :: ks) (.busyRead l :: es) =
      (List.replicate k [Event.busyRead busy, .delayMs 20]).flatten ++ .busyRead l :: lengthened busy ks es := rfl

theorem writeRegEvents_noBusyRead (op : Byte) (bs : List Byte) : ∀ e ∈ writeRegEvents op bs, e.isBusyRead = false := by
  unfold writeRegEvents
  split <;> simp +contextual [sendCommand, sendData, Event.isBusyRead, or_imp]

/-- Of the operations only those of `WaitIdle()` read a level. -/
theorem SeqOp.events_noBusyRead {op : SeqOp} (hp : op ≠ .poll) (hr : op ≠ .repoll) (s : State) :
    ∀ e ∈ op.events s, e.isBusyRead = false := by
  cases op
  case frame => exact writeRegEvents_noBusyRead _ _
  case plane => exact writeRegEvents_noBusyRead _ _
  case poll => exact absurd rfl hp
  case repoll => exact absurd rfl hr
  case resetPulse => simp [SeqOp.events, resetPulseEvents, Event.isBusyRead]
  all_goals exact List.forall_mem_nil _

/-! ### Waits -/

/-- Waits seen from a state in which `n` levels are used up. -/
theorem State.WaitsFor.of_busyAt {s t : State} {n : Nat} (hb : ∀ k, t.busyAt k = s.busyAt (n + k))
    (hp : t.params = s.params) {off : Nat} {ks : List Nat} (h : s.WaitsFor (n + off) ks) : t.WaitsFor off ks := by
  induction ks generalizing off with
  | nil => trivial
  | cons k ks ih =>
    obtain ⟨h1, h2, h3⟩ := h
    simp only [Nat.add_assoc] at h1 h2 h3
    refine ⟨fun j hj => ?_, ?_, ih (by simpa only [Nat.add_assoc] using h3)⟩
    · rw [hb, hp]
      exact h1 j hj
    · rw [hb, hp]
      exact h2

/-- The first of some waits. -/
theorem State.WaitsFor.head {s : State} {k : Nat} {ks : List Nat} (h : s.WaitsFor 0 (k :: ks)) :
    s.BusyFor k ∧ s.busyAt k ≠ s.params.busyLevel := by
  obtain ⟨hb, hi, -⟩ := h
  rw [Nat.zero_add] at hi
  exact ⟨fun j hj => by simpa using hb j hj, hi⟩

theorem readsOf_cons (k : Nat) (ks : List Nat) : readsOf (k :: ks) = k + 1 + readsOf ks := by simp [readsOf]

/-- A level is the busy one or the other. -/
theorem level_eq_not_of_ne {l b : Level} (h : l ≠ b) : l = ~~~b := by
  revert l b
  decide

/-- The levels drawn by a program do not become fewer. -/
theorem drain_busyDraws_le (prog : List SeqOp) (s : State) : s.busyDraws ≤ (drain prog s).busyDraws := by
  refine drain_keeps (fun u => s.busyDraws ≤ u.busyDraws) (fun _ _ h => h) (fun _ h => h) prog (fun op _ u h => ?_) s le_rfl
  refine h.trans ?_
  cases op <;> simp [SeqOp.effect, State.popBusy_eq]

/-- A wait draws a level where the environment's list is used up. -/
theorem busyDraws_lt_drain_poll {s : State} (h : s.busyIn = []) (rest : List SeqOp) :
    s.busyDraws < (drain (.poll :: rest) s).busyDraws := by
  have hone : ((s.afterBusyReads 1).emit [.busyRead (s.busyAt 0)]).busyDraws = s.busyDraws + 1 := by simp [h]
  by_cases hb : s.busyAt 0 = s.params.busyLevel
  · rw [drain_poll_busy rest s hb]
    exact Nat.lt_of_lt_of_eq (Nat.lt_succ_self _) hone.symm
  · rw [drain_poll_idle rest s hb]
    exact Nat.lt_of_lt_of_le (Nat.lt_of_lt_of_eq (Nat.lt_succ_self _) hone.symm) (drain_busyDraws_le rest _)

/-- A wait that ends runs on to what the rest of a known program comes to. -/
theorem run_drain_poll {s : State} {k : Nat} {rest : List SeqOp} (hr : s.resetIn = none) (ha : s.active = true)
    (hw : ∀ op ∈ rest, op.wf = true) (hb : s.BusyFor k) (hi : s.busyAt k ≠ s.params.busyLevel) :
    ∃ n q, run n (drain (.poll :: rest) s) = .next (drain rest (s.afterWait k q)) := by
  cases k with
  | zero => exact ⟨0, _, congrArg Host.Outcome.next (drain_poll_idle rest s hi)⟩
  | succ k =>
    have hd : drain (.poll :: rest) s = s.waitStep rest := by
      rw [drain_poll, State.busyNext_eq, hb 0 (by omega), beq_self_eq_true, if_pos rfl]
    obtain ⟨q, hq⟩ := run_waitStep_until_idle (k + 1) rest hr ha hb hi
    obtain ⟨n, hn⟩ :=
      stepsOfAnActiveBlockReachTheSameState rest { s.afterWait (k + 1) q with pending := rest } hr hw ha rfl
    exact ⟨k + 1 + n, q, by rw [hd, run_add hq, hn, drain_setPending]⟩

/-- An operation that is none of a `WaitIdle()` has its effect, and the program goes on. -/
theorem drain_cons_of_ne {op : SeqOp} (hp : op ≠ .poll) (hr : op ≠ .repoll) (rest : List SeqOp) (s : State) :
    drain (op :: rest) s = drain rest (op.effect s) := by
  rcases drain_cons op rest s with h | ⟨-, h | h⟩
  · exact h
  · exact absurd h hp
  · exact absurd h hr

/-! ### The two runs -/

/-- `a` with the trace, `SEQ` and the levels to come of `r`. -/
def State.withReads (a r : State) : State :=
  { a with trace := r.trace, seq := r.seq, busyIn := r.busyIn, busyDraws := r.busyDraws }

theorem State.emit_withReads (es : List Event) (a r : State) :
    (a.withReads r).emit es = (a.emit es).withReads (r.emit es) := rfl

/-- An operation that reads no level makes the same events whatever those four are, and leaves the rest alike. -/
theorem SeqOp.effect_withReads {op : SeqOp} (hp : op ≠ .poll) (hr : op ≠ .repoll) (a r : State) :
    op.effect (a.withReads r) = (op.effect a).withReads (r.emit (op.events a)) := by
  cases op
  case plane op =>
    have hfb : (a.withReads r).fbBytes = a.fbBytes := State.fbBytes_congr rfl rfl
    simp only [SeqOp.effect, SeqOp.events, hfb]
    exact State.emit_withReads _ a r
  case poll => exact absurd rfl hp
  case repoll => exact absurd rfl hr
  case fbFill v => simp only [SeqOp.effect, SeqOp.events, State.emit_nil, State.withReads, State.fbFill]
  case mergeSolid y h c =>
    simp only [SeqOp.effect, SeqOp.events, State.emit_nil]
    exact State.mergeRect_comm (f := (State.withReads · r)) (fun _ _ _ => rfl) (fun _ => rfl) _ _ _ _ _ a
  case setMode m => simp only [SeqOp.effect, SeqOp.events, State.emit_nil, State.withReads]
  case setDevState d => simp only [SeqOp.effect, SeqOp.events, State.emit_nil, State.withReads]
  all_goals rfl

/-- Such an operation leaves the levels to come alone. -/
theorem SeqOp.effect_keepsLevels {op : SeqOp} (hp : op ≠ .poll) (hr : op ≠ .repoll) (s : State) :
    (op.effect s).busyIn = s.busyIn ∧ (op.effect s).busyDraws = s.busyDraws := by
  have h : op.effect s = (op.effect s).withReads (s.emit (op.events s)) := op.effect_withReads hp hr s s
  exact ⟨(congrArg State.busyIn h).trans rfl, (congrArg State.busyDraws h).trans rfl⟩

/-- `a` runs at a controller idle at as many reads as `ks` has waits; `b`, where the waits meet busy levels as `ks` says, differs
from it in the trace, `SEQ` and the levels alone. -/
structure State.IdleTwin (a b : State) (ks : List Nat) : Prop where
  same : b = a.withReads b
  busyIn : a.busyIn = List.replicate ks.length (~~~a.params.busyLevel)
  waits : b.WaitsFor 0 ks
  active : b.active = true
  resetIn : b.resetIn = none

/-- What `b` comes to where its twin comes to `t` by the events `es`. -/
def State.lengthenedEnd (b t : State) (ks : List Nat) (es : List Event) (q : Nat) : State :=
  { t with
    trace := b.trace ++ lengthened b.params.busyLevel ks es
    seq := q
    busyIn := b.busyIn.drop (readsOf ks)
    busyDraws := b.busyDraws + (readsOf ks - b.busyIn.length) }

/-- The events behind the first wait, and that wait itself. -/
theorem State.lengthenedEnd_afterWait (b t : State) (k : Nat) (ks : List Nat) (es : List Event) (q q' : Nat) :
    (b.afterWait k q).lengthenedEnd t ks es q' = b.lengthenedEnd t (k :: ks) (.busyRead (b.busyAt k) :: es) q' := by
  have hdraws (d l r : Nat) : d + (k + 1 - l) + (r - (l - (k + 1))) = d + (k + 1 + r - l) := by omega
  simp [State.lengthenedEnd, State.afterWait, lengthened_busyRead, readsOf_cons, hdraws]

section
variable {a b : State} {k : Nat} {ks : List Nat}

theorem State.IdleTwin.params (h : a.IdleTwin b ks) : b.params = a.params := (congrArg State.params h.same).trans rfl

/-- After an operation that reads no level the states are twins again: both made its events. -/
theorem State.IdleTwin.effect (h : a.IdleTwin b ks) {op : SeqOp} (hp : op ≠ .poll) (hr : op ≠ .repoll) :
    (op.effect a).IdleTwin (op.effect b) ks ∧ op.effect b = (op.effect a).withReads (b.emit (op.events a)) := by
  have he : op.effect b = (op.effect a).withReads (b.emit (op.events a)) := by
    rw [← SeqOp.effect_withReads hp hr, ← h.same]
  obtain ⟨hin, -⟩ := op.effect_keepsLevels hp hr a
  obtain ⟨hact, -⟩ := op.effect_keeps b
  have hem := op.effect_emits b
  refine ⟨⟨by rw [he]; rfl, ?_, ?_, hact.trans h.active, hem.resetIn.trans h.resetIn⟩, he⟩
  · rw [hin, (op.effect_emits a).params, h.busyIn]
  · obtain ⟨hb1, hb2⟩ := op.effect_keepsLevels hp hr b
    have hb (j : Nat) : (op.effect b).busyAt j = b.busyAt (0 + j) := by
      rw [Nat.zero_add, State.busyAt_congr hb1 hb2]
    exact h.waits.of_busyAt (off := 0) hb hem.params

/-- Where the first wait has ended the states are twins for the others. -/
theorem State.IdleTwin.afterWait (h : a.IdleTwin b (k :: ks)) (q : Nat) :
    State.IdleTwin ((a.afterBusyReads 1).emit [.busyRead (a.busyAt 0)]) (b.afterWait k q) ks where
  same := by
    rw [h.same]
    rfl
  busyIn := by simp [h.busyIn, List.replicate_succ]
  waits := by
    obtain ⟨-, -, h3⟩ := h.waits
    rw [Nat.zero_add] at h3
    have hb (j : Nat) : (b.afterWait k q).busyAt j = b.busyAt (k + 1 + j) := State.busyAt_afterBusyReads b (k + 1) j
    exact h3.of_busyAt (off := 0) hb rfl
  active := h.active
  resetIn := h.resetIn

/-- The idle level both read at the end of the first wait. -/
theorem State.IdleTwin.busyAt_eq (h : a.IdleTwin b (k :: ks)) :
    a.busyAt 0 = b.busyAt k ∧ a.busyAt 0 ≠ a.params.busyLevel := by
  have ha : a.busyAt 0 = ~~~a.params.busyLevel := by simp [State.busyAt, h.busyIn]
  have hb : b.busyAt k = ~~~a.params.busyLevel := by
    rw [← h.params]
    exact level_eq_not_of_ne h.waits.head.2
  refine ⟨ha.trans hb.symm, ?_⟩
  rw [ha]
  generalize a.params.busyLevel = l
  revert l
  decide

end

/-- A program comes to the same end in both runs, by the events of the idle one lengthened: by induction on the program, the two
states being twins after each operation and after each wait. -/
theorem drain_idleTwin (prog : List SeqOp) (hn : .repoll ∉ prog) (hw : .poll ∈ prog → ∀ op ∈ prog, op.wf = true)
    {a b : State} {ks : List Nat} (h : a.IdleTwin b ks) (hin : (drain prog a).busyIn = [])
    (hd : (drain prog a).busyDraws = a.busyDraws) :
    ∃ n q es, (drain prog a).trace = a.trace ++ es ∧
      run n (drain prog b) = .next (b.lengthenedEnd (drain prog a) ks es q) := by
  induction prog generalizing a b ks with
  | nil =>
    have hks : ks = [] := by simpa [h.busyIn] using hin
    refine ⟨0, 0, [], by simp, ?_⟩
    rw [run_zero, h.same, hks]
    simp [State.lengthenedEnd, State.withReads, State.respond, readsOf]
  | cons op rest ih =>
    obtain ⟨hop, hrest⟩ : .repoll ≠ op ∧ .repoll ∉ rest := by simpa using hn
    have hw' : .poll ∈ rest → ∀ o ∈ rest, o.wf = true := fun hm o ho =>
      hw (List.mem_cons_of_mem op hm) o (List.mem_cons_of_mem op ho)
    by_cases hp : op = .poll
    · subst hp
      cases ks with
      | nil =>
        have hlt := busyDraws_lt_drain_poll (s := a) h.busyIn rest
        omega
      | cons k ks =>
        obtain ⟨hlevel, hidle⟩ := h.busyAt_eq
        obtain ⟨hbusy, hlast⟩ := h.waits.head
        obtain ⟨n, q, hrun⟩ := run_drain_poll h.resetIn h.active
          (fun o ho => hw List.mem_cons_self o (List.mem_cons_of_mem _ ho)) hbusy hlast
        rw [drain_poll_idle rest a hidle] at hin hd ⊢
        have hdraws : ((a.afterBusyReads 1).emit [.busyRead (a.busyAt 0)]).busyDraws = a.busyDraws := by
          simp [h.busyIn]
        obtain ⟨m, q', es, htr, hrun'⟩ := ih hrest hw' (h.afterWait q) hin (hd.trans hdraws.symm)
        refine ⟨n + m, q', .busyRead (a.busyAt 0) :: es, ?_, ?_⟩
        · rw [htr]
          simp
        · rw [run_add hrun, hrun', hlevel, State.lengthenedEnd_afterWait]
    · obtain ⟨htwin, he⟩ := h.effect hp hop.symm
      rw [drain_cons_of_ne hp hop.symm] at hin hd ⊢
      rw [drain_cons_of_ne hp hop.symm]
      obtain ⟨n, q, es, htr, hrun⟩ := ih hrest hw' htwin hin (hd.trans (op.effect_keepsLevels hp hop.symm a).2.symm)
      refine ⟨n, q, op.events a ++ es, ?_, ?_⟩
      · rw [htr, (op.effect_emits a).trace, List.append_assoc]
      · rw [hrun, State.lengthenedEnd, State.lengthenedEnd, lengthened_append (op.events_noBusyRead hp hop.symm a), he]
        simp [State.withReads, (op.effect_emits a).params, h.params]

/-! ### Requests -/

/-- The preparation of a request is the same part of both runs. -/
theorem State.Prepared.lengthenedEnd_eq {s a t : State} {es : List Event} (ha : s.Prepared a)
    (ht : t.trace = a.trace ++ es) (ks : List Nat) (q : Nat) :
    a.lengthenedEnd t ks es q = s.lengthenedEnd t ks (t.trace.drop s.trace.length) q := by
  obtain ⟨pre, hpre, hno⟩ : ∃ pre, a.trace = s.trace ++ pre ∧ ∀ e ∈ pre, e.isBusyRead = false := by
    rcases ha.trace with h | h
    · exact ⟨[], by rw [h, List.append_nil], List.forall_mem_nil _⟩
    · exact ⟨_, h, by simp [Event.isBusyRead]⟩
  rw [State.lengthenedEnd, State.lengthenedEnd, ht, hpre, List.append_assoc, List.append_assoc, List.drop_left,
    lengthened_append hno, ha.params, ha.busyIn, ha.busyDraws]

/-- Settles O37: the preparation is the same in both runs and leaves twins, which come to the same end. -/
theorem busyReadsOnlyLengthenTheWaits : Obligations.BusyReadsOnlyLengthenTheWaits := by
  intro i s t ks hi _ hr hwaits ht _ hin hd
  obtain ⟨answer, hs, he⟩ := exec_serves hi s
  have hidle : .next (answer (List.replicate ks.length (~~~s.params.busyLevel))) = Host.Outcome.next t :=
    (he _).symm.trans ht
  have hself : exec i s = .next (answer s.busyIn) := he s.busyIn
  cases hidle
  cases hs with
  | @ends a ha st data =>
    obtain rfl : ks = [] := by simpa [State.setBusyIn] using hin
    refine ⟨_, 0, 0, hself, ?_⟩
    have hend := ha.lengthenedEnd_eq (t := (a.setBusyIn []).respond st data) (List.append_nil _).symm [] 0
    have hnow : a.respond st data = a.lengthenedEnd ((a.setBusyIn []).respond st data) [] [] 0 := by
      simp [State.lengthenedEnd, State.setBusyIn, State.respond, readsOf]
    simp only [ha.setBusyIn_self]
    exact congrArg Host.Outcome.next (hnow.trans hend)
  | @runs a ha =>
    have htwin : (a.setBusyIn (List.replicate ks.length (~~~s.params.busyLevel))).IdleTwin a ks :=
      ⟨rfl, by rw [← ha.params]; rfl, hwaits.of_busyAt (n := 0) (fun k => by rw [Nat.zero_add, ha.busyAt]) ha.params,
        ha.active, ha.resetIn.trans hr⟩
    obtain ⟨n, q, es, htr, hrun⟩ := drain_idleTwin (programOf i s) (repoll_notMem_programOf i s) wf_programOf_of_poll
      htwin hin (hd.trans ha.busyDraws.symm)
    refine ⟨_, n, q, hself, ?_⟩
    simp only [ha.setBusyIn_self]
    rw [hrun, ha.lengthenedEnd_eq htr]
    rfl

end Sys2Proof.Machine
end

section
/-! PROOFS. The refresh requests complete at an idle controller (43_refresh_sequencer.md): what each event program sends, then
the requests. -/

namespace Sys2Proof.Machine

/-! ### Programs that only send -/

/-- `s` after `n` busy reads and the events `es`, and nothing else. -/
def State.sent (n : Nat) (es : List Event) (s : State) : State := (s.afterBusyReads n).emit es

@[simp] theorem State.sent_zero_nil (s : State) : s.sent 0 [] = s := by
  rw [State.sent, State.emit_nil, State.afterBusyReads_zero]

@[simp] theorem State.sent_fb (n : Nat) (es : List Event) (s : State) : (s.sent n es).fb = s.fb := rfl

@[simp] theorem State.fbRead_sent (n : Nat) (es : List Event) (s : State) : (s.sent n es).fbRead = s.fbRead := rfl

theorem State.fbBytes_sent (n : Nat) (es : List Event) (s : State) : (s.sent n es).fbBytes = s.fbBytes :=
  State.fbBytes_congr rfl rfl

theorem State.sent_sent (n m : Nat) (es fs : List Event) (s : State) :
    (s.sent n es).sent m fs = s.sent (n + m) (es ++ fs) := by
  have h : ((s.afterBusyReads n).emit es).afterBusyReads m = ((s.afterBusyReads n).afterBusyReads m).emit es := rfl
  rw [State.sent, State.sent, State.sent, h, State.emit_emit, State.afterBusyReads_add]

theorem State.emit_eq_sent (es : List Event) (s : State) : s.emit es = s.sent 0 es := by
  rw [State.sent, State.afterBusyReads_zero]

/-- The program `prog` runs through from `s`, reads `n` levels, makes the events `es`, and changes nothing else. -/
def Sends (prog : List SeqOp) (s : State) (n : Nat) (es : List Event) : Prop := RunsThrough prog s (s.sent n es) n es

theorem sends_nil (s : State) : Sends [] s 0 [] := by
  rw [Sends, State.sent_zero_nil]
  exact runsThrough_nil s

section
variable {prog : List SeqOp} {s : State} {n k : Nat} {es : List Event}

theorem Sends.append {q : List SeqOp} {m : Nat} {fs : List Event} (h : Sends prog s n es)
    (h' : Sends q (s.sent n es) m fs) : Sends (prog ++ q) s (n + m) (es ++ fs) := by
  rw [Sends, ← State.sent_sent]
  exact RunsThrough.append h h'

theorem Sends.append_emit {q : List SeqOp} {fs : List Event} (h : Sends prog s n es)
    (h' : RunsThrough q (s.sent n es) ((s.sent n es).emit fs) 0 fs) : Sends (prog ++ q) s n (es ++ fs) := by
  rw [State.emit_eq_sent] at h'
  exact h.append h'

theorem Sends.frame (h : Sends prog s n es) (op : Byte) (bs : List Byte) :
    Sends (prog ++ [.frame op bs]) s n (es ++ writeRegEvents op bs) :=
  h.append_emit (runsThrough_frame op bs _)

theorem Sends.plane (h : Sends prog s n es) (op : Byte) :
    Sends (prog ++ [.plane op]) s n (es ++ writeRegEvents op s.fbBytes) :=
  h.append_emit (runsThrough_plane op _)

theorem Sends.resetPulse (h : Sends prog s n es) : Sends (prog ++ [.resetPulse]) s n (es ++ resetPulseEvents) :=
  h.append_emit (runsThrough_resetPulse _)

/-- A `WaitIdle()` at an idle controller (42_reset_sequencer.md R203). -/
theorem Sends.poll (h : Sends prog s n es) (hi : s.IdleFor k) (hk : n < k) :
    Sends (prog ++ [.poll]) s (n + 1) (es ++ [.busyRead (s.busyAt n)]) := by
  have hb : (s.sent n es).busyAt 0 = s.busyAt n := h.1.busyAt 0
  rw [← hb]
  exact h.append (runsThrough_poll (h.1.idle hi hk))

/-- `TURN_ON(a)` (43_refresh_sequencer.md R222). -/
theorem Sends.turnOn (h : Sends prog s n es) (hi : s.IdleFor k) (hk : n < k) (a : Byte) :
    Sends (prog ++ turnOn a) s (n + 1) (es ++ turnOnEvents a (s.busyAt n)) := by
  simpa [Machine.turnOn, turnOnEvents] using ((h.frame 0x22#8 [a]).frame 0x20#8 []).poll hi hk

/-- `SET_WINDOW_FULL; SET_CURSOR_ORIGIN` (R224). -/
theorem Sends.window (h : Sends prog s n es) :
    Sends (prog ++ setWindowFull ++ setCursorOrigin) s n (es ++ windowEvents) := by
  simpa [setWindowFull_eq, setCursorOrigin, windowEvents] using
    (((h.frame 0x44#8 [0x00#8, 0x31#8]).frame 0x45#8 [0x00#8, 0x00#8, 0x2B#8, 0x01#8]).frame 0x4E#8 [0x00#8]).frame
      0x4F#8 [0x00#8, 0x00#8]

/-- Both planes and `TURN_ON(a)` (R225, R226). -/
theorem sends_fullRefresh (h : s.IdleFor 1) (a : Byte) :
    Sends ([.plane 0x24#8, .plane 0x26#8] ++ turnOn a) s 1 (fullRefreshEvents s.fbBytes a (s.busyAt 0)) :=
  (((sends_nil s).plane 0x24#8).plane 0x26#8).turnOn h Nat.one_pos a

/-- `DisplayPartial()` (R227). -/
theorem sends_displayPartialProgram (h : s.IdleFor 1) :
    Sends (displayPartialProgram s.params) s 1 (partialRefreshEvents s.params s.fbBytes (s.busyAt 0)) :=
  ((((((sends_nil s).frame 0x3C#8 [s.params.borderPartial]).frame 0x21#8
    [s.params.upd1Partial.1, s.params.upd1Partial.2]).window).plane 0x24#8).turnOn h Nat.one_pos Config.actPartial)

/-- The refresh of `DRAW` and of a `FILL` tile in each mode (R241, R223). -/
theorem sends_refreshProgram (h : s.IdleFor 1) (m : Mode) :
    Sends (refreshProgram m s.params) s 1 (refreshEvents m s.params s.fbBytes (s.busyAt 0)) := by
  cases m
  case full => exact sends_fullRefresh h Config.actFull
  case fast => exact sends_fullRefresh h Config.actFast
  case partialMode => exact sends_displayPartialProgram h
  case gray4 => exact sends_fullRefresh h Config.actGray

end

/-! ### The pins after a refresh -/

/-- The events leave RST alone and end with a command without data: DC at the command level, CS high. -/
structure EndsInCommand (es : List Event) : Prop where
  rst (l : Level) : latchAfter .rst l es = l
  dc (l : Level) : latchAfter .dc l es = 0#1
  cs (l : Level) : latchAfter .cs l es = 1#1

theorem endsInCommand_turnOnEvents (a : Byte) (l : Level) : EndsInCommand (turnOnEvents a l) := by
  constructor <;> intro <;> simp [turnOnEvents, Event.latch, Config.dcCmd, Config.csDeassert]

/-- What stands before the last events need only leave RST alone. -/
theorem EndsInCommand.prepend {fs : List Event} (h : EndsInCommand fs) {es : List Event}
    (he : ∀ l, latchAfter .rst l es = l) : EndsInCommand (es ++ fs) := by
  constructor <;> intro l <;> rw [latchAfter_append]
  · rw [he, h.rst]
  · exact h.dc _
  · exact h.cs _

theorem endsInCommand_fullRefreshEvents (plane : List Byte) (a : Byte) (l : Level) :
    EndsInCommand (fullRefreshEvents plane a l) :=
  (endsInCommand_turnOnEvents a l).prepend (by simp)

theorem endsInCommand_partialRefreshEvents (p : Params) (plane : List Byte) (l : Level) :
    EndsInCommand (partialRefreshEvents p plane l) :=
  (endsInCommand_turnOnEvents 0xFF#8 l).prepend (by simp [windowEvents])

theorem endsInCommand_refreshEvents (m : Mode) (p : Params) (plane : List Byte) (l : Level) :
    EndsInCommand (refreshEvents m p plane l) := by
  cases m
  case partialMode => exact endsInCommand_partialRefreshEvents p plane l
  all_goals exact endsInCommand_fullRefreshEvents plane _ l

theorem endsInCommand_flatMap_range {f : Nat → List Event} (h : ∀ k, EndsInCommand (f k)) (n : Nat) :
    EndsInCommand ((List.range (n + 1)).flatMap f) := by
  induction n with
  | zero => simpa using h 0
  | succ n ih =>
    rw [List.range_succ, List.flatMap_append, List.flatMap_singleton]
    exact (h (n + 1)).prepend ih.rst

/-! ### The end of a refresh request -/

/-- From `s` a refresh request served in `READY` has ended in `t` with `OK`: its events, its `reads` busy levels, the pins as its
last command leaves them, `DEV_STATE` and `MODE` as they were. -/
structure State.Refreshed (s t : State) (reads : Nat) (events : List Event) : Prop where
  ended : s.EndedOk t reads events
  pins : s.PinsAfterFrames t 0#1
  devState : t.devState = .ready
  mode : t.mode = s.mode

theorem State.OnlyFb.ran {s a : State} (h : s.OnlyFb a) : s.Ran a 0 [] := by
  rw [h]
  refine ⟨?_, rfl, rfl, rfl, rfl, by simp, rfl, rfl⟩
  constructor <;> simp

/-- A program that writes neither `MODE` nor `DEV_STATE`, run after at most a change of `FB`. -/
theorem RunsThrough.refreshed {prog : List SeqOp} {s a t : State} {n : Nat} {es : List Event}
    (h : RunsThrough prog a t n es) (ha : s.accept.OnlyFb a) (hd : s.devState = .ready)
    (hp : ∀ op ∈ prog, op.writesState = false ∧ op ≠ .repoll) (he : EndsInCommand es) :
    s.Refreshed (t.respond Status.ok []) n es := by
  have hran : s.accept.Ran t n es := by simpa using ha.ran.trans h.1
  obtain ⟨hdev, hmode⟩ : s.KeepsRegs (t.respond Status.ok []) := by
    have hk := drain_keepsRegs hp a
    rwa [h.drain_eq, ha] at hk
  exact ⟨hran.endedOk.of_accept,
    ⟨hran.emits.pinRst.trans (he.rst _), hran.emits.pinDc.trans (he.dc _), hran.emits.pinCs.trans (he.cs _),
      hran.transportIn, hran.transportDraws⟩, hdev.trans hd, hmode⟩

/-- The state rule passes in `READY` (43_refresh_sequencer.md R220). -/
theorem exec_of_ready {i : Instr} {serve : State → State} {s : State} (hi : exec i s = .next (s.accept.whenReady serve))
    (hd : s.devState = .ready) : exec i s = .next (serve s.accept) := by
  rw [hi, State.whenReady, State.accept_devState, if_pos hd]

/-- A bus request in `READY` whose other checks lead to a program that runs through ends where the program does. -/
theorem RunsThrough.exec_eq {prog : List SeqOp} {s a t : State} {n : Nat} {es : List Event} (h : RunsThrough prog a t n es)
    {i : Instr} {serve : State → State} (hi : exec i s = .next (s.accept.whenReady serve)) (hd : s.devState = .ready)
    (hs : serve s.accept = drain prog a) : exec i s = .next (t.respond Status.ok []) := by
  rw [exec_of_ready hi hd, hs, h.drain_eq]

/-! ### The requests with one refresh -/

/-- `Clear()` (R225) fills `FB` with white and sends the white planes. -/
theorem runsThrough_clearProgram {s : State} (h : s.IdleFor 1) :
    RunsThrough clearProgram s ((s.fbFill 0xFF#8).sent 1 (fullRefreshEvents whitePlane 0xF7#8 (s.busyAt 0))) 1
      (fullRefreshEvents whitePlane 0xF7#8 (s.busyAt 0)) := by
  have hfill : (s.fbFill 0xFF#8).IdleFor 1 := by
    simpa only [State.IdleFor, State.busyAt_fbFill, State.fbFill_params] using h
  have hsend := sends_fullRefresh hfill 0xF7#8
  rw [State.fbBytes_fbFill_white, State.busyAt_fbFill] at hsend
  exact (runsThrough_fbFill 0xFF#8 s).append hsend

/-- Settles O24: the program fills `FB`, then sends the white planes. -/
theorem clearCompletes : Obligations.ClearCompletes := by
  intro s _ hd hi
  have hrun := runsThrough_clearProgram (s := s.accept) hi
  obtain ⟨hended, hpins, hdev, hmode⟩ :=
    hrun.refreshed rfl hd plain_clearProgram (endsInCommand_fullRefreshEvents _ _ _)
  refine ⟨_, hrun.exec_eq rfl hd rfl, hended, hpins, hdev, hmode, fun k hk => ?_⟩
  rw [State.fbRead_respond, State.fbRead_sent, State.fbRead_fbFill _ _ hk]

/-- Settles O25: the program sends `FB` to both planes and activates with the byte of `MODE`. -/
theorem displayFullCompletes : Obligations.DisplayFullCompletes := by
  intro s _ hd hi
  have hrun : RunsThrough (displayFullProgram s.mode) s.accept _ 1 _ := sends_fullRefresh (s := s.accept) hi _
  obtain ⟨hended, hpins, hdev, hmode⟩ :=
    hrun.refreshed rfl hd (plain_displayFullProgram _) (endsInCommand_fullRefreshEvents _ _ _)
  refine ⟨_, hrun.exec_eq rfl hd rfl, ?_, hpins, hdev, hmode, ?_⟩
  · cases hm : s.mode <;> rw [hm] at hended <;> exact hended
  · rw [State.respond_fb, State.sent_fb, State.accept_fb]

/-- Settles O26: the program sends the partial setup, the window and `FB`, and activates with 0xFF. -/
theorem displayPartialCompletes : Obligations.DisplayPartialCompletes := by
  intro s _ hd hi
  have hrun := sends_displayPartialProgram (s := s.accept) hi
  obtain ⟨hended, hpins, hdev, hmode⟩ :=
    RunsThrough.refreshed hrun rfl hd (plain_displayPartialProgram _) (endsInCommand_partialRefreshEvents _ _ _)
  refine ⟨_, RunsThrough.exec_eq hrun rfl hd rfl, hended, hpins, hdev, hmode, ?_⟩
  rw [State.respond_fb, State.sent_fb, State.accept_fb]

/-- A refresh after a change of `FB`, which the levels to come and the parameters do not depend on. -/
theorem State.OnlyFb.sends_refreshProgram {s a : State} (h : s.OnlyFb a) (hi : s.IdleFor 1) (m : Mode) :
    Sends (refreshProgram m s.params) a 1 (refreshEvents m s.params a.fbBytes (s.busyAt 0)) := by
  have hp : a.params = s.params := (congrArg State.params h).trans rfl
  have hb (k : Nat) : a.busyAt k = s.busyAt k := (congrArg (State.busyAt · k) h).trans rfl
  rw [← hp, ← hb]
  exact Machine.sends_refreshProgram (fun k hk => by rw [hb, hp]; exact hi k hk) m

/-- Settles O27: `FB` is the one that the `MERGE` of the same rectangle leaves, and the refresh sends it. -/
theorem drawCompletes : Obligations.DrawCompletes := by
  intro x y w h p s ha hd hw hx hy hi
  obtain ⟨t, ht, -, hin, hout, hother⟩ := mergeCompletes x y w h p s ha hw hx hy
  rw [exec_merge_inside hx hy] at ht
  cases ht
  have honly := State.mergeRect_onlyFb x.toNat y.toNat w.toNat h.toNat (payloadSrc p w.toNat) s.accept
  have hrun := honly.sends_refreshProgram hi s.mode
  obtain ⟨hended, hpins, hdev, hmode⟩ :=
    RunsThrough.refreshed hrun honly hd (plain_refreshProgram _ _) (endsInCommand_refreshEvents _ _ _ _)
  have hpanel : insidePanel x.toNat y.toNat w.toNat h.toNat := (insidePanel_iff _ _ _ _).2 ⟨hx, hy⟩
  exact ⟨_, RunsThrough.exec_eq hrun rfl hd (if_pos hpanel), hended, hpins, hdev, hmode, hin, hout, hother⟩

/-! ### `FILL` -/

/-- Settles O29: all tiles but the last are full, and the last ends at the panel's last row. -/
theorem tilesCoverThePanel : Obligations.TilesCoverThePanel := by
  intro t ht
  have hsplit := Nat.div_add_mod' 300 t
  have hmod := Nat.mod_lt 300 (Nat.pos_of_ne_zero ht)
  have hfull : ∀ k ∈ List.range (300 / t), (k * t, t) = (k * t, min ((k + 1) * t) 300 - k * t) := by
    intro k hk
    have hle : (k + 1) * t ≤ 300 / t * t := Nat.mul_le_mul_right t (List.mem_range.1 hk)
    rw [Nat.succ_mul] at hle ⊢
    rw [Nat.min_eq_left (by omega), Nat.add_sub_cancel_left]
  rw [tiles_eq, List.map_congr_left hfull]
  by_cases hr : 300 % t = 0
  · have hn : (300 + t - 1) / t = 300 / t :=
      Nat.div_eq_of_lt_le (by omega) (by rw [Nat.succ_mul]; omega)
    rw [if_pos hr, List.append_nil, hn]
  · have hn : (300 + t - 1) / t = 300 / t + 1 :=
      Nat.div_eq_of_lt_le (by rw [Nat.succ_mul]; omega) (by rw [Nat.succ_mul, Nat.succ_mul]; omega)
    have hlast : min ((300 / t + 1) * t) 300 - 300 / t * t = 300 % t := by
      rw [Nat.succ_mul]
      omega
    rw [if_neg hr, hn, List.range_succ, List.map_append, List.map_singleton, hlast]

/-- The operations for tile `k` of a `FILL` (43_refresh_sequencer.md R245, R246). -/
def tileProgram (c : Bool) (t : Nat) (m : Mode) (p : Params) (k : Nat) : List SeqOp :=
  .mergeSolid (k * t) (min ((k + 1) * t) 300 - k * t) c :: refreshProgram m p

theorem fillProgram_eq_tilePrograms (c : Bool) {t : Nat} (ht : t ≠ 0) (m : Mode) (p : Params) :
    fillProgram c t m p = (List.range ((300 + t - 1) / t)).flatMap (tileProgram c t m p) := by
  rw [fillProgram, tilesCoverThePanel t ht, List.flatMap_map]
  rfl

/-- `FB` of `s` with its first `rows` rows in the colour `c`. -/
def State.filledPlane (c : Bool) (rows : Nat) (s : State) : List Byte :=
  (List.range 15000).map fun n => if n / 50 < rows then (if c then 0xFF#8 else 0x00#8) else s.fbRead n

theorem State.filledPlane_zero (c : Bool) (s : State) : s.filledPlane c 0 = s.fbBytes := by
  simp [State.filledPlane, State.fbBytes_eq]

/-- The events of the refreshes of the first `n` tiles of a `FILL`. -/
def State.fillEvents (c : Bool) (t n : Nat) (s : State) : List Event :=
  (List.range n).flatMap fun k => refreshEvents s.mode s.params (s.filledPlane c ((k + 1) * t)) (s.busyAt k)

/-- Tile `k` colours its rows behind those of the tiles before it. -/
theorem State.fbBytes_tile {s u : State} {c : Bool} {t k : Nat} (h : u.fbBytes = s.filledPlane c (k * t)) :
    (u.mergeRect 0 (k * t) 400 (min ((k + 1) * t) 300 - k * t) fun _ _ => c).fbBytes =
      s.filledPlane c ((k + 1) * t) := by
  rw [State.fbBytes_eq, State.filledPlane, List.map_inj_left] at h
  rw [State.fbBytes_eq, State.filledPlane]
  refine List.map_congr_left fun n hn => ?_
  have hrow : n / 50 < 300 := by
    have := List.mem_range.1 hn
    omega
  rw [State.fbRead_mergeSolid, h n hn, Nat.succ_mul]
  generalize (if c then 0xFF#8 else 0x00#8) = colour
  by_cases hbefore : n / 50 < k * t
  · rw [if_neg (by omega), if_pos hbefore, if_pos (by omega)]
  · rw [if_neg hbefore]
    exact if_congr (by omega) rfl rfl

/-- The first `n` tiles of a `FILL` run through, each with its refresh, and leave their rows coloured. -/
theorem runsThrough_tilePrograms (c : Bool) (t : Nat) {s : State} (n : Nat) (hi : s.IdleFor n) :
    ∃ u, RunsThrough ((List.range n).flatMap (tileProgram c t s.mode s.params)) s u n (s.fillEvents c t n) ∧
      u.fbBytes = s.filledPlane c (n * t) := by
  induction n with
  | zero => exact ⟨s, runsThrough_nil s, by rw [Nat.zero_mul, State.filledPlane_zero]⟩
  | succ n ih =>
    obtain ⟨u, hrun, hfb⟩ := ih fun k hk => hi k (by omega)
    have hidle : u.IdleFor 1 := fun k hk => by
      obtain rfl : k = 0 := by omega
      exact hrun.1.idle hi n.lt_succ_self
    have htile := (State.mergeRect_onlyFb 0 (n * t) 400 (min ((n + 1) * t) 300 - n * t) (fun _ _ => c) u).sends_refreshProgram
      hidle s.mode
    rw [hrun.1.busyAt, hrun.1.emits.params, State.fbBytes_tile hfb] at htile
    rw [State.fillEvents, List.range_succ, List.flatMap_append, List.flatMap_append, List.flatMap_singleton,
      List.flatMap_singleton]
    exact ⟨_, hrun.append ((runsThrough_mergeSolid _ _ c u).append htile),
      (State.fbBytes_sent _ _ _).trans (State.fbBytes_tile hfb)⟩

/-- Settles O28: the tiles run through one after the other, and the last one ends at the last row. -/
theorem fillCompletes : Obligations.FillCompletes := by
  intro c th s _ hd hth hi
  have hcover : 300 ≤ (300 + th.toNat - 1) / th.toNat * th.toNat := by
    have := Nat.div_add_mod' (300 + th.toNat - 1) th.toNat
    have := Nat.mod_lt (300 + th.toNat - 1) (Nat.pos_of_ne_zero hth)
    omega
  have hplain := plain_fillProgram c th.toNat s.mode s.params
  have hprog := fillProgram_eq_tilePrograms c hth s.mode s.params
  generalize (300 + th.toNat - 1) / th.toNat = n at *
  obtain ⟨n, rfl⟩ : ∃ m, n = m + 1 := Nat.exists_eq_succ_of_ne_zero (by rintro rfl; omega)
  obtain ⟨u, hrun, hfb⟩ := runsThrough_tilePrograms c th.toNat (s := s.accept) (n + 1) hi
  rw [State.accept_mode, State.accept_params, ← hprog] at hrun
  obtain ⟨hended, hpins, hdev, hmode⟩ :=
    hrun.refreshed rfl hd hplain (endsInCommand_flatMap_range (fun _ => endsInCommand_refreshEvents _ _ _ _) n)
  refine ⟨_, hrun.exec_eq rfl hd (if_neg hth), hended, hpins, hdev, hmode, fun k hk => ?_⟩
  rw [State.fbBytes_eq, State.filledPlane, List.map_inj_left] at hfb
  rw [State.fbRead_respond, hfb k (List.mem_range.2 hk), if_pos (by omega)]

/-! ### `INIT` and `INIT_FAST` -/

/-- From `s` an `INIT` or `INIT_FAST` has ended in `t` with `OK`: its events, its `reads` busy levels, one transport status used
up, the pins after the last refresh, a white `FB`, `MODE` now `m`, and `READY` (43_refresh_sequencer.md R232). -/
structure State.Initialised (s t : State) (reads : Nat) (events : List Event) (m : Mode) : Prop where
  ended : s.EndedOk t reads events
  devState : t.devState = .ready
  mode : t.mode = m
  pinRst : t.pinRst = 1#1
  pinDc : t.pinDc = 0#1
  pinCs : t.pinCs = 1#1
  transportIn : t.transportIn = s.popTransport.transportIn
  transportDraws : t.transportDraws = s.popTransport.transportDraws
  white : ∀ k < 15000, t.fbRead k = 0xFF#8

/-- A successful `TransportInit()` is the first event of the request. -/
theorem State.EndedOk.of_transportInit {s t : State} {n : Nat} {es : List Event} (ht : s.nextTransport = 0)
    (h : s.accept.transportInit.EndedOk t n es) : s.EndedOk t n (.transportInit 0 :: es) := by
  have htrace : s.accept.transportInit.trace = s.trace ++ [.transportInit 0] := by
    rw [← ht]
    exact s.accept.emits_transportInit.trace
  constructor
  · rw [h.trace, htrace, List.append_assoc, List.singleton_append]
  · exact h.status
  · simpa using h.responses
  · exact h.active
  · exact h.pending
  · simpa using h.params
  · simpa using h.requests
  · simpa using h.resetIn
  · simpa using h.fbEpoch
  · simpa using h.busyIn
  · simpa using h.busyDraws

theorem runsThrough_setRegs (m : Mode) (d : DevState) (s : State) :
    RunsThrough [.setMode m, .setDevState d] s { s with mode := m, devState := d } 0 [] := by
  refine ⟨⟨?_, rfl, rfl, rfl, rfl, by simp, rfl, rfl⟩, fun rest => rfl⟩
  constructor <;> simp

theorem State.fbRead_setRegs (m : Mode) (d : DevState) (s : State) :
    State.fbRead { s with mode := m, devState := d } = s.fbRead := rfl

/-- The end of `InitSequence`: `Clear()`, then the two registers (R232). -/
theorem runsThrough_initEnd {s : State} (h : s.IdleFor 1) (m : Mode) :
    ∃ t, RunsThrough (clearProgram ++ [.setMode m, .setDevState .ready]) s t 1
        (fullRefreshEvents whitePlane 0xF7#8 (s.busyAt 0)) ∧
      t.devState = .ready ∧ t.mode = m ∧ ∀ k < 15000, t.fbRead k = 0xFF#8 := by
  have hrun := (runsThrough_clearProgram h).append (runsThrough_setRegs m .ready _)
  rw [List.append_nil] at hrun
  refine ⟨_, hrun, rfl, rfl, fun k hk => ?_⟩
  rw [State.fbRead_setRegs, State.fbRead_sent, State.fbRead_fbFill _ _ hk]

theorem State.popTransport_accept (s : State) : s.accept.popTransport = s.popTransport.accept := by
  cases h : s.transportIn <;> simp [State.popTransport, State.accept, h]

theorem State.IdleFor.transportInit {s : State} {n : Nat} (h : s.IdleFor n) : s.accept.transportInit.IdleFor n :=
  fun k hk => by
    rw [s.prepared_transportInit.busyAt, s.prepared_transportInit.params]
    exact h k hk

/-- What `INIT` and `INIT_FAST` have in common: after the `TransportInit()` a part `pre` that leaves RST high and only sends, then
the end of `InitSequence` (R232). -/
theorem initRequest_initialised {fast part gray : Bool} {s : State} {pre : List SeqOp} {n : Nat} {es : List Event}
    (hd : s.devState ≠ .sleeping) (ht : s.nextTransport = 0) (hi : s.IdleFor (n + 1))
    (hprog : initProgram fast part gray s.params =
      pre ++ (clearProgram ++ [.setMode (modeOf fast part gray), .setDevState .ready]))
    (hpre : Sends pre s.accept.transportInit n es) (hrst : ∀ l, latchAfter .rst l es = 1#1) :
    s.Initialised (initRequest fast part gray s.accept) (n + 1)
      (.transportInit 0 :: (es ++ fullRefreshEvents whitePlane 0xF7#8 (s.busyAt n))) (modeOf fast part gray) := by
  have hidle : (s.accept.transportInit.sent n es).IdleFor 1 := fun k hk => by
    obtain rfl : k = 0 := by omega
    exact hpre.1.idle hi.transportInit n.lt_succ_self
  obtain ⟨t, hclear, hdev, hmode, hwhite⟩ := runsThrough_initEnd hidle (modeOf fast part gray)
  rw [hpre.1.busyAt, s.prepared_transportInit.busyAt, Nat.add_zero] at hclear
  have hrun := RunsThrough.append hpre hclear
  rw [← hprog] at hrun
  have hend : initRequest fast part gray s.accept = t.respond Status.ok [] :=
    ((if_neg hd).trans (if_pos ht)).trans hrun.drain_eq
  have hpins := endsInCommand_fullRefreshEvents whitePlane 0xF7#8 (s.busyAt n)
  obtain ⟨hran, -⟩ := hrun
  rw [hend]
  exact
    { ended := hran.endedOk.of_transportInit ht
      devState := hdev
      mode := hmode
      pinRst := hran.emits.pinRst.trans (by rw [latchAfter_append, hpins.rst, hrst])
      pinDc := hran.emits.pinDc.trans (by rw [latchAfter_append, hpins.dc])
      pinCs := hran.emits.pinCs.trans (by rw [latchAfter_append, hpins.cs])
      transportIn := hran.transportIn.trans (by simp [State.popTransport_accept])
      transportDraws := hran.transportDraws.trans (by simp [State.popTransport_accept])
      white := hwhite }

/-- The part of `InitSequence` before the fast variant's cycle: the reset pulse, the wait, software reset, update control and
border waveform (R232). -/
theorem sends_initSetup {s : State} {k : Nat} (h : s.IdleFor k) (hk : 0 < k) :
    Sends [.resetPulse, .poll, .frame 0x12#8 [], .frame 0x21#8 [s.params.upd1Init.1, s.params.upd1Init.2],
      .frame 0x3C#8 [s.params.borderInit]] s 1
      (resetPulseEvents ++ [.busyRead (s.busyAt 0)] ++ writeRegEvents 0x12#8 []
        ++ writeRegEvents 0x21#8 [s.params.upd1Init.1, s.params.upd1Init.2]
        ++ writeRegEvents 0x3C#8 [s.params.borderInit]) :=
  (((((sends_nil s).resetPulse).poll h hk).frame 0x12#8 []).frame 0x21#8 _).frame 0x3C#8 _

/-- The part behind that cycle and before `Clear()`: data entry mode, the window, the counters and a wait (R232). -/
theorem Sends.initWindow {prog : List SeqOp} {s : State} {n k : Nat} {es : List Event} (h : Sends prog s n es)
    (hi : s.IdleFor k) (hk : n < k) :
    Sends (prog ++ [.frame 0x11#8 [Config.dataEntry]] ++ setWindowFull ++ setCursorOrigin ++ [.poll]) s (n + 1)
      (es ++ writeRegEvents 0x11#8 [0x03#8] ++ windowEvents ++ [.busyRead (s.busyAt n)]) :=
  ((h.frame 0x11#8 [0x03#8]).window).poll hi hk

/-- Settles O31: without the fast variant's cycle `InitSequence` reads twice before its `Clear()`. -/
theorem initCompletes : Obligations.InitCompletes := by
  intro part gray s _ hd ht hi
  have hidle := hi.transportInit
  have hpre := (sends_initSetup hidle (by omega)).initWindow hidle (by omega)
  simp only [s.prepared_transportInit.busyAt, s.prepared_transportInit.params] at hpre
  obtain ⟨hended, hdev, hmode, hr, hdc, hcs, hin, hdraws, hwhite⟩ :=
    initRequest_initialised (fast := false) (part := part) (gray := gray) hd ht hi rfl hpre
      (by simp [resetPulseEvents, windowEvents, Event.latch])
  exact ⟨_, rfl, hended, hdev, hmode, hr, hdc, hcs, hin, hdraws, hwhite⟩

/-- Settles O32: the temperature load and its `TURN_ON` stand behind the border waveform, with one read more. -/
theorem initFastCompletes : Obligations.InitFastCompletes := by
  intro part gray s _ hd ht hi
  have hidle := hi.transportInit
  have hpre := (((sends_initSetup hidle (by omega)).frame 0x1A#8 [s.params.tempFast]).turnOn hidle (by omega)
    s.params.ctrl2FastLoad).initWindow hidle (by omega)
  simp only [s.prepared_transportInit.busyAt, s.prepared_transportInit.params] at hpre
  obtain ⟨hended, hdev, hmode, hr, hdc, hcs, hin, hdraws, hwhite⟩ :=
    initRequest_initialised (fast := true) (part := part) (gray := gray) hd ht hi rfl hpre
      (by simp [resetPulseEvents, windowEvents, turnOnEvents, Event.latch])
  exact ⟨_, rfl, hended, hdev, hmode, hr, hdc, hcs, hin, hdraws, hwhite⟩

/-! ### `SLEEP` -/

/-- Settles O30: the program is the deep-sleep frame, which has one data byte, and the new `DEV_STATE`. -/
theorem sleepCompletes : Obligations.SleepCompletes := by
  intro s _ hd
  have hexec : exec .sleep s = .next (drain (sleepProgram s.params) s.accept) := exec_of_ready rfl hd
  have hrun : drain (sleepProgram s.params) s.accept =
      State.respond Status.ok [] { s.accept.writeReg 0x10#8 [s.params.sleepData] with devState := .sleeping } := rfl
  refine ⟨_, hexec, ?_⟩
  rw [hrun, State.writeReg_of_ne_nil _ (List.cons_ne_nil _ _)]
  rfl

end Sys2Proof.Machine
end

section
/-! PROOFS. How a request ends (60_exceptions.md): the first of its checks that fails, the state each failure leaves, and what a
request that passes them all comes to. -/

namespace Sys2Proof.Machine

/-! ### The checks, in the order of 60_exceptions.md R287 -/

/-- The status of the check that fails in a state that serves the request, where `transport` is what `TransportInit()` returns:
`E_BOUNDS` and `E_ARG` of the operands, `E_TRANSPORT` of the bring-up. No request has two of these checks. -/
def failureWhenServed (transport : Int) : Instr → Option Byte
  | .init _ _ => if transport = 0 then none else some Status.eTransport
  | .initFast _ _ => if transport = 0 then none else some Status.eTransport
  | .draw x y w h _ => if insidePanel x.toNat y.toNat w.toNat h.toNat then none else some Status.eBounds
  | .merge x y w h _ => if insidePanel x.toNat y.toNat w.toNat h.toNat then none else some Status.eBounds
  | .fill _ t => if t.toNat = 0 then some Status.eArg else none
  | _ => none

/-- The status of the first check that fails behind the decoder's, `none` where the request passes them all. -/
def State.firstFailure (s : State) (i : Instr) : Option Byte :=
  if servedIn i s.devState then failureWhenServed s.nextTransport i else some Status.eState

theorem State.firstFailure_of_served {s : State} {i : Instr} (h : servedIn i s.devState = true) :
    s.firstFailure i = failureWhenServed s.nextTransport i := if_pos h

theorem State.firstFailure_of_unserved {s : State} {i : Instr} (h : servedIn i s.devState = false) :
    s.firstFailure i = some Status.eState := by
  rw [State.firstFailure, h]
  rfl

/-- The instruction carries a rectangle outside the panel (40_framebuffer.md R131). -/
def OutsidePanel (i : Instr) : Prop :=
  ∃ x y w h p, (i = .draw x y w h p ∨ i = .merge x y w h p) ∧ (400 < x.toNat + w.toNat ∨ 300 < y.toNat + h.toNat)

/-- The instruction is an `INIT` or an `INIT_FAST`. -/
def BringsUp (i : Instr) : Prop := ∃ part gray, i = .init part gray ∨ i = .initFast part gray

/-- Which requests fail which check where they are served. -/
theorem failureWhenServed_eq_some_iff {transport : Int} {i : Instr} {st : Byte} :
    failureWhenServed transport i = some st ↔
      (OutsidePanel i ∧ Status.eBounds = st) ∨ ((∃ c, i = .fill c 0) ∧ Status.eArg = st) ∨
        (BringsUp i ∧ transport ≠ 0 ∧ Status.eTransport = st) := by
  have bounds (x y w h : Coord) :
      (if insidePanel x.toNat y.toNat w.toNat h.toNat then none else some Status.eBounds) = some st ↔
        (400 < x.toNat + w.toNat ∨ 300 < y.toNat + h.toNat) ∧ Status.eBounds = st := by
    rw [← not_insidePanel_iff]
    by_cases hp : insidePanel x.toNat y.toNat w.toNat h.toNat
    · rw [if_pos hp]
      exact ⟨nofun, fun h => absurd hp h.1⟩
    · rw [if_neg hp, Option.some.injEq]
      exact (and_iff_right hp).symm
  cases i
  case draw => simp [failureWhenServed, bounds, OutsidePanel, BringsUp]
  case merge => simp [failureWhenServed, bounds, OutsidePanel, BringsUp]
  case fill => simp [failureWhenServed, OutsidePanel, BringsUp, ← BitVec.toNat_inj]
  all_goals simp [failureWhenServed, OutsidePanel, BringsUp]

/-- Which requests fail which check (60_exceptions.md R287). -/
theorem State.firstFailure_eq_some_iff {s : State} {i : Instr} {st : Byte} :
    s.firstFailure i = some st ↔
      (servedIn i s.devState = false ∧ Status.eState = st) ∨
        (servedIn i s.devState = true ∧
          ((OutsidePanel i ∧ Status.eBounds = st) ∨ ((∃ c, i = .fill c 0) ∧ Status.eArg = st) ∨
            (BringsUp i ∧ s.nextTransport ≠ 0 ∧ Status.eTransport = st))) := by
  cases hs : servedIn i s.devState
  case false => simp [State.firstFailure_of_unserved hs]
  case true => simp [State.firstFailure_of_served hs, failureWhenServed_eq_some_iff]

/-! Each status is the one of a single check. -/

theorem State.firstFailure_eq_eState_iff {s : State} {i : Instr} :
    s.firstFailure i = some Status.eState ↔ servedIn i s.devState = false := by
  simp [State.firstFailure_eq_some_iff, Status.eState, Status.eBounds, Status.eArg, Status.eTransport]

theorem State.firstFailure_eq_eBounds_iff {s : State} {i : Instr} :
    s.firstFailure i = some Status.eBounds ↔ servedIn i s.devState = true ∧ OutsidePanel i := by
  simp [State.firstFailure_eq_some_iff, Status.eState, Status.eBounds, Status.eArg, Status.eTransport]

theorem State.firstFailure_eq_eArg_iff {s : State} {i : Instr} :
    s.firstFailure i = some Status.eArg ↔ servedIn i s.devState = true ∧ ∃ c, i = .fill c 0 := by
  simp [State.firstFailure_eq_some_iff, Status.eState, Status.eBounds, Status.eArg, Status.eTransport]

theorem State.firstFailure_eq_eTransport_iff {s : State} {i : Instr} :
    s.firstFailure i = some Status.eTransport ↔
      servedIn i s.devState = true ∧ BringsUp i ∧ s.nextTransport ≠ 0 := by
  simp [State.firstFailure_eq_some_iff, Status.eState, Status.eBounds, Status.eArg, Status.eTransport]

/-- No check behind the decoder's has its status. -/
theorem State.firstFailure_ne_eEnc (s : State) (i : Instr) : s.firstFailure i ≠ some Status.eEnc := by
  simp [State.firstFailure_eq_some_iff, Status.eState, Status.eBounds, Status.eArg, Status.eTransport, Status.eEnc]

/-! ### What a request answers -/

/-- `s` after a `TransportInit()` that failed (43_refresh_sequencer.md R233). -/
def State.afterFailedTransport (s : State) : State :=
  State.popTransport { s with devState := .uninit, trace := s.trace ++ [.transportInit s.nextTransport] }

theorem State.endedWith_failedTransport (s : State) :
    s.afterFailedTransport.EndedWith (State.raise Status.eTransport { s.accept.transportInit with devState := .uninit })
      Status.eTransport [] := by
  cases h : s.transportIn <;>
    simp [State.EndedWith, State.afterFailedTransport, State.popTransport, State.nextTransport, State.accept, State.emit,
      State.respond, Event.latch, h]

/-- A request has come from `s` to `a`, where it runs its program, and has not answered. -/
structure State.Enters (s a : State) : Prop extends State.Prepared s a where
  responses : a.responses = s.responses
  status : a.status = s.status

theorem State.enters_accept (s : State) : s.Enters s.accept := ⟨s.prepared_accept, rfl, rfl⟩

theorem State.enters_mergeRect (x y w h : Nat) (src : Nat → Nat → Bool) (s : State) :
    s.Enters (s.accept.mergeRect x y w h src) := ⟨State.prepared_mergeRect .., by simp, by simp⟩

theorem State.enters_fbFill (v : Byte) (s : State) : s.Enters (s.accept.fbFill v) := ⟨s.prepared_fbFill v, by simp, by simp⟩

theorem State.enters_transportInit (s : State) : s.Enters s.accept.transportInit :=
  ⟨s.prepared_transportInit, by simp, by simp⟩

/-- How the request `i` goes on from `s` to `t`, by the first of its checks that fails: it ends with that status, after a failed
bring-up or without any effect; or it runs its program (those of `MERGE` and `FB_FILL` are empty), or returns the data of
`TO_BITMAP`. -/
inductive State.Answers (s : State) (i : Instr) : Option Byte → State → Prop where
  | fails {st : Byte} {t : State} (hst : st ∈ [Status.eState, Status.eBounds, Status.eArg]) (h : s.EndedWith t st []) :
      s.Answers i (some st) t
  | failsTransport {t : State} (h : s.afterFailedTransport.EndedWith t Status.eTransport []) :
      s.Answers i (some Status.eTransport) t
  | runs {a : State} (ha : s.Enters a) : s.Answers i none (drain (programOf i s) a)
  | returns {t : State} {data : List Byte} (hi : i = .toBitmap) (h : s.EndedWith t Status.ok data) : s.Answers i none t

/-- A check, and what stands behind it. -/
theorem State.Answers.ite {s t u : State} {i : Instr} {f g : Option Byte} (c : Prop) [Decidable c] (ht : s.Answers i f t)
    (hu : s.Answers i g u) : s.Answers i (if c then f else g) (if c then t else u) := by
  split_ifs
  · exact ht
  · exact hu

/-- A failed check ends the request and nothing else (60_exceptions.md R288). -/
theorem State.answers_raise {s : State} {i : Instr} {st : Byte}
    (hst : st ∈ [Status.eState, Status.eBounds, Status.eArg]) : s.Answers i (some st) (s.accept.raise st) :=
  .fails hst (s.endedWith_respond _ _)

/-- The state rule of the bus requests other than `INIT` and `INIT_FAST` (43_refresh_sequencer.md R220). -/
theorem State.answers_whenReady {s : State} {i : Instr} {serve : State → State}
    (hi : servedIn i s.devState = (s.devState == .ready))
    (h : s.Answers i (failureWhenServed s.nextTransport i) (serve s.accept)) :
    s.Answers i (s.firstFailure i) (s.accept.whenReady serve) := by
  rw [State.firstFailure, hi, State.whenReady]
  simp only [beq_iff_eq]
  exact h.ite _ (State.answers_raise (by simp))

/-- The state rule of `INIT` and `INIT_FAST` (R230, R231), and their bring-up (R232, R233). -/
theorem State.answers_initRequest {s : State} {i : Instr} {fast part gray : Bool}
    (hi : servedIn i s.devState = (s.devState != .sleeping))
    (hf : failureWhenServed s.nextTransport i = if s.nextTransport = 0 then none else some Status.eTransport)
    (hp : programOf i s = initProgram fast part gray s.params) :
    s.Answers i (s.firstFailure i) (initRequest fast part gray s.accept) := by
  have hinit : s.Answers i (failureWhenServed s.nextTransport i) (initSequence fast part gray s.accept) := by
    rw [hf]
    have hruns : s.Answers i none (drain (programOf i s) s.accept.transportInit) := .runs s.enters_transportInit
    rw [hp] at hruns
    exact hruns.ite (s.nextTransport = 0) (.failsTransport s.endedWith_failedTransport)
  rw [State.firstFailure, hi, initRequest]
  simp only [bne_iff_ne, ne_eq, ite_not]
  exact (State.answers_raise (by simp)).ite _ hinit

/-- What every request does: its checks, in order, then its program. -/
theorem exec_answers {i : Instr} (hi : isCommand i = false) {s t : State} (h : exec i s = .next t) :
    s.Answers i (s.firstFailure i) t := by
  have runs : s.Answers i none (drain (programOf i s) s.accept) := .runs s.enters_accept
  cases i <;> cases h
  case init => exact State.answers_initRequest rfl rfl rfl
  case initFast => exact State.answers_initRequest rfl rfl rfl
  case clear => exact State.answers_whenReady rfl runs
  case displayFull => exact State.answers_whenReady rfl runs
  case displayPartial => exact State.answers_whenReady rfl runs
  case draw => exact State.answers_whenReady rfl (.ite _ (.runs (s.enters_mergeRect ..)) (State.answers_raise (by simp)))
  case fill => exact State.answers_whenReady rfl (.ite _ (State.answers_raise (by simp)) runs)
  case sleep => exact State.answers_whenReady rfl runs
  case merge =>
    rw [State.firstFailure_of_served rfl]
    exact .ite _ (.runs (s.enters_mergeRect ..)) (State.answers_raise (by simp))
  case toBitmap => exact .returns rfl (s.endedWith_respond _ _)
  case fbFill => exact .runs (s.enters_fbFill _)
  all_goals cases hi

/-- The status of a request that has ended is the one of its first failed check, and `OK` where none fails. -/
theorem State.Answers.status_eq {s t : State} {i : Instr} {f : Option Byte} (h : s.Answers i f t) (ha : t.active = false) :
    t.status = f.getD Status.ok := by
  cases h with
  | fails _ h => exact h.status_eq
  | failsTransport h => exact h.status_eq
  | returns _ h => exact h.status_eq
  | @runs a he =>
    rcases drain_cases (programOf i s) a with ⟨-, hst, -⟩ | ⟨hact, -⟩
    · exact hst
    · rw [hact, he.active] at ha
      cases ha

/-- A request that has ended with a failure status is one whose first failed check has it. -/
theorem exec_firstFailure_of_status {i : Instr} (hi : isCommand i = false) {s t : State} (h : exec i s = .next t)
    (ha : t.active = false) {st : Byte} (ht : t.status = st) (hst : st ≠ Status.ok) : s.firstFailure i = some st := by
  have he := (exec_answers hi h).status_eq ha
  rw [ht] at he
  cases hf : s.firstFailure i with
  | none =>
    rw [hf] at he
    exact absurd he hst
  | some st' => rw [he, hf, Option.getD_some]

/-- A request whose check fails ends with its status. -/
theorem exec_status_of_firstFailure {i : Instr} (hi : isCommand i = false) {s t : State} (h : exec i s = .next t) {st : Byte}
    (hf : s.firstFailure i = some st) : t.status = st := by
  have ha := exec_answers hi h
  rw [hf] at ha
  cases ha with
  | fails _ h => exact h.status_eq
  | failsTransport h => exact h.status_eq

/-- A request whose first failed check is one without a bring-up ends there and does nothing else. -/
theorem exec_of_firstFailure {i : Instr} (hi : isCommand i = false) {s : State} {st : Byte} (hf : s.firstFailure i = some st)
    (hst : st ≠ Status.eTransport) : ∃ t, exec i s = .next t ∧ s.EndedWith t st [] := by
  obtain ⟨t, ht⟩ := exec_answers_next i s
  have h := exec_answers hi ht
  rw [hf] at h
  cases h with
  | fails _ h => exact ⟨t, ht, h⟩
  | failsTransport => exact absurd rfl hst

/-- A request whose bring-up fails ends there (43_refresh_sequencer.md R233). -/
theorem exec_of_firstFailure_eTransport {i : Instr} (hi : isCommand i = false) {s : State}
    (hf : s.firstFailure i = some Status.eTransport) :
    ∃ t, exec i s = .next t ∧ s.afterFailedTransport.EndedWith t Status.eTransport [] := by
  obtain ⟨t, ht⟩ := exec_answers_next i s
  have h := exec_answers hi ht
  rw [hf] at h
  cases h with
  | fails hst => simp [Status.eTransport, Status.eState, Status.eBounds, Status.eArg] at hst
  | failsTransport h => exact ⟨t, ht, h⟩

/-- Settles O9: the state rule is the first check, and no other has its status. -/
theorem unservedRequestEndsWithEState : Obligations.UnservedRequestEndsWithEState := by
  intro i s hi _
  refine ⟨fun hs => ?_, fun hs t ht ha hst => ?_⟩
  · exact exec_of_firstFailure hi (State.firstFailure_of_unserved hs) (by decide)
  · have hf := exec_firstFailure_of_status hi ht ha hst (by decide)
    rw [State.firstFailure_eq_eState_iff.1 hf] at hs
    cases hs

/-- Settles O10: the rectangle is the first check of `MERGE`, and of `DRAW` the next after the state rule. -/
theorem outsideRectangleEndsWithEBounds : Obligations.OutsideRectangleEndsWithEBounds := by
  refine ⟨fun x y w h p s _ ho => ⟨?_, fun hd => ?_⟩, fun i s t hi _ ht ha hst => ?_⟩
  · have hf := State.firstFailure_eq_eBounds_iff (s := s).2 ⟨rfl, x, y, w, h, p, .inr rfl, ho⟩
    exact exec_of_firstFailure rfl hf (by decide)
  · have hs : servedIn (.draw x y w h p) s.devState = true := by rw [hd]; rfl
    have hf := State.firstFailure_eq_eBounds_iff.2 ⟨hs, x, y, w, h, p, .inl rfl, ho⟩
    exact exec_of_firstFailure rfl hf (by decide)
  · have hf := exec_firstFailure_of_status hi ht ha hst (by decide)
    obtain ⟨hs, x, y, w, h, p, rfl | rfl, ho⟩ := State.firstFailure_eq_eBounds_iff.1 hf
    · exact ⟨x, y, w, h, p, .inr ⟨rfl, eq_of_beq hs⟩, ho⟩
    · exact ⟨x, y, w, h, p, .inl rfl, ho⟩

/-- Settles O11: the tile height is the check of `FILL` after the state rule. -/
theorem zeroTileHeightEndsWithEArg : Obligations.ZeroTileHeightEndsWithEArg := by
  refine ⟨fun c s _ hd => ?_, fun i s t hi _ ht ha hst => ?_⟩
  · have hs : servedIn (.fill c 0) s.devState = true := by rw [hd]; rfl
    exact exec_of_firstFailure rfl (State.firstFailure_eq_eArg_iff.2 ⟨hs, c, rfl⟩) (by decide)
  · have hf := exec_firstFailure_of_status hi ht ha hst (by decide)
    obtain ⟨hs, c, rfl⟩ := State.firstFailure_eq_eArg_iff.1 hf
    exact ⟨c, rfl, eq_of_beq hs⟩

/-- Outside `SLEEPING`, and only there, `INIT` and `INIT_FAST` are served (43_refresh_sequencer.md R220). -/
theorem BringsUp.servedIn_iff {i : Instr} (h : BringsUp i) (d : DevState) : servedIn i d = true ↔ d ≠ .sleeping := by
  obtain ⟨part, gray, rfl | rfl⟩ := h <;> simp [servedIn]

theorem BringsUp.isCommand_eq {i : Instr} (h : BringsUp i) : isCommand i = false := by
  obtain ⟨part, gray, rfl | rfl⟩ := h <;> rfl

/-- Settles O12: the bring-up is the check of `INIT` and `INIT_FAST` after the state rule. -/
theorem transportFailureEndsWithETransport : Obligations.TransportFailureEndsWithETransport := by
  refine ⟨fun part gray s _ hd htr i hmem => ?_, fun i s t hi _ ht ha hst => ?_⟩
  · have hb : BringsUp i := ⟨part, gray, by simpa using hmem⟩
    have hf := State.firstFailure_eq_eTransport_iff.2 ⟨(hb.servedIn_iff _).2 hd, hb, htr⟩
    exact exec_of_firstFailure_eTransport hb.isCommand_eq hf
  · have hf := exec_firstFailure_of_status hi ht ha hst (by decide)
    obtain ⟨hs, hb, htr⟩ := State.firstFailure_eq_eTransport_iff.1 hf
    exact ⟨hb, (hb.servedIn_iff _).1 hs, htr⟩

/-- The one response of a request that has ended, from a state with as many responses as `s`. -/
theorem State.EndedWith.response_eq {s a t : State} {st : Byte} {data : List Byte} (h : a.EndedWith t st data)
    (ha : a.responses = s.responses) : t.responses = s.responses ++ [⟨t.status, data⟩] := by
  rw [h.responses_eq, h.status_eq, ha]

theorem State.afterFailedTransport_responses (s : State) : s.afterFailedTransport.responses = s.responses := by
  simp [State.afterFailedTransport]

/-- Settles O14: a failed check answers once, and so do `TO_BITMAP` and a program that runs to its end; any other program waits. -/
theorem requestEndsWithOneResponse : Obligations.RequestEndsWithOneResponse := by
  intro i s t hi _ ht
  have h := exec_answers hi ht
  generalize s.firstFailure i = f at h
  cases h with
  | fails hst h =>
    have hmem : t.status ∈ [Status.ok, Status.eTransport, Status.eState, Status.eBounds, Status.eArg] := by
      rw [h.status_eq]
      exact List.mem_cons_of_mem _ (List.mem_cons_of_mem _ hst)
    exact .inl ⟨h.active_eq, hmem, [], h.response_eq rfl, fun _ => rfl⟩
  | failsTransport h =>
    exact .inl ⟨h.active_eq, by simp [h.status_eq, Status.eTransport], [], h.response_eq s.afterFailedTransport_responses,
      fun _ => rfl⟩
  | @returns t data hbitmap h =>
    exact .inl ⟨h.active_eq, by simp [h.status_eq, Status.ok], data, h.response_eq rfl, fun hne => absurd hbitmap hne⟩
  | @runs a he =>
    rcases drain_cases (programOf i s) a with ⟨hact, hst, hr, -, -⟩ | ⟨hact, hr, hst, rest, hp, -⟩
    · exact .inl ⟨hact, by simp [hst, Status.ok], [], by rw [hr, hst, he.responses], fun _ => rfl⟩
    · exact .inr ⟨hact.trans he.active, hr.trans he.responses, hst.trans he.status, rest, hp⟩

/-! ### Which requests wait for a busy controller -/

/-- A program with a `WaitIdle()` waits at its first one when the controller is busy. -/
theorem drain_waits_of_busy {prog : List SeqOp} (hn : .repoll ∉ prog) (hp : .poll ∈ prog) {s : State}
    (hb : s.busyAt 0 = s.params.busyLevel) :
    (drain prog s).active = s.active ∧ ∃ rest, (drain prog s).pending = .repoll :: rest := by
  induction prog generalizing s with
  | nil => cases hp
  | cons op prog ih =>
    obtain ⟨hop, hprog⟩ : .repoll ≠ op ∧ .repoll ∉ prog := by simpa using hn
    by_cases h : op = .poll
    · subst h
      rw [drain_poll_busy prog s hb]
      exact ⟨rfl, prog, rfl⟩
    · obtain ⟨hin, hdraws⟩ := op.effect_keepsLevels h hop.symm s
      obtain ⟨hact, -⟩ := op.effect_keeps s
      have hb' : (op.effect s).busyAt 0 = (op.effect s).params.busyLevel := by
        rw [State.busyAt_congr hin hdraws, (op.effect_emits s).params, hb]
      rw [drain_cons_of_ne h hop.symm, ← hact]
      exact ih hprog (List.mem_of_ne_of_mem (Ne.symm h) hp) hb'

/-- A program without a `WaitIdle()` runs to its end. -/
theorem drain_ends_of_no_poll {prog : List SeqOp} (hn : .repoll ∉ prog) (hp : .poll ∉ prog) (s : State) :
    (drain prog s).active = false := by
  rcases drain_waits prog hn s with h | ⟨pre, rest, rfl, -⟩
  · exact h
  · exact absurd (List.mem_append_right pre List.mem_cons_self) hp

theorem poll_mem_turnOn (a : Byte) : .poll ∈ turnOn a := by simp [turnOn]

theorem poll_mem_refreshProgram (m : Mode) (p : Params) : .poll ∈ refreshProgram m p := by
  unfold refreshProgram
  split <;> exact List.mem_append_right _ (poll_mem_turnOn _)

/-- A `FILL` with a tile height has a first tile (43_refresh_sequencer.md R246). -/
theorem poll_mem_fillProgram (c : Bool) {t : Nat} (ht : t ≠ 0) (m : Mode) (p : Params) : .poll ∈ fillProgram c t m p := by
  have hpos : 0 < (300 + t - 1) / t := Nat.div_pos (by omega) (Nat.pos_of_ne_zero ht)
  rw [fillProgram_eq_tilePrograms c ht, List.mem_flatMap]
  exact ⟨0, List.mem_range.2 hpos, List.mem_cons_of_mem _ (poll_mem_refreshProgram m p)⟩

theorem poll_mem_initProgram (fast part gray : Bool) (p : Params) : .poll ∈ initProgram fast part gray p := by
  simp [initProgram]

/-- A request that passes its checks and whose program has a `WaitIdle()` waits for a busy controller. -/
theorem exec_waits_of_busy {i : Instr} (hi : isCommand i = false) {s t : State} (h : exec i s = .next t)
    (hf : s.firstFailure i = none) (hp : .poll ∈ programOf i s) (hb : s.busyAt 0 = s.params.busyLevel) :
    t.active = true ∧ ∃ rest, t.pending = .repoll :: rest := by
  have ha := exec_answers hi h
  rw [hf] at ha
  cases ha with
  | returns hbitmap =>
    subst hbitmap
    cases hp
  | @runs a he =>
    rw [← he.busyAt, ← he.params] at hb
    rw [← he.active]
    exact drain_waits_of_busy (repoll_notMem_programOf i s) hp hb

/-- A request whose program has no `WaitIdle()` ends. -/
theorem exec_ends_of_no_poll {i : Instr} (hi : isCommand i = false) {s t : State} (h : exec i s = .next t)
    (hp : .poll ∉ programOf i s) : t.active = false := by
  have ha := exec_answers hi h
  generalize s.firstFailure i = f at ha
  cases ha with
  | fails _ h => exact h.active_eq
  | failsTransport h => exact h.active_eq
  | returns _ h => exact h.active_eq
  | runs => exact drain_ends_of_no_poll (repoll_notMem_programOf i s) hp _

/-- Settles O35: the requests of the first list pass their checks and have a `WaitIdle()` in their programs, and those of the second
have none. -/
theorem requestsThatCanHang : Obligations.RequestsThatCanHang := by
  intro s _
  refine ⟨fun i t hb hs ht hi => ?_, fun i t ht hi => ?_⟩
  · have hbusy := hb 0 Nat.one_pos
    have waits (hc : isCommand i = false) (hf : failureWhenServed s.nextTransport i = none) (hp : .poll ∈ programOf i s) :
        t.active = true ∧ ∃ rest, t.pending = .repoll :: rest :=
      exec_waits_of_busy hc ht ((State.firstFailure_of_served hs).trans hf) hp hbusy
    rcases hi with ⟨part, gray, htr, rfl | rfl⟩ | rfl | rfl | rfl | ⟨x, y, w, h, p, rfl, hx, hy⟩ | ⟨c, th, rfl, hth⟩
    · exact waits rfl (if_pos htr) (poll_mem_initProgram _ _ _ _)
    · exact waits rfl (if_pos htr) (poll_mem_initProgram _ _ _ _)
    · exact waits rfl rfl (List.mem_append_right _ (poll_mem_turnOn _))
    · exact waits rfl rfl (List.mem_append_right _ (poll_mem_turnOn _))
    · exact waits rfl rfl (List.mem_append_right _ (poll_mem_turnOn _))
    · exact waits rfl (if_pos ⟨hx, hy⟩) (poll_mem_refreshProgram _ _)
    · exact waits rfl (if_neg hth) (poll_mem_fillProgram c hth _ _)
  · rcases hi with rfl | ⟨x, y, w, h, p, rfl⟩ | rfl | ⟨c, rfl⟩
    · exact exec_ends_of_no_poll rfl ht (by simp [programOf, sleepProgram])
    all_goals exact exec_ends_of_no_poll rfl ht List.not_mem_nil

/-! ### The step that takes a request -/

/-- The host presents no controller command (30_encoding.md R104). -/
theorem isCommand_of_decode {r : Request} {i : Instr} (h : decode (.request r) = .ok i) : isCommand i = false := by
  unfold isCommand
  split
  · rfl
  · rename_i op data he
    exact absurd he (encode_ne_frame_of_decode h op data)

section
variable {s : State} {r : Request} {rest : List Request} (hr : s.resetIn = none) (ha : s.active = false)
  (hq : s.requests = r :: rest)
include hr ha hq

/-- An idle block serves the oldest request. -/
theorem step_eq_serve : step s = State.serve r { s with requests := rest } := by
  rw [step_eq_proceed hr, State.proceed, hq, ha]
  rfl

/-- An illegal request ends there and does nothing else (30_encoding.md R95). -/
theorem step_of_illegal (hi : IllegalRequest r) :
    ∃ t, step s = .next t ∧ State.EndedWith { s with requests := rest } t Status.eEnc [] := by
  obtain ⟨e, he⟩ := (requestIsIllegalExactlyWhen r).2 hi
  rw [step_eq_serve hr ha hq, State.serve, he]
  exact ⟨_, rfl, State.endedWith_respond _ _ _⟩

/-- Any other request is executed. -/
theorem step_of_legal {i : Instr} (hd : decode (.request r) = .ok i) : step s = exec i { s with requests := rest } := by
  rw [step_eq_serve hr ha hq, State.serve, hd]

end

/-- A request is illegal, or decoded to an instruction. -/
theorem illegal_or_decodes (r : Request) : IllegalRequest r ∨ ¬ IllegalRequest r ∧ ∃ i, decode (.request r) = .ok i := by
  rw [← requestIsIllegalExactlyWhen r]
  cases decode (.request r) with
  | ok i => exact .inr ⟨nofun, i, rfl⟩
  | error e => exact .inl ⟨e, rfl⟩

theorem decode_ne_ok_of_illegal {r : Request} (h : IllegalRequest r) (i : Instr) : decode (.request r) ≠ .ok i := by
  obtain ⟨e, he⟩ := (requestIsIllegalExactlyWhen r).2 h
  rw [he]
  nofun

/-- Settles O8: what the decoder refuses ends with `E_ENC`, and no check behind it has that status. -/
theorem illegalRequestEndsWithEEnc : Obligations.IllegalRequestEndsWithEEnc := by
  intro s r rest hr ha hq
  refine ⟨step_of_illegal hr ha hq, fun hlegal t ht hact hst => ?_⟩
  rcases illegal_or_decodes r with h | ⟨-, i, hd⟩
  · exact hlegal h
  · rw [step_of_legal hr ha hq hd] at ht
    exact State.firstFailure_ne_eEnc _ i (exec_firstFailure_of_status (isCommand_of_decode hd) ht hact hst (by decide))

/-- Settles O13: the decoder's check comes first, and behind it the status is that of the first check that fails. -/
theorem priorityOfTheChecks : Obligations.PriorityOfTheChecks := by
  intro s r rest hr ha hq
  rcases illegal_or_decodes r with hill | ⟨hlegal, i, hd⟩
  · obtain ⟨t, ht, hend⟩ := step_of_illegal hr ha hq hill
    exact ⟨t, ht, ⟨_, hend.responses_eq, le_rfl⟩, fun _ => hend.status_eq,
      fun i hd => absurd hd (decode_ne_ok_of_illegal hill i)⟩
  · obtain ⟨t, ht⟩ := exec_answers_next i { s with requests := rest }
    have status {st : Byte} (hf : s.firstFailure i = some st) : t.status = st :=
      exec_status_of_firstFailure (isCommand_of_decode hd) ht hf
    refine ⟨t, (step_of_legal hr ha hq hd).trans ht, ?_, fun hill => absurd hill hlegal, fun j hj => ?_⟩
    · rcases exec_answersOnce ht with h | ⟨x, h⟩
      · exact ⟨[], by rw [h, List.append_nil], Nat.zero_le 1⟩
      · exact ⟨[x], h, le_rfl⟩
    · rw [hd] at hj
      cases hj
      refine ⟨fun hs => status (State.firstFailure_of_unserved hs), fun hs => ⟨?_, ?_, ?_⟩⟩
      · intro x y w h p hi ho
        exact status (State.firstFailure_eq_eBounds_iff.2 ⟨hs, x, y, w, h, p, hi, ho⟩)
      · intro c hi
        exact status (State.firstFailure_eq_eArg_iff.2 ⟨hs, c, hi⟩)
      · intro part gray hi htr
        exact status (State.firstFailure_eq_eTransport_iff.2 ⟨hs, ⟨part, gray, hi⟩, htr⟩)

/-- A program left waiting ends with `OK`, and with no other status (60_exceptions.md R288). -/
theorem State.runPending_ends {s t : State} (ha : s.active = true) (h : s.runPending = .next t) (hact : t.active = false) :
    t = s.respond Status.ok [] := by
  rcases State.runPending_eq_effect h with ⟨-, ht⟩ | ⟨op, _, l, -, rfl⟩
  · exact ht
  · obtain ⟨hop, -⟩ := op.effect_keeps s
    have hgoes : (op.effect s).active = false := hact
    rw [hop, ha] at hgoes
    cases hgoes

/-- Settles O15: the status tells which check failed, and the state is the one that check leaves; a program left waiting can
only end with `OK`. -/
theorem failureStatusesArePrecise : Obligations.FailureStatusesArePrecise := by
  refine ⟨fun s t r rest hr ha hq ht hact => ?_, fun s t _ hr ha ht hact => ?_⟩
  · rcases illegal_or_decodes r with hill | ⟨-, i, hd⟩
    · obtain ⟨t', ht', hend⟩ := step_of_illegal hr ha hq hill
      cases ht'.symm.trans ht
      refine ⟨fun _ => ?_, fun hst => ?_⟩
      · rw [hend.status_eq]
        exact hend
      · exact absurd (hend.status_eq.symm.trans hst) (by decide)
    · rw [step_of_legal hr ha hq hd] at ht
      have hi := isCommand_of_decode hd
      refine ⟨fun hst => ?_, fun hst => ?_⟩
      · have hf := exec_firstFailure_of_status hi ht hact rfl (ne_of_mem_of_not_mem hst (by decide))
        obtain ⟨t', ht', hend⟩ := exec_of_firstFailure hi hf (ne_of_mem_of_not_mem hst (by decide))
        cases ht'.symm.trans ht
        exact hend
      · have hf := exec_firstFailure_of_status hi ht hact hst (by decide)
        obtain ⟨t', ht', hend⟩ := exec_of_firstFailure_eTransport hi hf
        cases ht'.symm.trans ht
        exact hend
  · rw [step_eq_proceed hr, proceed_active ha] at ht
    rw [State.runPending_ends ha ht hact]
    exact ⟨rfl, rfl⟩

/-! ### No step stops -/

/-- An active block with a known program goes on: the frames of the program decode (30_encoding.md R102). -/
theorem State.runPending_answers_next {s : State} (hw : ∀ op ∈ s.pending, op.wf = true) : ∃ t, s.runPending = .next t := by
  unfold State.runPending
  split
  case h_2 op bs rest hp =>
    have hop : (SeqOp.frame op bs).wf = true := hw _ (by rw [hp]; exact List.mem_cons_self)
    exact ⟨_, State.runFrame_eq _ (dataLength_of_wf_frame hop)⟩
  case h_3 op rest hp =>
    have hop : (SeqOp.plane op).wf = true := hw _ (by rw [hp]; exact List.mem_cons_self)
    exact ⟨_, State.runFrame_eq _ (dataLength_of_wf_plane s hop)⟩
  all_goals exact ⟨_, rfl⟩

theorem State.serve_answers_next (r : Request) (s : State) : ∃ t, s.serve r = .next t := by
  unfold State.serve
  split
  · exact exec_answers_next _ s
  · exact ⟨_, rfl⟩

theorem State.Inv.proceed_answers_next {s : State} (hi : s.Inv) : ∃ t, s.proceed = .next t := by
  unfold State.proceed
  split
  · exact State.runPending_answers_next hi.pendingWf
  · split
    · exact ⟨_, rfl⟩
    · exact State.serve_answers_next _ _

/-- Settles O44: a step is a block reset, or what the block does next, which answers a next state. -/
theorem stepNeverStops : Obligations.StepNeverStops := by
  intro s hi
  obtain ⟨u, hu⟩ := hi.proceed_answers_next
  rw [step, hu]
  split <;> exact ⟨_, rfl⟩

end Sys2Proof.Machine
end

section
/-! PROOFS. The block reset, asserted now or inside a step, and what no step changes (70_reset_and_hazards.md). -/

namespace Sys2Proof.Machine

/-! ### Where the reset strikes -/

theorem step_eq_blockReset {s : State} (h : s.resetIn = some 0) : step s = .next s.blockReset := if_pos h

/-- A reset asserted inside the progress of a step cuts the step there (70_reset_and_hazards.md R321). -/
theorem step_eq_cutByReset {s u : State} {n : Nat} (hr : s.resetIn = some n) (hn : 0 < n) (hu : s.proceed = .next u)
    (hp : n < progressBetween s u) : step s = .next (s.cutByReset u n) := by
  have hnow : s.resetIn ≠ some 0 := by simp [hr, hn.ne']
  rw [step, if_neg hnow, hu]
  simp [State.withResetInput, hr, hp]

/-- The trace a reset inside a step leaves is a first part of the trace the whole step would have left. -/
theorem State.cutByReset_trace_prefix {s u : State} (h : s.trace <+: u.trace) (n : Nat) :
    (s.cutByReset u n).trace <+: u.trace := by
  obtain ⟨es, he⟩ := h
  obtain ⟨_, _, _, _, hc⟩ := s.cutByReset_eq u n
  have hb : eventsBetween s u = es := by rw [eventsBetween, ← he, List.drop_left]
  rw [hc, hb, ← he]
  exact (List.prefix_append_right_inj s.trace).2 (List.take_prefix _ es)

/-- Settles O40: such a step is the block reset, which writes these values out and keeps the rest. -/
theorem blockResetAtAnyTime : Obligations.BlockResetAtAnyTime := fun s hr =>
  ⟨s.blockReset, step_eq_blockReset hr, rfl, rfl, rfl, rfl, rfl, rfl, rfl, rfl, rfl, rfl, rfl⟩

/-- Settles O41: such a step is the cut one, a block reset with the events up to its place in the trace. -/
theorem blockResetInsideARequest : Obligations.BlockResetInsideARequest := by
  intro s u n hr hn hu hp
  have htrace := State.cutByReset_trace_prefix (State.proceed_outputsGrow hu).1 n
  refine ⟨s.cutByReset u n, step_eq_cutByReset hr hn hu hp, ?_⟩
  obtain ⟨_, _, _, _, hc⟩ := s.cutByReset_eq u n
  rw [hc] at htrace ⊢
  exact ⟨rfl, rfl, rfl, rfl, rfl, rfl, rfl, rfl, rfl, rfl, rfl, htrace⟩

/-! ### What no step changes -/

/-- Nothing the block does next writes the OPEN parameters. -/
theorem State.proceed_params {s u : State} (h : s.proceed = .next u) : u.params = s.params := by
  obtain ⟨es, he⟩ := State.proceed_emits h
  exact he.params

/-- Settles O48: what the block does next keeps the parameters, and a block reset, whole or inside a step, does too. -/
theorem stepKeepsTheOpenParameters : Obligations.StepKeepsTheOpenParameters := by
  intro s t h
  rcases step_cases h with ⟨-, rfl⟩ | ⟨u, hu, ⟨-, rfl⟩ | ⟨n, -, -, rfl⟩ | ⟨n, -, -, rfl⟩⟩
  · rfl
  · exact State.proceed_params hu
  · obtain ⟨_, _, _, _, hc⟩ := s.cutByReset_eq u n
    rw [hc]
    rfl
  · have hk : u.params = s.params := State.proceed_params hu
    exact hk

/-! ### In `SLEEPING` -/

/-- The requests served in `SLEEPING` are the framebuffer's own (43_refresh_sequencer.md R220). -/
theorem eq_framebufferRequest_of_servedIn_sleeping {i : Instr} (hi : isCommand i = false)
    (h : servedIn i .sleeping = true) :
    (∃ x y w k p, i = .merge x y w k p) ∨ i = .toBitmap ∨ ∃ c, i = .fbFill c := by
  cases i
  case merge => exact .inl ⟨_, _, _, _, _, rfl⟩
  case toBitmap => exact .inr (.inl rfl)
  case fbFill => exact .inr (.inr ⟨_, rfl⟩)
  all_goals simp [isCommand, encode, servedIn] at hi h

/-- A request in `SLEEPING` makes no event: it fails the state rule, or works on `FB` only. -/
theorem exec_trace_of_sleeping {i : Instr} (hi : isCommand i = false) {s t : State} (hd : s.devState = .sleeping)
    (h : exec i s = .next t) : t.trace = s.trace := by
  cases hs : servedIn i s.devState with
  | false =>
    obtain ⟨t', ht', hend⟩ := exec_of_firstFailure hi (State.firstFailure_of_unserved hs) (by decide)
    cases ht'.symm.trans h
    exact (congrArg State.trace hend).trans rfl
  | true =>
    rw [hd] at hs
    obtain ⟨x, y, w, k, p, rfl⟩ | rfl | ⟨c, rfl⟩ := eq_framebufferRequest_of_servedIn_sleeping hi hs
    · cases h
      split
      · exact State.mergeRect_trace ..
      · rfl
    · cases h
      rfl
    · cases h
      exact s.accept.fbFill_trace (fillByte c)

/-- A request in `SLEEPING` leaves `DEV_STATE` and `MODE`: `INIT` and `INIT_FAST` need another state, `SLEEP` needs `READY`. -/
theorem exec_keepsRegs_of_sleeping {i : Instr} {s t : State} (hd : s.devState = .sleeping) (h : exec i s = .next t) :
    s.KeepsRegs t := by
  rcases exec_regs_cases h with hk | ⟨_, _, -, hne, -⟩ | ⟨-, hr, -, -⟩
  · exact hk
  · exact absurd hd hne
  · rw [hd] at hr
    cases hr

/-- A sleeping block is idle, and does next nothing or a request that makes no event and stays in `SLEEPING`
(43_refresh_sequencer.md R251). -/
theorem State.Inv.proceed_of_sleeping {s t : State} (hi : s.Inv) (hd : s.devState = .sleeping) (h : s.proceed = .next t) :
    t.trace = s.trace ∧ s.KeepsRegs t := by
  rcases State.proceed_cases h with ⟨ha, -⟩ | ⟨-, -, rfl⟩ | ⟨r, rest, -, -, h⟩
  · rw [hi.sleepingIdle hd] at ha
    cases ha
  · exact ⟨rfl, rfl, rfl⟩
  · rcases State.serve_cases h with ⟨i, hdec, h⟩ | ⟨e, -, rfl⟩
    · exact ⟨exec_trace_of_sleeping (s := { s with requests := rest }) (isCommand_of_decode hdec) hd h,
        exec_keepsRegs_of_sleeping (s := { s with requests := rest }) hd h⟩
    · exact ⟨rfl, rfl, rfl⟩

/-- A step that would have left the trace as it is, cut by a reset leaves it too. -/
theorem State.cutByReset_trace_of_eq {s u : State} (h : u.trace = s.trace) (n : Nat) :
    (s.cutByReset u n).trace = s.trace := by
  have hp := State.cutByReset_trace_prefix (s := s) (u := u) ⟨[], by rw [h, List.append_nil]⟩ n
  rw [h] at hp
  exact antisymm hp (s.cutByReset_outputsGrow u n).1

/-- Settles O47: what a sleeping block does next makes no event and keeps both registers, so that a reset inside it finds no
event either. -/
theorem sleepingBlockIsQuiet : Obligations.SleepingBlockIsQuiet := by
  intro s t hi hd h
  rcases step_cases h with ⟨hr, rfl⟩ | ⟨u, hu, hcases⟩
  · exact ⟨rfl, .inl (.inl hr)⟩
  · obtain ⟨htrace, hdev, hmode⟩ := hi.proceed_of_sleeping hd hu
    have hsleep : u.devState = .sleeping := hdev.trans hd
    rcases hcases with ⟨-, rfl⟩ | ⟨n, hr, hn, rfl⟩ | ⟨n, -, -, rfl⟩
    · exact ⟨htrace, .inr ⟨hsleep, hmode⟩⟩
    · exact ⟨State.cutByReset_trace_of_eq htrace n, .inl (.inr ⟨n, u, hr, hu, hn⟩)⟩
    · exact ⟨htrace, .inr ⟨hsleep, hmode⟩⟩

end Sys2Proof.Machine
end
